-- ==== Sys2Proof/Word.lean ====
section
/-! DEFINITION. The words of the register interface and their plainest types: a byte, a 32-bit register word
(20_memory.md R81), and a binary64 pattern (00_scope.md R12). -/

namespace Sys2Proof

/-- One byte, `u8` (00_scope.md R11). -/
abbrev Byte := BitVec 8

/-- One 32-bit register or window word, `u32` (20_memory.md R81). -/
abbrev Word := BitVec 32

/-- `bits64(x)` of a binary64 value `x`: 1 sign bit, 11 exponent bits, 52 fraction bits (00_scope.md R12). -/
abbrev F64 := BitVec 64

end Sys2Proof
end

