-- ==== Sys2Proof/Syntax.lean ====
section
/-! DEFINITION. The instructions of the register interface (00_scope.md R8): one constructor of `Instr` for each row of
spec/opcode_table.json, the host access that carries an instruction (30_encoding.md R115), and the two opcode maps'
operations (R112, R113). -/

namespace Sys2Proof

/-- The cipher-unit operations of R112, the rows a word written to `C_CMD` can name. -/
inductive COp
  | nop | keyset | keyclr | seed | apply | cont | ksstart
deriving DecidableEq, Repr

/-- The framer-unit operations of R113, the rows a word written to `F_CMD` can name. -/
inductive FOp
  | nop | parse | pop | encode | decode | reset
deriving DecidableEq, Repr

/-- One constructor per row of spec/opcode_table.json. -/
inductive Instr
  /-- `C.NOP`, R173. -/
  | cNop
  /-- `C.KEYSET`, R174. -/
  | cKeyset
  /-- `C.KEYCLR`, R175. -/
  | cKeyclr
  /-- `C.SEED`, R176. -/
  | cSeed
  /-- `C.APPLY`, R177. -/
  | cApply
  /-- `C.CONT`, R178. -/
  | cCont
  /-- `C.KSSTART`, R179. -/
  | cKsstart
  /-- `F.NOP`, R223. -/
  | fNop
  /-- `F.PARSE`, R226. -/
  | fParse
  /-- `F.POP`, R227. -/
  | fPop
  /-- `F.ENCODE`, R202. -/
  | fEncode
  /-- `F.DECODE`, R203. -/
  | fDecode
  /-- `F.RESET`, R228. -/
  | fReset
  /-- `F.PUSH8`, R224: the whole data word; the meaning uses bits 7..0 and ignores the rest (R114). -/
  | fPush8 (w : Word)
  /-- `F.PUSH32`, R225. -/
  | fPush32 (w : Word)
  /-- `SYS.RESET`, R262. -/
  | sysReset
  /-- `C.KEYWR` of register `C_KEYk`, R171. -/
  | cKeywr (k : Fin 8) (w : Word)
  /-- `HOST.RD` at a byte offset, R260. -/
  | hostRd (off : Nat)
  /-- `HOST.WR` of a word at a byte offset, R261: every write that is not one of the rows above. -/
  | hostWr (off : Nat) (w : Word)
deriving DecidableEq, Repr

/-- A host access to the block, `ACC = (dir, offset, data)` of R115, with its width in bits, since R82 says what an access
of another width gets. The offset is from `BLOCK_BASE` and unbounded, since R82 says what an offset of `0x8000` or above
gets. -/
inductive Access
  | read (bits : Nat) (off : Nat)
  | write (bits : Nat) (off : Nat) (data : Word)
deriving DecidableEq, Repr

/-- The instruction of a cipher operation. -/
def COp.instr : COp → Instr
  | .nop => .cNop
  | .keyset => .cKeyset
  | .keyclr => .cKeyclr
  | .seed => .cSeed
  | .apply => .cApply
  | .cont => .cCont
  | .ksstart => .cKsstart

/-- The instruction of a framer operation. -/
def FOp.instr : FOp → Instr
  | .nop => .fNop
  | .parse => .fParse
  | .pop => .fPop
  | .encode => .fEncode
  | .decode => .fDecode
  | .reset => .fReset

end Sys2Proof
end

