-- ==== Sys2Proof/Machine/AddressMap.lean ====
section
/-! DEFINITION. The address map of 20_memory.md R92: what each byte offset of the block names, which unit it belongs to,
and which accesses are accepted (R81, R82). -/

namespace Sys2Proof.Machine

/-- What an accepted offset names (R92). An indexed register carries its number; a window word carries its word number. -/
inductive Reg
  | id | version | cbufSize | asmSize | sysReset
  | cCmd | cStatus | cResult | cLen | cSeedLo | cSeedHi | cXLo | cXHi | cMixLo | cMixHi | cCount
  | cKey (k : Fin 8) | cNonce (k : Fin 4)
  | fCmd | fStatus | fResult | fAsmLen | fFree | fPush8 | fPush32 | fNeed | fType | fPlen | fTotal | fMagic
  | fNonce (k : Fin 4) | fStg (k : Fin 7) | fStgLen
  | eType | ePlen | eNonce (k : Fin 4) | fEnc (k : Fin 7)
  | cbufWord (i : Nat) | fWinWord (i : Nat)
  | reserved
deriving DecidableEq, Repr

/-- The two units of R3, and the block's own registers, which belong to neither. -/
inductive Owner
  | system | cipher | framer
deriving DecidableEq, Repr

/-- The system rows of R92. -/
def systemMap : List (Nat × Reg) :=
  [(0x0000, .id), (0x0004, .version), (0x0008, .cbufSize), (0x000C, .asmSize), (0x0010, .sysReset)]

/-- The cipher-unit rows of R92 up to the secret. -/
def cipherMap : List (Nat × Reg) :=
  [(0x0100, .cCmd), (0x0104, .cStatus), (0x0108, .cResult), (0x010C, .cLen), (0x0110, .cSeedLo), (0x0114, .cSeedHi),
   (0x0118, .cXLo), (0x011C, .cXHi), (0x0120, .cMixLo), (0x0124, .cMixHi), (0x0128, .cCount)]

/-- The rows of `C_KEY0` to `C_KEY7`. -/
def keyMap : List (Nat × Reg) :=
  [(0x0140, .cKey 0), (0x0144, .cKey 1), (0x0148, .cKey 2), (0x014C, .cKey 3), (0x0150, .cKey 4), (0x0154, .cKey 5),
   (0x0158, .cKey 6), (0x015C, .cKey 7)]

/-- The rows of `C_NONCE0` to `C_NONCE3`. -/
def nonceMap : List (Nat × Reg) :=
  [(0x0160, .cNonce 0), (0x0164, .cNonce 1), (0x0168, .cNonce 2), (0x016C, .cNonce 3)]

/-- The framer-unit rows of R92 up to the header registers. -/
def framerMap : List (Nat × Reg) :=
  [(0x0200, .fCmd), (0x0204, .fStatus), (0x0208, .fResult), (0x020C, .fAsmLen), (0x0210, .fFree), (0x0214, .fPush8),
   (0x0218, .fPush32), (0x021C, .fNeed), (0x0220, .fType), (0x0224, .fPlen), (0x0228, .fTotal), (0x022C, .fMagic)]

/-- The rows of `F_NONCE0` to `F_NONCE3`. -/
def headerNonceMap : List (Nat × Reg) :=
  [(0x0230, .fNonce 0), (0x0234, .fNonce 1), (0x0238, .fNonce 2), (0x023C, .fNonce 3)]

/-- The rows of the staging area and its length. -/
def stagingMap : List (Nat × Reg) :=
  [(0x0240, .fStg 0), (0x0244, .fStg 1), (0x0248, .fStg 2), (0x024C, .fStg 3), (0x0250, .fStg 4), (0x0254, .fStg 5),
   (0x0258, .fStg 6), (0x025C, .fStgLen)]

/-- The rows of the encode inputs. -/
def encodeInputMap : List (Nat × Reg) :=
  [(0x0260, .eType), (0x0264, .ePlen), (0x0270, .eNonce 0), (0x0274, .eNonce 1), (0x0278, .eNonce 2), (0x027C, .eNonce 3)]

/-- The rows of `F_ENC0` to `F_ENC6`. -/
def encodeOutputMap : List (Nat × Reg) :=
  [(0x0280, .fEnc 0), (0x0284, .fEnc 1), (0x0288, .fEnc 2), (0x028C, .fEnc 3), (0x0290, .fEnc 4), (0x0294, .fEnc 5),
   (0x0298, .fEnc 6)]

/-- The register rows of R92, in its order. -/
def registerMap : List (Nat × Reg) := 
  systemMap ++ cipherMap ++ keyMap ++ nonceMap ++ framerMap ++ headerNonceMap ++ stagingMap ++ encodeInputMap ++
    encodeOutputMap

/-- What the accepted offset `off` names: a window word, a register, or nothing (R83, R88, R89, R92). -/
def regAt (off : Nat) : Reg :=
  if 0x2000 ≤ off ∧ off < 0x4000 then .cbufWord ((off - 0x2000) / 4)
  else if 0x4000 ≤ off ∧ off < 0x8000 then .fWinWord ((off - 0x4000) / 4)
  else (registerMap.lookup off).getD .reserved

/-- The unit whose register or window it is. A reserved offset belongs to no unit. -/
def Reg.owner : Reg → Owner
  | .id | .version | .cbufSize | .asmSize | .sysReset | .reserved => .system
  | .cCmd | .cStatus | .cResult | .cLen | .cSeedLo | .cSeedHi | .cXLo | .cXHi | .cMixLo | .cMixHi | .cCount => .cipher
  | .cKey _ | .cNonce _ | .cbufWord _ => .cipher
  | .fCmd | .fStatus | .fResult | .fAsmLen | .fFree | .fPush8 | .fPush32 | .fNeed | .fType | .fPlen => .framer
  | .fTotal | .fMagic | .fNonce _ | .fStg _ | .fStgLen | .eType | .ePlen | .eNonce _ | .fEnc _ | .fWinWord _ => .framer

/-- The registers a host may read while their unit is busy: the two status registers (70_reset_and_hazards.md R350). -/
def Reg.readableWhileBusy : Reg → Bool
  | .cStatus | .fStatus => true
  | _ => false

/-- `Accepted(off)` of R260 and R261 for a 32-bit access: a multiple of 4 below `0x8000` (R81, R82). -/
def accepted (off : Nat) : Bool := decide (off % 4 = 0) && decide (off < 0x8000)

/-- The byte address, in the host's address map, of a byte offset of the block (20_memory.md R80). -/
def hostAddress (blockBase off : Nat) : Nat := blockBase + off

end Sys2Proof.Machine
end

