-- ==== Sys2Proof/WellFormed.lean ====
section
/-! DEFINITION. Which terms of `Instr` an encoding exists for: a plain access has an accepted offset (20_memory.md R81,
30_encoding.md R115), and a plain write is not one that another row of the opcode table names (notes/assumptions/12.md). -/

namespace Sys2Proof

/-- A write of `w` at `off` that a row of the opcode table other than HOST.WR names: a legal command word to a command
register (R112, R113), a push, an accepted key register, or the reset word (R114). -/
def claimedWrite (off : Nat) (w : Word) : Bool :=
  (decide (off = 0x0100) && decide (w.toNat ≤ 0x06)) ||
  (decide (off = 0x0200) && decide (w.toNat ≤ 0x05)) ||
  decide (off = 0x0214) || decide (off = 0x0218) ||
  (decide (off = 0x0010) && decide (w = 0x00000001)) ||
  (decide (0x0140 ≤ off) && decide (off < 0x0160))

/-- The operand check of each instruction. Only the plain accesses have operands that can be wrong. -/
def Instr.wellFormed : Instr → Bool
  | .cNop | .cKeyset | .cKeyclr | .cSeed | .cApply | .cCont | .cKsstart => true
  | .fNop | .fParse | .fPop | .fEncode | .fDecode | .fReset => true
  | .fPush8 _ | .fPush32 _ | .sysReset | .cKeywr _ _ => true
  | .hostRd off => Machine.accepted off
  | .hostWr off w => Machine.accepted off && !claimedWrite off w

end Sys2Proof
end

