-- ==== Sys2Proof/Decode.lean ====
section
/-! DEFINITION. The decoder: from a host access (30_encoding.md R115) to the instruction it is, or the name of the reason
the bus refuses it (20_memory.md R82); and, after it, the encoder. Both are written from R110 to R115 and the address map
R92. -/

namespace Sys2Proof

/-- Why an access is not accepted (20_memory.md R82). -/
inductive DecodeError
  /-- The access is not a 32-bit access. -/
  | notWordAccess
  /-- The offset is not a multiple of 4. -/
  | misaligned
  /-- The offset is `0x8000` or above. -/
  | outsideBlock
deriving DecidableEq, Repr

/-- The `OP` field of a command word (R110). -/
def opField (w : Word) : Nat := (w.extractLsb' 0 8).toNat

/-- The reserved field of a command word (R110). -/
def rsvField (w : Word) : Nat := (w.extractLsb' 8 24).toNat

/-- R111 with the opcode map R112: `none` is an illegal word. -/
def cipherOp (w : Word) : Option COp :=
  if rsvField w ≠ 0 then none
  else match opField w with
    | 0x00 => some .nop
    | 0x01 => some .keyset
    | 0x02 => some .keyclr
    | 0x03 => some .seed
    | 0x04 => some .apply
    | 0x05 => some .cont
    | 0x06 => some .ksstart
    | _ => none

/-- R111 with the opcode map R113: `none` is an illegal word. -/
def framerOp (w : Word) : Option FOp :=
  if rsvField w ≠ 0 then none
  else match opField w with
    | 0x00 => some .nop
    | 0x01 => some .parse
    | 0x02 => some .pop
    | 0x03 => some .encode
    | 0x04 => some .decode
    | 0x05 => some .reset
    | _ => none

/-- The instruction an accepted write is: the row of the opcode table that names it, else the plain write (R112 to R115). An
illegal command word is a plain write to the command register; R261 executes it as R180 or R229 says. -/
def decodeWrite (off : Nat) (w : Word) : Instr :=
  match Machine.regAt off with
  | .cCmd => ((cipherOp w).map COp.instr).getD (.hostWr off w)
  | .fCmd => ((framerOp w).map FOp.instr).getD (.hostWr off w)
  | .fPush8 => .fPush8 w
  | .fPush32 => .fPush32 w
  | .sysReset => if w = 0x00000001 then .sysReset else .hostWr off w
  | .cKey k => .cKeywr k w
  | _ => .hostWr off w

/-- The first check of R82 that an access fails, in the order R82 names them. -/
def accessError (bits off : Nat) : Option DecodeError :=
  if bits ≠ 32 then some .notWordAccess
  else if off % 4 ≠ 0 then some .misaligned
  else if 0x8000 ≤ off then some .outsideBlock
  else none

/-- The decoder, total on every access. -/
def decode : Access → Except DecodeError Instr
  | .read bits off =>
    match accessError bits off with
    | some e => .error e
    | none => .ok (.hostRd off)
  | .write bits off w =>
    match accessError bits off with
    | some e => .error e
    | none => .ok (decodeWrite off w)

/-- The encoder: the access that issues an instruction (the columns `word` of R112 and R113, R114, R115). -/
def encode : Instr → Access
  | .cNop => .write 32 0x0100 0x00000000
  | .cKeyset => .write 32 0x0100 0x00000001
  | .cKeyclr => .write 32 0x0100 0x00000002
  | .cSeed => .write 32 0x0100 0x00000003
  | .cApply => .write 32 0x0100 0x00000004
  | .cCont => .write 32 0x0100 0x00000005
  | .cKsstart => .write 32 0x0100 0x00000006
  | .fNop => .write 32 0x0200 0x00000000
  | .fParse => .write 32 0x0200 0x00000001
  | .fPop => .write 32 0x0200 0x00000002
  | .fEncode => .write 32 0x0200 0x00000003
  | .fDecode => .write 32 0x0200 0x00000004
  | .fReset => .write 32 0x0200 0x00000005
  | .fPush8 w => .write 32 0x0214 w
  | .fPush32 w => .write 32 0x0218 w
  | .sysReset => .write 32 0x0010 0x00000001
  | .cKeywr k w => .write 32 (0x0140 + 4 * k.val) w
  | .hostRd off => .read 32 off
  | .hostWr off w => .write 32 off w

/-- The access an opcode-table word stands for. The table's word is the data of a write and carries no offset, or, for the
ACC rows, the low bits of an offset: a word of 32 bits is read as written to `C_CMD`, a shorter one as the offset of a read
(notes/assumptions/13.md). -/
def tableAccess (nbits w : Nat) : Access :=
  if 32 ≤ nbits then .write 32 0x0100 (BitVec.ofNat 32 w) else .read 32 w

/-- The instruction the decoder reads from a word of spec/opcode_table.json. -/
def decodeTableWord (nbits w : Nat) : Option Instr :=
  match decode (tableAccess nbits w) with
  | .ok i => some i
  | .error _ => none

end Sys2Proof
end

