-- ==== Sys2Proof/Machine/Bytes.lean ====
section
/-! DEFINITION. Byte order: the lanes of a register word (20_memory.md R85), the big-endian integers of a header (R86) and
the little-endian seed integer (R87), in the notation of 00_scope.md R11. -/

namespace Sys2Proof.Machine

/-- `lane(i)` of a word: bits `[8*i+7 : 8*i]` (R11). -/
def lane (w : Word) (i : Nat) : Byte := w.extractLsb' (8 * i) 8

/-- The word whose lanes 0 to 3 are the four bytes (R85). -/
def ofLanes (b0 b1 b2 b3 : Byte) : Word := b3 ++ b2 ++ b1 ++ b0

/-- Byte `i` of a byte array, 0 beyond its end, which is how the missing lanes of `F_STG6` and `F_ENC6` read (R41, R43). -/
def byteAt {n : Nat} (v : Vector Byte n) (i : Nat) : Byte := v[i]?.getD 0

/-- Word `k` of a byte array held in registers (R85). -/
def wordOf {n : Nat} (v : Vector Byte n) (k : Nat) : Word :=
  ofLanes (byteAt v (4 * k)) (byteAt v (4 * k + 1)) (byteAt v (4 * k + 2)) (byteAt v (4 * k + 3))

/-- A byte array with word `k` written (R85); lanes beyond the array's end are ignored (R41). -/
def setWord {n : Nat} (v : Vector Byte n) (k : Nat) (w : Word) : Vector Byte n :=
  Vector.ofFn fun i => if i.val / 4 = k then lane w (i.val % 4) else v[i.val]

/-- `be32` of four bytes, first byte most significant (R11). -/
def be32 (b0 b1 b2 b3 : Byte) : Word := b0 ++ b1 ++ b2 ++ b3

/-- `le64` of eight bytes, byte 0 least significant (R11). -/
def le64 (m : Vector Byte 8) : BitVec 64 := m[7] ++ m[6] ++ m[5] ++ m[4] ++ m[3] ++ m[2] ++ m[1] ++ m[0]

/-- `sint32` of a 32-bit pattern (R11). -/
def sint32 (w : Word) : Int := w.toInt

/-- `sint64` of a 64-bit pattern (R11). -/
def sint64 (w : BitVec 64) : Int := w.toInt

/-- The low word of a 64-bit register pair (R31, R32). -/
def lowWord (x : BitVec 64) : Word := x.extractLsb' 0 32

/-- The high word of a 64-bit register pair (R31, R32). -/
def highWord (x : BitVec 64) : Word := x.extractLsb' 32 32

/-- A 64-bit register pair from its two words. -/
def ofWords (hi lo : Word) : BitVec 64 := hi ++ lo

end Sys2Proof.Machine
end

