-- ==== Sys2Proof/Config.lean ====
section
/-! DEFINITION. What the block fixes (00_scope.md R7, 10_state.md R21), the defaults of its parameters (R6), and what
the spec leaves open: the keyed hash other than the default, the chaotic map, and the contents of `CBUF` after reset. An
open function is an `opaque` constant without a body, so that nothing can be proved of it beyond what its type says. -/

namespace Sys2Proof.Config

/-- `HDR_SIZE` (R7). -/
def hdrSize : Nat := 25
/-- `MAGIC`, "AETH" (R7, R116). -/
def magic : Word := 0x41455448
/-- `ID` (R21). -/
def idValue : Word := 0x41455448
/-- `VERSION` (R21). -/
def versionValue : Word := 0x00000001
/-- `SEED_MIN`, the binary64 value nearest 0.0001 (R7). -/
def seedMin : F64 := 0x3F1A36E2EB1C432D
/-- `SEED_FALLBACK`, 0.5 (R7). -/
def seedFallback : F64 := 0x3FE0000000000000
/-- `KEY_SCALE`, 255.0 in binary64 (R7, R158). -/
def keyScale : F64 := 0x406FE00000000000
/-- `+0.0`. -/
def zero : F64 := 0x0000000000000000
/-- `1.0`. -/
def one : F64 := 0x3FF0000000000000

/-- The default of `CBUF_BYTES` (R6). -/
def defaultCbufBytes : Nat := 4096
/-- The default of `ASM_CAP` (R6). -/
def defaultAsmCap : Nat := 16384

/-- The output of a keyed hash: `mixedKey[0..8)` and whatever follows. The type is R152's law "its output has at least 8
bytes". -/
structure MixedKey where
  head : Vector Byte 8
  rest : List Byte
deriving DecidableEq, Repr, Inhabited

/-- A binary64 value in `[0, 1)`, the range R153 gives the chaotic map on `[0, 1]`: a non-negative pattern below that of
1.0, or `-0.0`, whose value is 0. -/
inductive UnitValue
  | pos (k : Fin 0x3FF0000000000000)
  | negZero
deriving DecidableEq, Repr, Inhabited

/-- `KEYED_HASH` of an instance that does not take the default: any total function of the key and the message (R152, U4;
notes/assumptions/7.md). -/
opaque keyedHash : Vector Byte 32 → Vector Byte 16 → MixedKey

/-- `CHAOS_MAP` on `[0, 1]`: uninterpreted, with the range law of R153 in its type (notes/assumptions/9.md). -/
opaque chaosUnit : F64 → UnitValue

/-- `CHAOS_MAP` outside `[0, 1]`: uninterpreted, with no law (R153; notes/assumptions/9.md). -/
opaque chaosOutside : F64 → F64

/-- `CBUF` after reset: an arbitrary byte for each index, drawn anew at each reset (R46, U1; notes/assumptions/4.md). The
first argument is the number of the draw, the second the index. -/
opaque cbufFree : Nat → Nat → Byte

end Sys2Proof.Config
end

