-- ==== Sys2Proof/Machine/Float.lean ====
section
/-! DEFINITION. The binary64 operations of 00_scope.md R12 that the rules use. Every finite binary64 value is a whole multiple of
`2^-1074`; a magnitude is counted in that unit, so that every exact result is a natural number or a ratio of two, rounded
once (notes/assumptions/14.md). -/

namespace Sys2Proof.Machine.F64

/-- The exponent field, bits `[62:52]`. -/
def expField (x : F64) : Nat := x.toNat / 2 ^ 52 % 2 ^ 11

/-- The fraction field, bits `[51:0]`. -/
def fracField (x : F64) : Nat := x.toNat % 2 ^ 52

/-- NaN: all ones in the exponent field and a fraction that is not zero. -/
def isNaN (x : F64) : Bool := expField x = 2047 && fracField x ≠ 0

/-- `2^1074`: how many units of `2^-1074` make 1. -/
def unitsPerOne : Nat := 2 ^ 1074

/-- The magnitude of a finite value in units of `2^-1074`. -/
def magnitude (x : F64) : Nat :=
  if expField x = 0 then fracField x else (2 ^ 52 + fracField x) * 2 ^ (expField x - 1)

/-- A number that orders the patterns that are not NaN as their values are ordered: the pattern without its sign, counted
negative under the sign bit. The two zeros are equal. -/
def orderKey (x : F64) : Int := if x.msb then -((x.toNat % 2 ^ 63 : Nat) : Int) else ((x.toNat % 2 ^ 63 : Nat) : Int)

/-- The IEEE 754 comparison `x < y`, false on a NaN (R12). -/
def lt (x y : F64) : Bool := !isNaN x && !isNaN y && decide (orderKey x < orderKey y)

/-- The IEEE 754 comparison `x <= y`, false on a NaN (R12). -/
def le (x y : F64) : Bool := !isNaN x && !isNaN y && decide (orderKey x ≤ orderKey y)

/-- The whole number nearest `n / d`, ties to even. -/
def roundQuotient (n d : Nat) : Nat :=
  let q := n / d
  let r := n % d
  if 2 * r < d then q
  else if d < 2 * r then q + 1
  else if q % 2 = 0 then q else q + 1

/-- The pattern of `+infinity`. -/
def infinity : Nat := 0x7FF0000000000000

/-- `RNE` (R12) of the value `n / d` units of `2^-1074`, as a non-negative binary64 value. With `shift` the number of bits
by which the quotient exceeds 53, the spacing of binary64 values around it is `2^shift` units; adding the rounded
significand to the exponent carries into the next exponent by itself. -/
def rne (n d : Nat) : F64 :=
  let shift := Nat.log2 (n / d) - 52
  BitVec.ofNat 64 (min (shift * 2 ^ 52 + roundQuotient n (d * 2 ^ shift)) infinity)

/-- A value with a sign put on it. -/
def withSign (negative : Bool) (x : F64) : F64 := if negative then x ||| 0x8000000000000000 else x

/-- `toF64(n)` of a natural number (R12). -/
def ofNat : Nat → F64
  | 0 => Config.zero
  | n + 1 => rne ((n + 1) * unitsPerOne) 1

/-- The IEEE 754 product of two finite values (R12). -/
def mul (x y : F64) : F64 := withSign (x.msb != y.msb) (rne (magnitude x * magnitude y) unitsPerOne)

/-- The IEEE 754 quotient of two finite values, the second not zero (R12). -/
def div (x y : F64) : F64 := withSign (x.msb != y.msb) (rne (magnitude x * unitsPerOne) (magnitude y))

/-- `floor(x)` of a finite value (R12). -/
def floor (x : F64) : Int := (if x.msb then -(magnitude x : Int) else (magnitude x : Int)) / (unitsPerOne : Int)

/-- `0 <= x <= 1`, the values a chaos state can take (R45, R153). -/
def inClosedUnit (x : F64) : Bool := le Config.zero x && le x Config.one

/-- `0 <= x < 1`, the range of the chaotic map (R153). -/
def inUnit (x : F64) : Bool := le Config.zero x && lt x Config.one

end Sys2Proof.Machine.F64
end

