-- ==== Sys2Proof/Machine/Sha256.lean ====
section
/-! DEFINITION. HMAC-SHA-256, the default of the parameter KEYED_HASH (40_keystream.md R152). SHA-256 itself is FIPS 180-4's,
which the spec names and does not define (notes/assumptions/8.md). -/

namespace Sys2Proof.Machine.Sha256

/-! The constants are not listed: they are computed as FIPS 180-4 defines them, from roots of the first primes. -/

/-- `r` with its next `n` binary digits set as high as `r ^ e ≤ bound` allows, the highest digit first. -/
def rootDigits (e bound : Nat) : Nat → Nat → Nat
  | 0, r => r
  | n + 1, r => rootDigits e bound n (if (r + 2 ^ n) ^ e ≤ bound then r + 2 ^ n else r)

/-- The first 32 bits of the fractional part of the `e`-th root of a number below `2 ^ (3 e)`: the root in units of `2^-32`,
its whole part dropped. -/
def rootFraction (e p : Nat) : Word := BitVec.ofNat 32 (rootDigits e (p * 2 ^ (32 * e)) 35 0)

/-- The first 64 primes. -/
def primes : List Nat :=
  [2, 3, 5, 7, 11, 13, 17, 19, 23, 29, 31, 37, 41, 43, 47, 53] ++
  [59, 61, 67, 71, 73, 79, 83, 89, 97, 101, 103, 107, 109, 113, 127, 131] ++
  [137, 139, 149, 151, 157, 163, 167, 173, 179, 181, 191, 193, 197, 199, 211, 223] ++
  [227, 229, 233, 239, 241, 251, 257, 263, 269, 271, 277, 281, 283, 293, 307, 311]

/-- The round constants: from the cube roots of the first 64 primes. -/
def roundConstants : List Word := primes.map (rootFraction 3)

/-- The eight working variables, and the hash value between blocks. -/
structure Digest where
  a : Word
  b : Word
  c : Word
  d : Word
  e : Word
  f : Word
  g : Word
  h : Word
deriving DecidableEq, Repr

/-- The initial hash value: from the square roots of the first eight primes. -/
def initial : Digest :=
  { a := rootFraction 2 2, b := rootFraction 2 3, c := rootFraction 2 5, d := rootFraction 2 7
    e := rootFraction 2 11, f := rootFraction 2 13, g := rootFraction 2 17, h := rootFraction 2 19 }

def bigSigma0 (x : Word) : Word := x.rotateRight 2 ^^^ x.rotateRight 13 ^^^ x.rotateRight 22
def bigSigma1 (x : Word) : Word := x.rotateRight 6 ^^^ x.rotateRight 11 ^^^ x.rotateRight 25
def smallSigma0 (x : Word) : Word := x.rotateRight 7 ^^^ x.rotateRight 18 ^^^ (x >>> 3)
def smallSigma1 (x : Word) : Word := x.rotateRight 17 ^^^ x.rotateRight 19 ^^^ (x >>> 10)
def choose (x y z : Word) : Word := (x &&& y) ^^^ (~~~x &&& z)
def majority (x y z : Word) : Word := (x &&& y) ^^^ (x &&& z) ^^^ (y &&& z)

/-- The message words from a window of the last sixteen: each step emits the oldest and appends the next. -/
def schedule : Nat → List Word → List Word
  | 0, _ => []
  | _ + 1, [] => []
  | n + 1, w :: ws =>
    w :: schedule n (ws ++ [smallSigma1 (ws.getD 13 0) + ws.getD 8 0 + smallSigma0 (ws.getD 0 0) + w])

/-- One round, with its constant and its message word. -/
def round (s : Digest) (k w : Word) : Digest :=
  let t1 := s.h + bigSigma1 s.e + choose s.e s.f s.g + k + w
  let t2 := bigSigma0 s.a + majority s.a s.b s.c
  ⟨t1 + t2, s.a, s.b, s.c, s.d + t1, s.e, s.f, s.g⟩

/-- The rounds of one block. -/
def rounds : List (Word × Word) → Digest → Digest
  | [], s => s
  | (k, w) :: rest, s => rounds rest (round s k w)

/-- The hash value after one block of sixteen words. -/
def compress (s : Digest) (block : List Word) : Digest :=
  let t := rounds (roundConstants.zip (schedule 64 block)) s
  ⟨s.a + t.a, s.b + t.b, s.c + t.c, s.d + t.d, s.e + t.e, s.f + t.f, s.g + t.g, s.h + t.h⟩

/-- Big-endian words of a byte sequence whose length is a multiple of 4. -/
def words : List Byte → List Word
  | b0 :: b1 :: b2 :: b3 :: rest => (b0 ++ b1 ++ b2 ++ b3 : Word) :: words rest
  | _ => []

/-- The bytes of a word, most significant first. -/
def wordBytes (w : Word) : List Byte :=
  [w.extractLsb' 24 8, w.extractLsb' 16 8, w.extractLsb' 8 8, w.extractLsb' 0 8]

/-- The padded message: a bit 1, zeros, and the length in bits as 64 bits big-endian. -/
def padded (m : List Byte) : List Byte :=
  let bits : BitVec 64 := BitVec.ofNat 64 (8 * m.length)
  m ++ [0x80] ++ List.replicate ((119 - m.length % 64) % 64) 0 ++
    wordBytes (bits.extractLsb' 32 32) ++ wordBytes (bits.extractLsb' 0 32)

/-- The hash value after a number of blocks. -/
def blocks : Nat → List Word → Digest → Digest
  | 0, _, s => s
  | n + 1, ws, s => blocks n (ws.drop 16) (compress s (ws.take 16))

/-- The bytes of a hash value. -/
def Digest.bytes (s : Digest) : List Byte :=
  wordBytes s.a ++ wordBytes s.b ++ wordBytes s.c ++ wordBytes s.d ++
  wordBytes s.e ++ wordBytes s.f ++ wordBytes s.g ++ wordBytes s.h

/-- SHA-256 of a byte sequence. -/
def sha256 (m : List Byte) : List Byte :=
  let p := padded m
  (blocks (p.length / 64) (words p) initial).bytes

/-- HMAC-SHA-256 as R152 writes it, for a 32-byte key: `K0 = K ++ 32 zero bytes`. -/
def hmac (key : List Byte) (message : List Byte) : List Byte :=
  let k0 := key ++ List.replicate 32 0
  sha256 (k0.map (· ^^^ 0x5C) ++ sha256 (k0.map (· ^^^ 0x36) ++ message))

/-- The default keyed hash (R152): all 32 bytes of the output, the first eight apart. -/
def keyedHash (key : Vector Byte 32) (message : Vector Byte 16) : Config.MixedKey :=
  let out := hmac key.toList message.toList
  { head := Vector.ofFn fun i => out.getD i.val 0, rest := out.drop 8 }

end Sys2Proof.Machine.Sha256
end

