-- ==== Sys2Proof/Machine/State.lean ====
section
/-! DEFINITION. The state of 10_state.md R20 as plain data, and its value after reset (R46). Beside the block's own state it
holds the parameters of the instance (00_scope.md R6), the host's accesses still to be issued (R10), and the bus's answer to
the last one (20_memory.md R82). -/

namespace Sys2Proof.Machine

/-- Why the machine stops with a fault. -/
inductive Fault
  /-- Raised by every access to a unit whose `BUSY` is 1, other than a read of its status register: "a model must treat it
  as a fault of the host program" (70_reset_and_hazards.md R350, U2). Safe: no step makes `BUSY` 1 (R44), so no run from
  reset raises it (notes/assumptions/11.md). -/
  | accessWhileBusy
deriving DecidableEq, Repr

/-- Why the model has no next state. -/
inductive Refusal
  /-- Raised by an arm of `exec` whose instruction has no meaning yet. Safe: nothing follows from it. -/
  | notModelled (mnemonic : String)
  /-- Raised by C.APPLY, C.CONT and C.KSSTART when a chaos value is outside `[0, 1)`: "a model of such a configuration must
  refuse it rather than pick a byte" (R352, U3). Safe: nothing follows from it (notes/assumptions/10.md). -/
  | chaosOutOfRange
deriving DecidableEq, Repr

/-- Which keyed hash the instance has (00_scope.md R6, 40_keystream.md R152). -/
inductive HashChoice
  /-- The default. -/
  | hmacSha256
  /-- Any other one: `Config.keyedHash`. -/
  | other
deriving DecidableEq, Repr

/-- The parameters of 00_scope.md R6 that are data. No step changes them. -/
structure Params where
  /-- `CBUF_BYTES`, read in `CBUF_SIZE`. -/
  cbufBytes : Nat
  /-- `ASM_CAP`, read in `ASM_SIZE`. -/
  asmCap : Nat
  /-- `BLOCK_BASE`. -/
  blockBase : Nat
  /-- `KEYED_HASH`. -/
  keyedHash : HashChoice
deriving DecidableEq, Repr

/-- The outcome codes of R29, "no other value is ever written". -/
inductive CResult
  | ok | noKey | badLen | noSeed | badSeed | illegalCmd
deriving DecidableEq, Repr

/-- The outcome codes of R37, "no other value is ever written". -/
inductive FResult
  | ok | packet | needHeader | needPayload | invalidMagic | invalidLength | failed | noPacket | illegalCmd | overflow
deriving DecidableEq, Repr

/-- The sticky error bits `C_STATUS[12:8]` (R27). -/
structure CErrs where
  noKey : Bool
  len : Bool
  cmd : Bool
  noSeed : Bool
  seed : Bool
deriving DecidableEq, Repr

/-- The sticky error bits `F_STATUS[12:8]` (R36). -/
structure FErrs where
  magic : Bool
  length : Bool
  cmd : Bool
  noPkt : Bool
  ovf : Bool
deriving DecidableEq, Repr

/-- The cipher unit (R20, R24 to R35). -/
structure CipherUnit where
  /-- `C_KEY` (R24). -/
  key : Vector Byte 32
  /-- `KEY_VALID` (R25). -/
  keyValid : Bool
  /-- `C_NONCE` (R26). -/
  nonce : Vector Byte 16
  /-- `C_LEN` (R30). -/
  len : Word
  /-- `C_SEED` (R31). -/
  seed : F64
  /-- `C_X` (R32). -/
  x : F64
  /-- `C_MIX` (R33). -/
  mix : Vector Byte 8
  /-- `C_COUNT` (R34). -/
  count : Word
  /-- `SEEDED` (R27). -/
  seeded : Bool
  /-- `FALLBACK` (R27). -/
  fallback : Bool
  /-- `BUSY` of `C_STATUS` (R27, R44). -/
  busy : Bool
  /-- The sticky bits (R27, R28). -/
  errs : CErrs
  /-- `C_RESULT` (R29). -/
  result : CResult
  /-- `CBUF` (R35): the bytes written since reset, by index, in rising order; an unlisted index holds what
  `Config.cbufFree draw` gives it (notes/assumptions/5.md). -/
  cbuf : List Host.Cell
  /-- The model's own: which draw of unspecified `CBUF` contents is in force (R46, notes/assumptions/4.md). -/
  draw : Nat
deriving DecidableEq, Repr

/-- The framer unit (R20, R36 to R43). -/
structure FramerUnit where
  /-- `ASM`, oldest byte first; `ASM_LEN` is its length (R38). -/
  asm : List Byte
  /-- `PKT_VALID` (R36). -/
  pktValid : Bool
  /-- `HDR_VALID` (R36). -/
  hdrValid : Bool
  /-- `FAILED` (R36, R240). -/
  failed : Bool
  /-- `OVERSIZE` (R36, R237). -/
  oversize : Bool
  /-- `BUSY` of `F_STATUS` (R36, R44). -/
  busy : Bool
  /-- The sticky bits (R36, R28). -/
  errs : FErrs
  /-- `F_RESULT` (R37). -/
  result : FResult
  /-- `F_NEED` (R39). -/
  need : Word
  /-- `F_TOTAL` (R39). -/
  total : Word
  /-- `F_MAGIC` (R40). -/
  magic : Word
  /-- `F_TYPE` (R40). -/
  ptype : Byte
  /-- `F_PLEN` (R40). -/
  plen : Word
  /-- `F_NONCE` (R40). -/
  nonce : Vector Byte 16
  /-- `STG` (R41). -/
  stg : Vector Byte 25
  /-- `F_STGLEN` (R41). -/
  stgLen : Word
  /-- `E_TYPE` (R42). -/
  eType : Byte
  /-- `E_PLEN` (R42). -/
  ePlen : Word
  /-- `E_NONCE` (R42). -/
  eNonce : Vector Byte 16
  /-- `ENC` (R43). -/
  enc : Vector Byte 25
deriving DecidableEq, Repr

/-- What the bus answered to the last access (R82, R260; notes/assumptions/2.md). -/
inductive Response
  /-- No access yet. -/
  | idle
  /-- A read returned this word. -/
  | data (w : Word)
  /-- A write was accepted. -/
  | written
  /-- The bus error of R82. -/
  | busError
deriving DecidableEq, Repr

structure State where
  /-- The parameters of the instance. -/
  params : Params
  /-- The cipher unit. -/
  c : CipherUnit
  /-- The framer unit. -/
  f : FramerUnit
  /-- The host's accesses still to be issued, oldest first (notes/assumptions/1.md). -/
  pending : List Access
  /-- The answer to the last access. -/
  response : Response
deriving DecidableEq, Repr

/-- The defaults of R6; `BLOCK_BASE` is open and taken as 0 (notes/assumptions/6.md). -/
def Params.default : Params :=
  { cbufBytes := Config.defaultCbufBytes, asmCap := Config.defaultAsmCap, blockBase := 0, keyedHash := .hmacSha256 }

/-- The cipher unit after reset (R46), with a given draw of the unspecified `CBUF` bytes. -/
def CipherUnit.reset (draw : Nat) : CipherUnit :=
  { key := Vector.replicate 32 0, keyValid := false, nonce := Vector.replicate 16 0, len := 0, seed := Config.zero,
    x := Config.zero, mix := Vector.replicate 8 0, count := 0, seeded := false, fallback := false, busy := false,
    errs := { noKey := false, len := false, cmd := false, noSeed := false, seed := false }, result := .ok, cbuf := [],
    draw := draw }

/-- The framer unit after reset (R46). -/
def FramerUnit.reset : FramerUnit :=
  { asm := [], pktValid := false, hdrValid := false, failed := false, oversize := false, busy := false,
    errs := { magic := false, length := false, cmd := false, noPkt := false, ovf := false }, result := .ok, need := 0,
    total := 0, magic := 0, ptype := 0, plen := 0, nonce := Vector.replicate 16 0, stg := Vector.replicate 25 0, stgLen := 0,
    eType := 0, ePlen := 0, eNonce := Vector.replicate 16 0, enc := Vector.replicate 25 0 }

/-- The machine right after power-on (70_reset_and_hazards.md R340, 10_state.md R46): both units reset, no access pending. -/
def State.reset : State :=
  { params := Params.default, c := CipherUnit.reset 0, f := FramerUnit.reset, pending := [], response := .idle }

end Sys2Proof.Machine
end

