-- ==== Sys2Proof/Machine/Keystream.lean ====
section
/-! DEFINITION. The pure functions of 40_keystream.md: the keyed hash of the instance (R151, R152), the seed (R154 to R156), the
chaotic map (R153), the keystream (R157) and the key byte (R158). -/

namespace Sys2Proof.Machine

/-- `KEYED_HASH` of an instance (R151, R152). -/
def keyedHash : HashChoice → Vector Byte 32 → Vector Byte 16 → Config.MixedKey
  | .hmacSha256, key, message => Sha256.keyedHash key message
  | .other, key, message => Config.keyedHash key message

/-- The binary64 pattern of a value in `[0, 1)`. -/
def unitPattern : Config.UnitValue → F64
  | .pos k => BitVec.ofNat 64 k.val
  | .negZero => 0x8000000000000000

/-- `CHAOS_MAP` (R153): total on binary64, with its range law on `[0, 1]`. -/
def chaosMap (x : F64) : F64 :=
  if F64.inClosedUnit x then unitPattern (Config.chaosUnit x) else Config.chaosOutside x

/-- The seed integer (R154). -/
def seedInteger (m8 : Vector Byte 8) : Int := sint64 (le64 m8)

/-- The seed before the fallback: `toF64(a) / toF64(2^63 - 1)` (R155). -/
def normalise (a : Nat) : F64 := F64.div (F64.ofNat a) (F64.ofNat (2 ^ 63 - 1))

/-- The fallback flag of `SeedOf` (R155): the seed was below `SEED_MIN`. -/
def seedReplaced (m8 : Vector Byte 8) : Bool := F64.lt (normalise (seedInteger m8).natAbs) Config.seedMin

/-- The seed of `SeedOf` (R155), a seed below `SEED_MIN` replaced by the fallback. -/
def seedValue (m8 : Vector Byte 8) : F64 :=
  if seedReplaced m8 then Config.seedFallback else normalise (seedInteger m8).natAbs

/-- `SeedOf` (R155): the seed and the fallback flag. -/
def seedOf (m8 : Vector Byte 8) : F64 × Bool := (seedValue m8, seedReplaced m8)

/-- `KeyByte` (R158). -/
def keyByte (x : F64) : Byte := BitVec.ofInt 8 (F64.floor (F64.mul x Config.keyScale))

/-- `KS(x, L)` (R157) under a map: the `L` key bytes and the final state. `none` when a value falls outside `[0, 1)`, where R352
defines no key byte (notes/assumptions/10.md). -/
def keystream (map : F64 → F64) : F64 → Nat → Option (List Byte × F64)
  | x, 0 => some ([], x)
  | x, n + 1 =>
    let y := map x
    if F64.inUnit y then
      (keystream map y n).map fun r => (keyByte y :: r.1, r.2)
    else none

/-- `C_SEED` is one the generator may start from: `SEED_MIN <= s <= 1.0` (R179). -/
def seedInRange (s : F64) : Bool := F64.le Config.seedMin s && F64.le s Config.one

end Sys2Proof.Machine
end

