-- ==== Sys2Proof/Machine/Ops.lean ====
section
/-! DEFINITION. The operations the meanings share: the byte store `CBUF` (10_state.md R35), taking a refusal (60_exceptions.md
R306, the block's analogue of taking an exception), the bus's answers (20_memory.md R82), and running an operation on one
unit (00_scope.md R9, 70_reset_and_hazards.md R350). -/

namespace Sys2Proof.Machine

/-! ### The byte store -/

namespace Cells

/-- The value listed for an index. -/
def find? : List Host.Cell → Nat → Option Byte
  | [], _ => none
  | (b, v) :: rest, a => if a = b then some v else find? rest a

/-- The list with a value at an index, kept in rising order. -/
def insert : List Host.Cell → Nat → Byte → List Host.Cell
  | [], a, v => [(a, v)]
  | (b, w) :: rest, a, v =>
    if a < b then (a, v) :: (b, w) :: rest
    else if a = b then (a, v) :: rest
    else (b, w) :: insert rest a v

/-- Every index of the list is above `a`, and the list rises. -/
def risesFrom : Nat → List Host.Cell → Bool
  | _, [] => true
  | a, (b, _) :: rest => decide (a < b) && risesFrom b rest

/-- The canonical form: indexes strictly rising. An unlisted index has no value of its own, so no entry repeats one
(notes/assumptions/5.md). -/
def wf : List Host.Cell → Bool
  | [] => true
  | (b, _) :: rest => risesFrom b rest

/-- Every index is below a bound. -/
def below (bound : Nat) (m : List Host.Cell) : Bool := m.all fun cell => decide (cell.1 < bound)

end Cells

/-- `CBUF[i]` read: the byte written there since reset, else the unspecified byte of the draw in force (R46, U1). -/
def CipherUnit.byte (u : CipherUnit) (i : Nat) : Byte := (Cells.find? u.cbuf i).getD (Config.cbufFree u.draw i)

/-- `CBUF[i] <- v`. -/
def CipherUnit.setByte (u : CipherUnit) (i : Nat) (v : Byte) : CipherUnit := { u with cbuf := Cells.insert u.cbuf i v }

/-- `CBUF[i..i + len(k)) <- XorBytes(CBUF[i..i + len(k)), k)` (R159). -/
def CipherUnit.xorFrom (u : CipherUnit) : Nat → List Byte → CipherUnit
  | _, [] => u
  | i, k :: ks => (u.setByte i (u.byte i ^^^ k)).xorFrom (i + 1) ks

/-- Word `w` of the `CBUF` window (R88): zero beyond `CBUF_BYTES`. -/
def CipherUnit.windowWord (u : CipherUnit) (cbufBytes w : Nat) : Word :=
  if 4 * w < cbufBytes then ofLanes (u.byte (4 * w)) (u.byte (4 * w + 1)) (u.byte (4 * w + 2)) (u.byte (4 * w + 3)) else 0

/-- A write of word `w` of the `CBUF` window (R88): ignored beyond `CBUF_BYTES`. -/
def CipherUnit.setWindowWord (u : CipherUnit) (cbufBytes w : Nat) (d : Word) : CipherUnit :=
  if 4 * w < cbufBytes then
    (((u.setByte (4 * w) (lane d 0)).setByte (4 * w + 1) (lane d 1)).setByte (4 * w + 2) (lane d 2)).setByte
      (4 * w + 3) (lane d 3)
  else u

/-- Word `w` of the `F_WIN` window (R89): `ASM` from its head, zero beyond `ASM_LEN`. -/
def FramerUnit.windowWord (u : FramerUnit) (w : Nat) : Word :=
  ofLanes (u.asm.getD (4 * w) 0) (u.asm.getD (4 * w + 1) 0) (u.asm.getD (4 * w + 2) 0) (u.asm.getD (4 * w + 3) 0)

/-- `ASM_LEN` (R38). -/
def FramerUnit.asmLen (u : FramerUnit) : Nat := u.asm.length

/-! ### Refusals: the block's analogue of an exception (R300, R306) -/

/-- Taking a refusal in the cipher unit: the result code and one sticky bit are written, and nothing else (R170, R306). The
sticky bits already set stay set (R28). -/
def CipherUnit.refuse (u : CipherUnit) (setBit : CErrs → CErrs) (code : CResult) : CipherUnit :=
  { u with errs := setBit u.errs, result := code }

/-- Taking a refusal in the framer unit (R222, R306). -/
def FramerUnit.refuse (u : FramerUnit) (setBit : FErrs → FErrs) (code : FResult) : FramerUnit :=
  { u with errs := setBit u.errs, result := code }

/-- A framing failure: a refusal that also enters the `FAILED` state (R226, R240). -/
def FramerUnit.fail (u : FramerUnit) (setBit : FErrs → FErrs) (code : FResult) : FramerUnit :=
  { u.refuse setBit code with failed := true, need := 0 }

/-- The parse outcome cleared: no packet, no header, nothing needed (R203, R227, R228, R236). -/
def FramerUnit.clearParse (u : FramerUnit) : FramerUnit :=
  { u with pktValid := false, hdrValid := false, oversize := false, need := 0, total := 0 }

/-! ### The state -/

/-- The state with another cipher unit. -/
def State.setC (s : State) (u : CipherUnit) : State := { s with c := u }

/-- The state with another framer unit. -/
def State.setF (s : State) (u : FramerUnit) : State := { s with f := u }

/-- The bus's answer to the access. -/
def State.respond (s : State) (r : Response) : State := { s with response := r }

/-- A bus error: the access has no effect on any state of the block (R82, R13). -/
def busError (s : State) : Host.Outcome State Fault Refusal := .next (s.respond .busError)

/-- An operation of the cipher unit, as one atomic step (R9): a fault of the host program while the unit is busy (R350), a
refused configuration where the operation has no result (R352), else the unit it gives and the write accepted. -/
def runC (s : State) (op : CipherUnit → Option CipherUnit) : Host.Outcome State Fault Refusal :=
  if s.c.busy then .fault .accessWhileBusy
  else match op s.c with
    | some u => .next ((s.setC u).respond .written)
    | none => .refused .chaosOutOfRange

/-- An operation of the framer unit, as one atomic step (R9, R350). -/
def runF (s : State) (op : FramerUnit → FramerUnit) : Host.Outcome State Fault Refusal :=
  if s.f.busy then .fault .accessWhileBusy else .next ((s.setF (op s.f)).respond .written)

/-- An accepted write that changes nothing in the block: an RO or reserved register (R83, R84). -/
def ignoredWrite (s : State) : Host.Outcome State Fault Refusal := .next (s.respond .written)

/-- The unit that owns a register is busy (R350). -/
def ownerBusy (s : State) (r : Reg) : Bool :=
  match r.owner with
  | .system => false
  | .cipher => s.c.busy
  | .framer => s.f.busy

end Sys2Proof.Machine
end

