-- ==== Sys2Proof/Machine/Flags.lean ====
section
/-! DEFINITION. The status registers and the result codes: `C_STATUS` and `F_STATUS` as words (10_state.md R27, R36), their
sticky bits, how each is set and cleared (R28), and the codes of R29 and R37. -/

namespace Sys2Proof.Machine

/-- A word with bit `i` equal to `b` and every other bit 0. -/
def bitAt (b : Bool) (i : Nat) : Word := if b then (1 : Word) <<< i else 0

/-- `C_STATUS` (R27): reserved bits read 0. -/
def CipherUnit.status (u : CipherUnit) : Word :=
  bitAt u.busy 0 ||| bitAt u.keyValid 1 ||| bitAt u.seeded 2 ||| bitAt u.fallback 3 |||
  bitAt u.errs.noKey 8 ||| bitAt u.errs.len 9 ||| bitAt u.errs.cmd 10 ||| bitAt u.errs.noSeed 11 ||| bitAt u.errs.seed 12

/-- `F_STATUS` (R36): reserved bits read 0. -/
def FramerUnit.status (u : FramerUnit) : Word :=
  bitAt u.busy 0 ||| bitAt u.pktValid 1 ||| bitAt u.hdrValid 2 ||| bitAt u.failed 3 ||| bitAt u.oversize 4 |||
  bitAt u.errs.magic 8 ||| bitAt u.errs.length 9 ||| bitAt u.errs.cmd 10 ||| bitAt u.errs.noPkt 11 ||| bitAt u.errs.ovf 12

/-- `C_RESULT` as its code (R29). -/
def CResult.code : CResult → Byte
  | .ok => 0
  | .noKey => 1
  | .badLen => 2
  | .noSeed => 3
  | .badSeed => 4
  | .illegalCmd => 8

/-- `F_RESULT` as its code (R37). -/
def FResult.code : FResult → Byte
  | .ok => 0
  | .packet => 1
  | .needHeader => 2
  | .needPayload => 3
  | .invalidMagic => 4
  | .invalidLength => 5
  | .failed => 6
  | .noPacket => 7
  | .illegalCmd => 8
  | .overflow => 9

/-- `set ERR_NOKEY` (R13, R27). -/
def CErrs.setNoKey (e : CErrs) : CErrs := { e with noKey := true }
/-- `set ERR_LEN`. -/
def CErrs.setLen (e : CErrs) : CErrs := { e with len := true }
/-- `set ERR_CMD`. -/
def CErrs.setCmd (e : CErrs) : CErrs := { e with cmd := true }
/-- `set ERR_NOSEED`. -/
def CErrs.setNoSeed (e : CErrs) : CErrs := { e with noSeed := true }
/-- `set ERR_SEED`. -/
def CErrs.setSeed (e : CErrs) : CErrs := { e with seed := true }

/-- `set ERR_MAGIC` (R13, R36). -/
def FErrs.setMagic (e : FErrs) : FErrs := { e with magic := true }
/-- `set ERR_LENGTH`. -/
def FErrs.setLength (e : FErrs) : FErrs := { e with length := true }
/-- `set ERR_CMD`. -/
def FErrs.setCmd (e : FErrs) : FErrs := { e with cmd := true }
/-- `set ERR_NOPKT`. -/
def FErrs.setNoPkt (e : FErrs) : FErrs := { e with noPkt := true }
/-- `set ERR_OVF`. -/
def FErrs.setOvf (e : FErrs) : FErrs := { e with ovf := true }

/-- A write of `w` to `C_STATUS` on the sticky bits: each bit whose data bit is 1 is cleared (R28). -/
def CErrs.clear (e : CErrs) (w : Word) : CErrs :=
  { noKey := e.noKey && !w.getLsbD 8, len := e.len && !w.getLsbD 9, cmd := e.cmd && !w.getLsbD 10,
    noSeed := e.noSeed && !w.getLsbD 11, seed := e.seed && !w.getLsbD 12 }

/-- A write of `w` to `F_STATUS` on the sticky bits (R28). -/
def FErrs.clear (e : FErrs) (w : Word) : FErrs :=
  { magic := e.magic && !w.getLsbD 8, length := e.length && !w.getLsbD 9, cmd := e.cmd && !w.getLsbD 10,
    noPkt := e.noPkt && !w.getLsbD 11, ovf := e.ovf && !w.getLsbD 12 }

/-- The write to `C_STATUS` (R28): the recovery from a recorded error (60_exceptions.md R307). -/
def CipherUnit.writeStatus (u : CipherUnit) (w : Word) : CipherUnit := { u with errs := u.errs.clear w }

/-- The write to `F_STATUS` (R28). -/
def FramerUnit.writeStatus (u : FramerUnit) (w : Word) : FramerUnit := { u with errs := u.errs.clear w }

end Sys2Proof.Machine
end

