-- ==== Sys2Proof/Machine/Operands.lean ====
section
/-! DEFINITION. Reading and writing what an offset names: the value of a read (`ReadValue` of 44_system.md R260) and the store
of a plain write to an RW register or window (R261), by the register rules of 10_state.md and the window rules of
20_memory.md R88 and R89. -/

namespace Sys2Proof.Machine

/-- `ReadValue` (R260): the register's content (RO, RW), 0 (WO, reserved), or the window bytes. -/
def readValue (s : State) : Reg → Word
  | .id => Config.idValue
  | .version => Config.versionValue
  | .cbufSize => BitVec.ofNat 32 s.params.cbufBytes
  | .asmSize => BitVec.ofNat 32 s.params.asmCap
  | .sysReset | .cCmd | .cKey _ | .fCmd | .fPush8 | .fPush32 | .reserved => 0
  | .cStatus => s.c.status
  | .cResult => s.c.result.code.setWidth 32
  | .cLen => s.c.len
  | .cSeedLo => lowWord s.c.seed
  | .cSeedHi => highWord s.c.seed
  | .cXLo => lowWord s.c.x
  | .cXHi => highWord s.c.x
  | .cMixLo => wordOf s.c.mix 0
  | .cMixHi => wordOf s.c.mix 1
  | .cCount => s.c.count
  | .cNonce k => wordOf s.c.nonce k.val
  | .fStatus => s.f.status
  | .fResult => s.f.result.code.setWidth 32
  | .fAsmLen => BitVec.ofNat 32 s.f.asmLen
  | .fFree => BitVec.ofNat 32 (s.params.asmCap - s.f.asmLen)
  | .fNeed => s.f.need
  | .fType => s.f.ptype.setWidth 32
  | .fPlen => s.f.plen
  | .fTotal => s.f.total
  | .fMagic => s.f.magic
  | .fNonce k => wordOf s.f.nonce k.val
  | .fStg k => wordOf s.f.stg k.val
  | .fStgLen => s.f.stgLen
  | .eType => s.f.eType.setWidth 32
  | .ePlen => s.f.ePlen
  | .eNonce k => wordOf s.f.eNonce k.val
  | .fEnc k => wordOf s.f.enc k.val
  | .cbufWord i => s.c.windowWord s.params.cbufBytes i
  | .fWinWord i => s.f.windowWord i

/-- The plain writes of the cipher unit: `C_LEN`, `C_SEED`, `C_NONCE` and the `CBUF` window store, `C_STATUS` clears (R181,
R28); every other cipher register ignores a plain write (R84). -/
def CipherUnit.store (u : CipherUnit) (cbufBytes : Nat) (r : Reg) (w : Word) : CipherUnit :=
  match r with
  | .cStatus => u.writeStatus w
  | .cLen => { u with len := w }
  | .cSeedLo => { u with seed := ofWords (highWord u.seed) w }
  | .cSeedHi => { u with seed := ofWords w (lowWord u.seed) }
  | .cNonce k => { u with nonce := setWord u.nonce k.val w }
  | .cbufWord i => u.setWindowWord cbufBytes i w
  | _ => u

/-- The plain writes of the framer unit: `STG`, `F_STGLEN` and the encode inputs store, `F_STATUS` clears (R204, R28);
every other framer register ignores a plain write (R84). -/
def FramerUnit.store (u : FramerUnit) (r : Reg) (w : Word) : FramerUnit :=
  match r with
  | .fStatus => u.writeStatus w
  | .fStg k => { u with stg := setWord u.stg k.val w }
  | .fStgLen => { u with stgLen := w }
  | .eType => { u with eType := lane w 0 }
  | .ePlen => { u with ePlen := w }
  | .eNonce k => { u with eNonce := setWord u.eNonce k.val w }
  | _ => u

end Sys2Proof.Machine
end

