-- ==== Sys2Proof/Machine/Cipher.lean ====
section
/-! DEFINITION. The cipher-unit commands, 41_cipher.md. Each operation of the unit stands first, over the functions of
40_keystream.md; the meaning of the instruction runs it as one step. -/

namespace Sys2Proof.Machine

/-- `LenOK` (R172). -/
def CipherUnit.lenOk (u : CipherUnit) (p : Params) : Bool := decide (u.len.toNat ≤ p.cbufBytes)

/-- The transform of R177 to R179: `CBUF[0..C_LEN)` XORed with the keystream from `x`, with the final state in `C_X`, and
`count` keystream values before it. `none` where R352 refuses the configuration. -/
def CipherUnit.transform (u : CipherUnit) (map : F64 → F64) (x : F64) (count : Word) : Option CipherUnit :=
  (keystream map x u.len.toNat).map fun (k, xl) => { u.xorFrom 0 k with x := xl, count := count + u.len }

/-- A seed taken from the keyed hash of the nonce under the secret (R176, R177): `C_MIX`, `C_SEED`, `C_X`, `C_COUNT`,
`SEEDED`, `FALLBACK`. -/
def CipherUnit.takeSeed (u : CipherUnit) (hash : Vector Byte 32 → Vector Byte 16 → Config.MixedKey) : CipherUnit :=
  let m8 := (hash u.key u.nonce).head
  { u with mix := m8, seed := seedValue m8, x := seedValue m8, count := 0, seeded := true, fallback := seedReplaced m8 }

/-- `C.KEYWR` (R171). -/
def CipherUnit.writeKey (u : CipherUnit) (k : Nat) (w : Word) : CipherUnit :=
  { u with key := setWord u.key k w, keyValid := false }

/-- `C.KEYSET` (R174). -/
def CipherUnit.setKey (u : CipherUnit) : CipherUnit := { u with keyValid := true, result := .ok }

/-- `C.KEYCLR` (R175). -/
def CipherUnit.clearKey (u : CipherUnit) : CipherUnit :=
  { u with
    key := Vector.replicate 32 0, keyValid := false, seed := Config.zero, x := Config.zero, mix := Vector.replicate 8 0,
    count := 0, seeded := false, fallback := false, result := .ok }

/-- `C.SEED` (R176) under a keyed hash. -/
def CipherUnit.deriveSeed (u : CipherUnit) (hash : Vector Byte 32 → Vector Byte 16 → Config.MixedKey) : CipherUnit :=
  if !u.keyValid then u.refuse CErrs.setNoKey .noKey
  else { u.takeSeed hash with result := .ok }

/-- `C.APPLY` (R177) under a keyed hash and a chaotic map. -/
def CipherUnit.apply (u : CipherUnit) (p : Params) (hash : Vector Byte 32 → Vector Byte 16 → Config.MixedKey)
    (map : F64 → F64) : Option CipherUnit :=
  if !u.keyValid then some (u.refuse CErrs.setNoKey .noKey)
  else if !u.lenOk p then some (u.refuse CErrs.setLen .badLen)
  else
    let v := u.takeSeed hash
    (v.transform map v.seed 0).map fun t => { t with result := .ok }

/-- `C.CONT` (R178) under a chaotic map. -/
def CipherUnit.continueFrom (u : CipherUnit) (p : Params) (map : F64 → F64) : Option CipherUnit :=
  if !u.seeded then some (u.refuse CErrs.setNoSeed .noSeed)
  else if !u.lenOk p then some (u.refuse CErrs.setLen .badLen)
  else (u.transform map u.x u.count).map fun t => { t with result := .ok }

/-- `C.KSSTART` (R179) under a chaotic map. -/
def CipherUnit.start (u : CipherUnit) (p : Params) (map : F64 → F64) : Option CipherUnit :=
  if !seedInRange u.seed then some (u.refuse CErrs.setSeed .badSeed)
  else if !u.lenOk p then some (u.refuse CErrs.setLen .badLen)
  else (u.transform map u.seed 0).map fun t => { t with seeded := true, fallback := false, result := .ok }

/-- An illegal cipher command (R180). -/
def CipherUnit.illegal (u : CipherUnit) : CipherUnit := u.refuse CErrs.setCmd .illegalCmd

/-- C.NOP (R173): no register changes, `C_RESULT` included. -/
def execCNop (s : State) : Host.Outcome State Fault Refusal := runC s fun u => some u

/-- C.KEYSET (R174). -/
def execCKeyset (s : State) : Host.Outcome State Fault Refusal := runC s fun u => some u.setKey

/-- C.KEYCLR (R175). -/
def execCKeyclr (s : State) : Host.Outcome State Fault Refusal := runC s fun u => some u.clearKey

/-- C.SEED (R176). -/
def execCSeed (s : State) : Host.Outcome State Fault Refusal :=
  runC s fun u => some (u.deriveSeed (keyedHash s.params.keyedHash))

/-- C.APPLY (R177). -/
def execCApply (s : State) : Host.Outcome State Fault Refusal :=
  runC s fun u => u.apply s.params (keyedHash s.params.keyedHash) chaosMap

/-- C.CONT (R178). -/
def execCCont (s : State) : Host.Outcome State Fault Refusal := runC s fun u => u.continueFrom s.params chaosMap

/-- C.KSSTART (R179). -/
def execCKsstart (s : State) : Host.Outcome State Fault Refusal := runC s fun u => u.start s.params chaosMap

/-- C.KEYWR (R171). -/
def execCKeywr (k : Fin 8) (w : Word) (s : State) : Host.Outcome State Fault Refusal :=
  runC s fun u => some (u.writeKey k.val w)

/-- The write of an illegal word to `C_CMD` (R180), reached from HOST.WR. -/
def illegalCipherCommand (s : State) : Host.Outcome State Fault Refusal := runC s fun u => some u.illegal

end Sys2Proof.Machine
end

