-- ==== Sys2Proof/Machine/Codec.lean ====
section
/-! DEFINITION. PacketCodec, 42_codec.md: the header codec (R200, R201; the wire format is 30_encoding.md R116) and the two
commands over it, F.ENCODE (R202) and F.DECODE (R203). -/

namespace Sys2Proof.Machine

/-- What `HdrDecode` returns (R200). -/
inductive HdrVerdict
  | valid | invalidMagic | invalidLength
deriving DecidableEq, Repr

/-- The header registers written from 25 header bytes, whatever the outcome (R200, R40). -/
def FramerUnit.loadHeader (u : FramerUnit) (h : Vector Byte 25) : FramerUnit :=
  { u with
    magic := be32 h[0] h[1] h[2] h[3], ptype := h[4], plen := be32 h[5] h[6] h[7] h[8],
    nonce := Vector.ofFn fun i => h[9 + i.val] }

/-- The verdict of R200 on the loaded header registers: the magic first, then the length. -/
def FramerUnit.verdict (u : FramerUnit) : HdrVerdict :=
  if u.magic ≠ Config.magic then .invalidMagic
  else if sint32 u.plen < 0 then .invalidLength
  else .valid

/-- `totalSize = 25 + payloadLength`, exact (R39, R226, D24). -/
def FramerUnit.totalSize (u : FramerUnit) : Nat := Config.hdrSize + (sint32 u.plen).toNat

/-- `HdrEncode` (R201). -/
def hdrEncode (t : Byte) (p : Word) (n : Vector Byte 16) : Vector Byte 25 :=
  Vector.ofFn fun i =>
    match i.val with
    | 0 => 0x41
    | 1 => 0x45
    | 2 => 0x54
    | 3 => 0x48
    | 4 => t
    | 5 => lane p 3
    | 6 => lane p 2
    | 7 => lane p 1
    | 8 => lane p 0
    | j => byteAt n (j - 9)

/-- `F.ENCODE` (R202). -/
def FramerUnit.encodeHeader (u : FramerUnit) : FramerUnit :=
  { u with enc := hdrEncode u.eType u.ePlen u.eNonce, result := .ok }

/-- `F.DECODE` (R203). -/
def FramerUnit.decodeStaging (u : FramerUnit) : FramerUnit :=
  let v := u.clearParse
  if u.stgLen.toNat < Config.hdrSize then { v with result := .needHeader }
  else
    let d := v.loadHeader u.stg
    match d.verdict with
    | .invalidMagic => d.refuse FErrs.setMagic .invalidMagic
    | .invalidLength => d.refuse FErrs.setLength .invalidLength
    | .valid => { d with hdrValid := true, total := BitVec.ofNat 32 d.totalSize, result := .ok }

/-- F.ENCODE (R202). -/
def execFEncode (s : State) : Host.Outcome State Fault Refusal := runF s fun u => u.encodeHeader

/-- F.DECODE (R203). -/
def execFDecode (s : State) : Host.Outcome State Fault Refusal := runF s fun u => u.decodeStaging

end Sys2Proof.Machine
end

