-- ==== Sys2Proof/Machine/Framer.lean ====
section
/-! DEFINITION. FrameAssembler, 43_framer.md: the pushes (R224, R225), F.PARSE (R226), F.POP (R227), F.RESET (R228), the overflow
(R236) and the illegal framer command (R229). -/

namespace Sys2Proof.Machine

/-- `Overflow()` (R236): a framing failure that appends nothing. -/
def FramerUnit.overflow (u : FramerUnit) : FramerUnit := u.clearParse.fail FErrs.setOvf .overflow

/-- A push of some bytes (R224, R225): dropped in the `FAILED` state, an overflow where they do not all fit, else
appended in order. -/
def FramerUnit.push (u : FramerUnit) (asmCap : Nat) (bytes : List Byte) : FramerUnit :=
  if u.failed then u
  else if asmCap < u.asmLen + bytes.length then u.overflow
  else { u with asm := u.asm ++ bytes }

/-- `ASM[0..25)`, the header at the head (R226). -/
def FramerUnit.headBytes (u : FramerUnit) : Vector Byte 25 := Vector.ofFn fun i => u.asm.getD i.val 0

/-- The head of `ASM` copied to the staging area and decoded there, what `F.PARSE` works on once 25 bytes are there
(R226). -/
def FramerUnit.staged (u : FramerUnit) : FramerUnit :=
  { u with pktValid := false, hdrValid := false, oversize := false, total := 0, stg := u.headBytes, stgLen := 25 }.loadHeader
    u.headBytes

/-- The end of `F.PARSE` on a valid header (R226, R237). -/
def FramerUnit.finishParse (u : FramerUnit) (asmCap : Nat) : FramerUnit :=
  let v := { u with hdrValid := true, total := BitVec.ofNat 32 u.totalSize }
  if u.asmLen < u.totalSize then
    { v with
      need := BitVec.ofNat 32 (u.totalSize - u.asmLen), oversize := decide (asmCap < u.totalSize), result := .needPayload }
  else { v with pktValid := true, need := 0, result := .packet }

/-- `F.PARSE` (R226). -/
def FramerUnit.parse (u : FramerUnit) (asmCap : Nat) : FramerUnit :=
  if u.failed then { u with result := .failed }
  else if u.asmLen < Config.hdrSize then
    { u with
      pktValid := false, hdrValid := false, oversize := false, total := 0
      need := BitVec.ofNat 32 (Config.hdrSize - u.asmLen), result := .needHeader }
  else match u.staged.verdict with
    | .invalidMagic => u.staged.fail FErrs.setMagic .invalidMagic
    | .invalidLength => u.staged.fail FErrs.setLength .invalidLength
    | .valid => u.staged.finishParse asmCap

/-- `F.POP` (R227). -/
def FramerUnit.pop (u : FramerUnit) : FramerUnit :=
  if u.failed then { u with result := .failed }
  else if !u.pktValid then u.refuse FErrs.setNoPkt .noPacket
  else { u.clearParse with asm := u.asm.drop u.total.toNat, result := .ok }

/-- `F.RESET` (R228). -/
def FramerUnit.teardown (u : FramerUnit) : FramerUnit := { u.clearParse with asm := [], failed := false, result := .ok }

/-- An illegal framer command (R229). -/
def FramerUnit.illegal (u : FramerUnit) : FramerUnit := u.refuse FErrs.setCmd .illegalCmd

/-- F.NOP (R223): no register changes, `F_RESULT` included. -/
def execFNop (s : State) : Host.Outcome State Fault Refusal := runF s fun u => u

/-- F.PARSE (R226). -/
def execFParse (s : State) : Host.Outcome State Fault Refusal := runF s fun u => u.parse s.params.asmCap

/-- F.POP (R227). -/
def execFPop (s : State) : Host.Outcome State Fault Refusal := runF s fun u => u.pop

/-- F.RESET (R228). -/
def execFReset (s : State) : Host.Outcome State Fault Refusal := runF s fun u => u.teardown

/-- F.PUSH8 (R224): bits 7..0 of the word are appended, the rest is ignored. -/
def execFPush8 (w : Word) (s : State) : Host.Outcome State Fault Refusal :=
  runF s fun u => u.push s.params.asmCap [lane w 0]

/-- F.PUSH32 (R225): lanes 0 to 3 are appended in that order, all or none. -/
def execFPush32 (w : Word) (s : State) : Host.Outcome State Fault Refusal :=
  runF s fun u => u.push s.params.asmCap [lane w 0, lane w 1, lane w 2, lane w 3]

/-- The write of an illegal word to `F_CMD` (R229), reached from HOST.WR. -/
def illegalFramerCommand (s : State) : Host.Outcome State Fault Refusal := runF s fun u => u.illegal

end Sys2Proof.Machine
end

