-- ==== Sys2Proof/Machine/System.lean ====
section
/-! DEFINITION. The system operations, 44_system.md: SYS.RESET (R262), HOST.RD (R260) and HOST.WR (R261). -/

namespace Sys2Proof.Machine

/-- SYS.RESET (R262): every piece of the block's state takes its reset value, and `CBUF` a new unspecified content (R46). The
parameters are fixed (R264), and the accesses the host still has to issue are the host's. -/
def execSysReset (s : State) : Host.Outcome State Fault Refusal :=
  .next { s with c := CipherUnit.reset (s.c.draw + 1), f := FramerUnit.reset, response := .written }

/-- HOST.RD (R260): the read changes no state of the block (R84). -/
def execHostRd (off : Nat) (s : State) : Host.Outcome State Fault Refusal :=
  if !accepted off then busError s
  else if ownerBusy s (regAt off) && !(regAt off).readableWhileBusy then .fault .accessWhileBusy
  else .next (s.respond (.data (readValue s (regAt off))))

/-- A write of a word to `C_CMD` (R170): the command it names, or R180. -/
def writeCipherCommand (w : Word) (s : State) : Host.Outcome State Fault Refusal :=
  match cipherOp w with
  | some .nop => execCNop s
  | some .keyset => execCKeyset s
  | some .keyclr => execCKeyclr s
  | some .seed => execCSeed s
  | some .apply => execCApply s
  | some .cont => execCCont s
  | some .ksstart => execCKsstart s
  | none => illegalCipherCommand s

/-- A write of a word to `F_CMD` (R222): the command it names, or R229. -/
def writeFramerCommand (w : Word) (s : State) : Host.Outcome State Fault Refusal :=
  match framerOp w with
  | some .nop => execFNop s
  | some .parse => execFParse s
  | some .pop => execFPop s
  | some .encode => execFEncode s
  | some .decode => execFDecode s
  | some .reset => execFReset s
  | none => illegalFramerCommand s

/-- A plain write to a register that starts nothing: stored, applied as W1C, or ignored (R261, R84). -/
def plainWrite (r : Reg) (w : Word) (s : State) : Host.Outcome State Fault Refusal :=
  match r.owner with
  | .system => ignoredWrite s
  | .cipher => runC s fun u => some (u.store s.params.cbufBytes r w)
  | .framer => runF s fun u => u.store r w

/-- HOST.WR (R261): a bus error where the offset is not accepted; the operation of a side-effect register (R112 to R114);
else the plain write. -/
def execHostWr (off : Nat) (w : Word) (s : State) : Host.Outcome State Fault Refusal :=
  if !accepted off then busError s
  else match regAt off with
    | .cCmd => writeCipherCommand w s
    | .fCmd => writeFramerCommand w s
    | .fPush8 => execFPush8 w s
    | .fPush32 => execFPush32 w s
    | .sysReset => if w = 0x00000001 then execSysReset s else ignoredWrite s
    | .cKey k => execCKeywr k w s
    | r => plainWrite r w s

end Sys2Proof.Machine
end

