-- ==== Sys2Proof/Machine/Dispatch.lean ====
section
/-! DEFINITION. One arm per constructor of `Instr`: the meaning of each instruction. -/

namespace Sys2Proof.Machine

def exec (i : Instr) (s : State) : Host.Outcome State Fault Refusal :=
  match i with
  | .cNop => Sys2Proof.Machine.execCNop s
  | .cKeyset => Sys2Proof.Machine.execCKeyset s
  | .cKeyclr => Sys2Proof.Machine.execCKeyclr s
  | .cSeed => Sys2Proof.Machine.execCSeed s
  | .cApply => Sys2Proof.Machine.execCApply s
  | .cCont => Sys2Proof.Machine.execCCont s
  | .cKsstart => Sys2Proof.Machine.execCKsstart s
  | .fNop => Sys2Proof.Machine.execFNop s
  | .fParse => Sys2Proof.Machine.execFParse s
  | .fPop => Sys2Proof.Machine.execFPop s
  | .fEncode => Sys2Proof.Machine.execFEncode s
  | .fDecode => Sys2Proof.Machine.execFDecode s
  | .fReset => Sys2Proof.Machine.execFReset s
  | .fPush8 w => Sys2Proof.Machine.execFPush8 w s
  | .fPush32 w => Sys2Proof.Machine.execFPush32 w s
  | .sysReset => Sys2Proof.Machine.execSysReset s
  | .cKeywr k w => Sys2Proof.Machine.execCKeywr k w s
  | .hostRd off => Sys2Proof.Machine.execHostRd off s
  | .hostWr off w => Sys2Proof.Machine.execHostWr off w s

end Sys2Proof.Machine
end

