-- ==== Sys2Proof/Machine/Issue.lean ====
section
/-! DEFINITION. How a host access reaches the block: which access is next, and what is left when it is issued (00_scope.md R10,
20_memory.md R94), and the placing of an access as the next one (notes/assumptions/1.md, notes/assumptions/13.md). -/

namespace Sys2Proof.Machine

/-- The state once the host's oldest access has been issued: the accesses after it remain. -/
def State.issued (s : State) : State := { s with pending := s.pending.drop 1 }

/-- The state with one more access, to be issued before those it holds. -/
def State.placeAccess (s : State) (a : Access) : State := { s with pending := a :: s.pending }

/-- The block waits: with no access to perform, nothing changes (70_reset_and_hazards.md R341). -/
def waitForHost (s : State) : Host.Outcome State Fault Refusal := .next s

/-- An access the bus does not accept, for any reason the decoder names (R82). -/
def rejectedAccess (s : State) : Host.Outcome State Fault Refusal := busError s

end Sys2Proof.Machine
end

