-- ==== Sys2Proof/Machine/Step.lean ====
section
/-! DEFINITION. One step: the host's next access is issued, decoded and performed, in the order the host gives (00_scope.md R9, R10,
20_memory.md R94). -/

namespace Sys2Proof.Machine

/-- One step of the machine. -/
def step (s : State) : Host.Outcome State Fault Refusal :=
  match s.pending.head? with
  | none => waitForHost s
  | some a =>
    match decode a with
    | .ok i => exec i s.issued
    | .error _ => rejectedAccess s.issued

/-- The state with the access of an opcode-table word as the host's next one. -/
def State.withFetchWord (s : State) (nbits w : Nat) : State := s.placeAccess (tableAccess nbits w)

end Sys2Proof.Machine
end

