-- ==== Sys2Proof/Machine/Script.lean ====
section
/-! DEFINITION. The pseudo-operations of 30_encoding.md R121: host sequences with one name, as lists of accesses. -/

namespace Sys2Proof.Machine

/-- `C.LOADKEY k`: the eight key words, then `C.KEYSET` (R121). -/
def loadKey (key : Vector Byte 32) : List Access :=
  (List.finRange 8).map (fun k => encode (.cKeywr k (wordOf key k.val))) ++ [encode .cKeyset]

/-- `C.LOADNONCE n` (R121). -/
def loadNonce (nonce : Vector Byte 16) : List Access :=
  (List.range 4).map fun k => .write 32 (0x0160 + 4 * k) (wordOf nonce k)

/-- `F.PUSHBYTES b` (R121): whole words by F.PUSH32, the last `m mod 4` bytes by F.PUSH8. -/
def pushBytes : List Byte → List Access
  | b0 :: b1 :: b2 :: b3 :: rest => encode (.fPush32 (ofLanes b0 b1 b2 b3)) :: pushBytes rest
  | rest => rest.map fun b => encode (.fPush8 (b.setWidth 32))

/-- `C.CLRERR` (R121). -/
def clearCipherErrors : List Access := [.write 32 0x0104 0x00001F00]

/-- `F.CLRERR` (R121). -/
def clearFramerErrors : List Access := [.write 32 0x0204 0x00001F00]

/-- `n` steps in a row, up to the first that has no next state: the host performing its next `n` accesses (R10, R94). -/
def steps : Nat → State → Host.Outcome State Fault Refusal
  | 0, s => .next s
  | n + 1, s =>
    match step s with
    | .next t => steps n t
    | .fault r => .fault r
    | .refused r => .refused r

end Sys2Proof.Machine
end

