-- ==== Sys2Proof/Safety.lean ====
section
/-! DEFINITION. What counts as a safe state and a safe run, in the terms the statements use: the invariants of 10_state.md R45, the
legal parameters of 00_scope.md R6, what a host reads of a parsed packet, and the host's parse loop of 43_framer.md R221. -/

namespace Sys2Proof.Machine

/-- The legal values of the parameters (R6). -/
def Params.legal (p : Params) : Bool :=
  decide (p.cbufBytes % 4 = 0) && decide (4 ≤ p.cbufBytes) && decide (p.cbufBytes ≤ 8192) &&
  decide (p.asmCap % 4 = 0) && decide (28 ≤ p.asmCap) && decide (p.asmCap ≤ 16384) &&
  decide (p.blockBase % 0x8000 = 0)

/-- The byte store is in canonical form and inside its bounds (R35). -/
def CipherUnit.cbufOk (u : CipherUnit) (p : Params) : Bool := Cells.wf u.cbuf && Cells.below p.cbufBytes u.cbuf

/-- `SEEDED = 1` implies `C_X` is a value in `[0, 1]` (R45). -/
def CipherUnit.chaosOk (u : CipherUnit) : Bool := !u.seeded || F64.inClosedUnit u.x

/-- The header registers hold a header that passed the magic and length checks (R36). -/
def FramerUnit.headerPassed (u : FramerUnit) : Bool := decide (u.magic = Config.magic) && decide (0 ≤ sint32 u.plen)

/-- The header registers hold the header `h` (R40). -/
def FramerUnit.headerIs (u : FramerUnit) (h : Vector Byte 25) : Bool :=
  decide (u.magic = be32 h[0] h[1] h[2] h[3]) && decide (u.ptype = h[4]) &&
  decide (u.plen = be32 h[5] h[6] h[7] h[8]) && decide (u.nonce = Vector.ofFn fun i => h[9 + i.val])

/-- The clauses of R45 on the framer unit, with R39's `F_TOTAL` is 0 when `HDR_VALID = 0`. -/
def FramerUnit.ok (u : FramerUnit) (p : Params) : Bool :=
  decide (u.asmLen ≤ p.asmCap) &&
  (!u.hdrValid || (u.headerPassed && decide (u.total.toNat = u.totalSize))) &&
  (u.hdrValid || decide (u.total = 0)) &&
  (!u.pktValid || (u.hdrValid && !u.failed && decide (u.total.toNat ≤ u.asmLen) && u.headerIs u.headBytes)) &&
  (!u.oversize || (u.hdrValid && decide (p.asmCap < u.total.toNat)))

/-- The invariant of the machine: legal parameters, no unit busy (R44), and the clauses of R45. -/
def State.inv (s : State) : Bool :=
  s.params.legal && !s.c.busy && !s.f.busy && s.c.cbufOk s.params && s.c.chaosOk && s.f.ok s.params

/-! ### What a host sees and does -/

/-- Byte `i` of the assembly buffer as the host reads it, through the `F_WIN` window (R89). -/
def windowByte (s : State) (i : Nat) : Byte := lane (readValue s (regAt (0x4000 + 4 * (i / 4)))) (i % 4)

/-- A packet as AE yields it: its header fields and its payload (30_encoding.md R116, R118). -/
structure Packet where
  ptype : Byte
  nonce : Vector Byte 16
  payload : List Byte
deriving DecidableEq, Repr

/-- The payload length fits the header's field (R116). -/
def Packet.valid (p : Packet) : Bool := decide (p.payload.length < 2 ^ 31)

/-- The wire bytes of a packet (R118). -/
def Packet.bytes (p : Packet) : List Byte :=
  (hdrEncode p.ptype (BitVec.ofNat 32 p.payload.length) p.nonce).toList ++ p.payload

/-- What the host reads after a `PACKET` result: `F_TYPE`, `F_NONCE`, and window bytes 25 to `25 + F_PLEN - 1` (R221). -/
def readPacket (s : State) : Packet :=
  { ptype := s.f.ptype, nonce := s.f.nonce, payload := (List.range s.f.plen.toNat).map fun j => windowByte s (25 + j) }

/-- The loop of R221, with a bound on its rounds: the packets read, and the state at `done`. -/
def parseLoop : Nat → State → Option (List Packet × State)
  | 0, _ => none
  | n + 1, s =>
    match exec .fParse s with
    | .next t =>
      if t.f.result = .packet then
        match exec .fPop t with
        | .next u => (parseLoop n u).map fun (ps, v) => (readPacket t :: ps, v)
        | _ => none
      else some ([], t)
    | _ => none

/-- The loop run after a push: each round removes at least 25 bytes, so `ASM_LEN + 1` rounds reach `done`. -/
def runLoop (s : State) : Option (List Packet × State) := parseLoop (s.f.asmLen + 1) s

/-- Pushes with the loop of R221 run after every one (R238): all packets read, in order, and the last state. -/
def feed : List Instr → State → Option (List Packet × State)
  | [], s => some ([], s)
  | i :: rest, s =>
    match exec i s with
    | .next t =>
      match runLoop t with
      | some (ps, u) => (feed rest u).map fun (qs, v) => (ps ++ qs, v)
      | none => none
    | _ => none

/-- The bytes a push appends (R224, R225); `none` for any other instruction. -/
def pushedBytes : Instr → Option (List Byte)
  | .fPush8 w => some [lane w 0]
  | .fPush32 w => some [lane w 0, lane w 1, lane w 2, lane w 3]
  | .cNop | .cKeyset | .cKeyclr | .cSeed | .cApply | .cCont | .cKsstart => none
  | .fNop | .fParse | .fPop | .fEncode | .fDecode | .fReset => none
  | .sysReset | .cKeywr _ _ | .hostRd _ | .hostWr _ _ => none

end Sys2Proof.Machine
end

