-- ==== Sys2Proof/Certificates/Slice0/Obligations.lean ====
section
/-! DEFINITION. The statements for the provers, from the numbered rules of spec/. Each docstring names the rule it formalises. The
field `response`, where a next state has it, is the model's record of the bus's answer (notes/assumptions/2.md); `pending`,
`step` and `steps` are the model's form of the host's sequence of accesses (notes/assumptions/1.md). -/

open Sys2Proof Sys2Proof.Machine

/-! ### Encodings -/

/-- Words written out from the tables of R112, R113 and R114, one at least of each family. -/
def Obligations.WrittenOutWordsDecode : Prop :=
  decode (.write 32 0x0100 0x00000004) = .ok .cApply ∧
  decode (.write 32 0x0100 0x00000006) = .ok .cKsstart ∧
  decode (.write 32 0x0200 0x00000002) = .ok .fPop ∧
  decode (.write 32 0x0200 0x00000004) = .ok .fDecode ∧
  decode (.write 32 0x0214 0xABCDEF41) = .ok (.fPush8 0xABCDEF41) ∧
  decode (.write 32 0x0218 0x48544541) = .ok (.fPush32 0x48544541) ∧
  decode (.write 32 0x0010 0x00000001) = .ok .sysReset ∧
  decode (.write 32 0x014C 0x0F0E0D0C) = .ok (.cKeywr 3 0x0F0E0D0C) ∧
  decode (.read 32 0x7FFC) = .ok (.hostRd 0x7FFC) ∧
  decode (.write 32 0x0100 0x00000104) = .ok (.hostWr 0x0100 0x00000104)

/-- R111, R112, R113: the whole opcode map of both command registers; every other word is left to the plain write, which R180
and R229 execute. -/
def Obligations.OpcodeMapsAreComplete : Prop :=
  ∀ w : Word,
    decode (.write 32 0x0100 w) = .ok
      (if w = 0x00000000 then .cNop else if w = 0x00000001 then .cKeyset else if w = 0x00000002 then .cKeyclr
       else if w = 0x00000003 then .cSeed else if w = 0x00000004 then .cApply else if w = 0x00000005 then .cCont
       else if w = 0x00000006 then .cKsstart else .hostWr 0x0100 w) ∧
    decode (.write 32 0x0200 w) = .ok
      (if w = 0x00000000 then .fNop else if w = 0x00000001 then .fParse else if w = 0x00000002 then .fPop
       else if w = 0x00000003 then .fEncode else if w = 0x00000004 then .fDecode else if w = 0x00000005 then .fReset
       else .hostWr 0x0200 w)

/-- Decode and encode agree: every well-formed instruction, with every operand, is what the decoder reads from its access
(R110 to R115). -/
def Obligations.DecodeOfEncode : Prop :=
  ∀ i : Instr, i.wellFormed = true → decode (encode i) = .ok i

/-- Each access the decoder accepts is the encoding of the one instruction it answers: no two accesses are read as one
instruction, and no part of an accepted access is dropped (R110 to R115). -/
def Obligations.EncodeOfDecode : Prop :=
  ∀ (a : Access) (i : Instr), decode a = .ok i → encode i = a

/-! ### The step and the bus -/

/-- The host's next access, when it decodes to an instruction, is performed as that instruction, the accesses after it still
pending (R9, R94); with no access to perform the block waits and nothing changes (R341). -/
def Obligations.StepRunsDecodedInstruction : Prop :=
  (∀ (s : State) (a : Access) (rest : List Access) (i : Instr),
    s.pending = a :: rest → decode a = .ok i → step s = exec i { s with pending := rest }) ∧
  (∀ s : State, s.pending = [] → step s = .next s)

/-- R82: an access that is not 32 bits wide, not aligned, or at `0x8000` or above gets a bus error and changes no state of the
block. -/
def Obligations.BusErrorChangesNothing : Prop :=
  ∀ (s : State) (bits off : Nat) (w : Word) (rest : List Access),
    (bits ≠ 32 ∨ off % 4 ≠ 0 ∨ 0x8000 ≤ off) →
      (s.pending = .read bits off :: rest → step s = .next { s with pending := rest, response := .busError }) ∧
      (s.pending = .write bits off w :: rest → step s = .next { s with pending := rest, response := .busError })

/-- R261 with R170, R222 and R114: the plain write of an instruction's word at its offset performs that instruction. -/
def Obligations.HostWritePerformsTheCommand : Prop :=
  ∀ (i : Instr) (off : Nat) (w : Word) (s : State),
    i.wellFormed = true → encode i = .write 32 off w → exec (.hostWr off w) s = exec i s

/-! ### Reset, identity and parameters -/

/-- The block's state is the one R46 lists; the unspecified `CBUF` bytes are those of the draw in force. -/
def Sys2Proof.Claims.resetBlock (c : CipherUnit) (f : FramerUnit) : Prop :=
  c.key = Vector.replicate 32 0 ∧ c.keyValid = false ∧ c.seeded = false ∧ c.fallback = false ∧ c.busy = false ∧
  c.status = 0 ∧ c.nonce = Vector.replicate 16 0 ∧ c.len = 0 ∧ c.seed = 0x0000000000000000 ∧
  c.x = 0x0000000000000000 ∧ c.mix = Vector.replicate 8 0 ∧ c.count = 0 ∧ c.result = .ok ∧
  (∀ i, c.byte i = Config.cbufFree c.draw i) ∧
  f.asm = [] ∧ f.pktValid = false ∧ f.hdrValid = false ∧ f.failed = false ∧ f.oversize = false ∧ f.busy = false ∧
  f.status = 0 ∧ f.result = .ok ∧ f.need = 0 ∧ f.total = 0 ∧ f.magic = 0 ∧ f.ptype = 0 ∧ f.plen = 0 ∧
  f.nonce = Vector.replicate 16 0 ∧ f.stg = Vector.replicate 25 0 ∧ f.stgLen = 0 ∧ f.eType = 0 ∧ f.ePlen = 0 ∧
  f.eNonce = Vector.replicate 16 0 ∧ f.enc = Vector.replicate 25 0

/-- R46 at power-on, and R262: SYS.RESET gives every piece of the block its reset value from any state, and any other word
written to SYS_RESET has no effect. The model's choices are the new draw of the unspecified bytes (notes/assumptions/4.md), the
kept parameters (notes/assumptions/6.md) and the kept pending accesses (notes/assumptions/19.md). -/
def Obligations.ResetGivesResetValues : Prop :=
  Claims.resetBlock State.reset.c State.reset.f ∧
  (∀ s : State, ∃ t, exec .sysReset s = .next t ∧ Claims.resetBlock t.c t.f ∧ t.c.draw ≠ s.c.draw ∧
    t.params = s.params ∧ t.pending = s.pending ∧ t.response = .written) ∧
  (∀ (s : State) (w : Word), w ≠ 0x00000001 → exec (.hostWr 0x0010 w) s = .next { s with response := .written })

/-- R21: the four identity registers, in every state. -/
def Obligations.IdentityRegistersReadConstants : Prop :=
  ∀ s : State,
    exec (.hostRd 0x0000) s = .next { s with response := .data 0x41455448 } ∧
    exec (.hostRd 0x0004) s = .next { s with response := .data 0x00000001 } ∧
    exec (.hostRd 0x0008) s = .next { s with response := .data (BitVec.ofNat 32 s.params.cbufBytes) } ∧
    exec (.hostRd 0x000C) s = .next { s with response := .data (BitVec.ofNat 32 s.params.asmCap) }

/-- R264: the parameters are constant for an instance, whatever step is taken. -/
def Obligations.ParametersNeverChange : Prop :=
  ∀ s t : State, step s = .next t → t.params = s.params

/-! ### Plain accesses -/

/-- A read of an offset completes, answers this word, and changes no state of the block. -/
def Sys2Proof.Claims.reads (s : State) (off : Nat) (d : Word) : Prop :=
  exec (.hostRd off) s = .next { s with response := .data d }

/-- R84, R260: a read of an accepted offset completes, answers what the offset holds, and changes no state of the block. What
each read-only register holds, the identity and status registers apart: the codes of R29 and R37, and the values and byte
arrays of R32 to R34, R38 to R40 and R43, byte by byte in the lanes of R85. -/
def Obligations.ReadChangesNoState : Prop :=
  (∀ (s : State) (off : Nat),
    accepted off = true → (ownerBusy s (regAt off) = false ∨ (regAt off).readableWhileBusy = true) →
      Claims.reads s off (readValue s (regAt off))) ∧
  (∀ s : State, s.c.busy = false →
    (∀ row ∈ [(CResult.ok, 0x00000000), (.noKey, 0x00000001), (.badLen, 0x00000002), (.noSeed, 0x00000003),
        (.badSeed, 0x00000004), (.illegalCmd, 0x00000008)], s.c.result = row.1 → Claims.reads s 0x0108 row.2) ∧
    Claims.reads s 0x0118 (s.c.x.extractLsb' 0 32) ∧ Claims.reads s 0x011C (s.c.x.extractLsb' 32 32) ∧
    (∀ k : Fin 2, ∃ d, Claims.reads s (0x0120 + 4 * k.val) d ∧ ∀ j, j < 4 → lane d j = byteAt s.c.mix (4 * k.val + j)) ∧
    Claims.reads s 0x0128 s.c.count) ∧
  (∀ s : State, s.f.busy = false →
    (∀ row ∈ [(FResult.ok, 0x00000000), (.packet, 0x00000001), (.needHeader, 0x00000002), (.needPayload, 0x00000003),
        (.invalidMagic, 0x00000004), (.invalidLength, 0x00000005), (.failed, 0x00000006), (.noPacket, 0x00000007),
        (.illegalCmd, 0x00000008), (.overflow, 0x00000009)], s.f.result = row.1 → Claims.reads s 0x0208 row.2) ∧
    Claims.reads s 0x020C (BitVec.ofNat 32 s.f.asm.length) ∧
    (s.f.asm.length ≤ s.params.asmCap →
      Claims.reads s 0x0210 (BitVec.ofNat 32 (s.params.asmCap - s.f.asm.length))) ∧
    Claims.reads s 0x021C s.f.need ∧
    (∃ d, Claims.reads s 0x0220 d ∧ ∀ j, j < 4 → lane d j = if j = 0 then s.f.ptype else 0) ∧
    Claims.reads s 0x0224 s.f.plen ∧ Claims.reads s 0x0228 s.f.total ∧ Claims.reads s 0x022C s.f.magic ∧
    (∀ k : Fin 4, ∃ d, Claims.reads s (0x0230 + 4 * k.val) d ∧ ∀ j, j < 4 → lane d j = byteAt s.f.nonce (4 * k.val + j)) ∧
    (∀ k : Fin 7, ∃ d, Claims.reads s (0x0280 + 4 * k.val) d ∧
      ∀ j, j < 4 → lane d j = if 4 * k.val + j < 25 then byteAt s.f.enc (4 * k.val + j) else 0))

/-- R92, R83: the ranges R92 lists as reserved read 0 and ignore writes. -/
def Obligations.ReservedOffsetsReadZeroIgnoreWrites : Prop :=
  ∀ (s : State) (off : Nat) (w : Word),
    off % 4 = 0 →
    ((0x0014 ≤ off ∧ off ≤ 0x00FC) ∨ (0x012C ≤ off ∧ off ≤ 0x013C) ∨ (0x0170 ≤ off ∧ off ≤ 0x01FC) ∨
      (0x0268 ≤ off ∧ off ≤ 0x026C) ∨ (0x029C ≤ off ∧ off ≤ 0x1FFC)) →
      exec (.hostRd off) s = .next { s with response := .data 0 } ∧
      exec (.hostWr off w) s = .next { s with response := .written }

/-- R84 on the read-only and write-only registers: a write to a read-only register or to `F_WIN` changes nothing, and a
write-only register reads 0. -/
def Obligations.ReadOnlyIgnoresWritesWriteOnlyReadsZero : Prop :=
  ∀ (s : State) (w : Word), s.c.busy = false → s.f.busy = false →
    (∀ off ∈ [0x0000, 0x0004, 0x0008, 0x000C, 0x0108, 0x0118, 0x011C, 0x0120, 0x0124, 0x0128, 0x0208, 0x020C, 0x0210,
        0x021C, 0x0220, 0x0224, 0x0228, 0x022C, 0x0230, 0x0234, 0x0238, 0x023C, 0x0280, 0x0284, 0x0288, 0x028C, 0x0290,
        0x0294, 0x0298],
      exec (.hostWr off w) s = .next { s with response := .written }) ∧
    (∀ off, off % 4 = 0 → 0x4000 ≤ off → off < 0x8000 → exec (.hostWr off w) s = .next { s with response := .written }) ∧
    (∀ off ∈ [0x0010, 0x0100, 0x0140, 0x0144, 0x0148, 0x014C, 0x0150, 0x0154, 0x0158, 0x015C, 0x0200, 0x0214, 0x0218],
      exec (.hostRd off) s = .next { s with response := .data 0 })

/-- A byte array with four of its bytes, from `4 k`, replaced by the lanes of a word; lanes beyond the array's end fall
away. -/
def Sys2Proof.Claims.wordStored {n : Nat} (old new : Vector Byte n) (k : Nat) (w : Word) : Prop :=
  (∀ j, j < 4 → 4 * k + j < n → byteAt new (4 * k + j) = lane w j) ∧
  (∀ i, i < 4 * k ∨ 4 * k + 4 ≤ i → byteAt new i = byteAt old i)

/-- R181 and R204: the plain writes of both units store their word and have no other effect; the other bytes of the same
array are unchanged. -/
def Obligations.RegisterWritesStoreOnly : Prop :=
  ∀ (s : State) (w : Word), s.c.busy = false → s.f.busy = false →
    exec (.hostWr 0x010C w) s = .next { s with c := { s.c with len := w }, response := .written } ∧
    exec (.hostWr 0x0110 w) s =
      .next { s with c := { s.c with seed := s.c.seed.extractLsb' 32 32 ++ w }, response := .written } ∧
    exec (.hostWr 0x0114 w) s =
      .next { s with c := { s.c with seed := w ++ s.c.seed.extractLsb' 0 32 }, response := .written } ∧
    (∀ k : Fin 4, ∃ t, exec (.hostWr (0x0160 + 4 * k.val) w) s = .next t ∧
      t = { s with c := { s.c with nonce := t.c.nonce }, response := .written } ∧
      Claims.wordStored s.c.nonce t.c.nonce k.val w) ∧
    (∀ k : Fin 7, ∃ t, exec (.hostWr (0x0240 + 4 * k.val) w) s = .next t ∧
      t = { s with f := { s.f with stg := t.f.stg }, response := .written } ∧
      Claims.wordStored s.f.stg t.f.stg k.val w) ∧
    exec (.hostWr 0x025C w) s = .next { s with f := { s.f with stgLen := w }, response := .written } ∧
    exec (.hostWr 0x0260 w) s = .next { s with f := { s.f with eType := lane w 0 }, response := .written } ∧
    exec (.hostWr 0x0264 w) s = .next { s with f := { s.f with ePlen := w }, response := .written } ∧
    (∀ k : Fin 4, ∃ t, exec (.hostWr (0x0270 + 4 * k.val) w) s = .next t ∧
      t = { s with f := { s.f with eNonce := t.f.eNonce }, response := .written } ∧
      Claims.wordStored s.f.eNonce t.f.eNonce k.val w)

/-- The read-write registers other than the window, with the bits each stores (R30, R31, R26, R41, R42). -/
def Sys2Proof.Claims.storedBits (off : Nat) : Word := if off = 0x0258 ∨ off = 0x0260 then 0x000000FF else 0xFFFFFFFF

/-- R84 on the RW registers: a read returns the last word stored, reserved bits 0. -/
def Obligations.RegisterReadsBackLastWrite : Prop :=
  ∀ (s : State) (w : Word), s.c.busy = false → s.f.busy = false →
    ∀ off ∈ [0x010C, 0x0110, 0x0114, 0x0160, 0x0164, 0x0168, 0x016C, 0x0240, 0x0244, 0x0248, 0x024C, 0x0250, 0x0254,
        0x0258, 0x025C, 0x0260, 0x0264, 0x0270, 0x0274, 0x0278, 0x027C],
      ∃ t, exec (.hostWr off w) s = .next t ∧
        exec (.hostRd off) t = .next { t with response := .data (w &&& Claims.storedBits off) }

/-- R88: a write of a `CBUF` window word stores its four lanes and leaves every other byte; beyond `CBUF_BYTES` it is
ignored and the read gives 0. -/
def Obligations.CbufWindowStoresFourBytes : Prop :=
  ∀ (s : State) (i : Nat) (w : Word), s.c.busy = false → i < 0x800 →
    (4 * i < s.params.cbufBytes →
      ∃ t, exec (.hostWr (0x2000 + 4 * i) w) s = .next t ∧
        t = { s with c := { s.c with cbuf := t.c.cbuf }, response := .written } ∧
        (∀ j, j < 4 → t.c.byte (4 * i + j) = lane w j) ∧
        (∀ a, a < 4 * i ∨ 4 * i + 4 ≤ a → t.c.byte a = s.c.byte a) ∧
        exec (.hostRd (0x2000 + 4 * i)) t = .next { t with response := .data w }) ∧
    (s.params.cbufBytes ≤ 4 * i →
      exec (.hostWr (0x2000 + 4 * i) w) s = .next { s with response := .written } ∧
      exec (.hostRd (0x2000 + 4 * i)) s = .next { s with response := .data 0 })

/-- R89: a read of the `F_WIN` window gives, lane by lane, the bytes of `ASM` from its head, and 0 beyond `ASM_LEN`. -/
def Obligations.AssemblyWindowReadsFromHead : Prop :=
  ∀ (s : State) (i : Nat), s.f.busy = false → i < 0x1000 →
    ∃ d, exec (.hostRd (0x4000 + 4 * i)) s = .next { s with response := .data d } ∧
      ∀ j, j < 4 → lane d j = if 4 * i + j < s.f.asm.length then s.f.asm.getD (4 * i + j) 0 else 0

/-- R24, R93: a read gives the same answer whatever the secret is. -/
def Obligations.SecretCannotBeReadBack : Prop :=
  ∀ (s : State) (off : Nat) (key : Vector Byte 32) (t : State),
    exec (.hostRd off) s = .next t →
      exec (.hostRd off) { s with c := { s.c with key := key } } = .next { t with c := { t.c with key := key } }

/-! ### Status registers and errors -/

/-- R27 and R36, bit by bit: what each status register reads. -/
def Obligations.StatusRegisterLayout : Prop :=
  ∀ s : State,
    exec (.hostRd 0x0104) s = .next { s with response := .data s.c.status } ∧
    exec (.hostRd 0x0204) s = .next { s with response := .data s.f.status } ∧
    ∀ i, i < 32 →
      s.c.status.getLsbD i =
        ([s.c.busy, s.c.keyValid, s.c.seeded, s.c.fallback, false, false, false, false, s.c.errs.noKey, s.c.errs.len,
          s.c.errs.cmd, s.c.errs.noSeed, s.c.errs.seed].getD i false) ∧
      s.f.status.getLsbD i =
        ([s.f.busy, s.f.pktValid, s.f.hdrValid, s.f.failed, s.f.oversize, false, false, false, s.f.errs.magic,
          s.f.errs.length, s.f.errs.cmd, s.f.errs.noPkt, s.f.errs.ovf].getD i false)

/-- R28: a write to a status register clears the sticky bits whose data bit is 1, changes no other bit and nothing else. -/
def Obligations.StatusWriteClearsStickyBits : Prop :=
  ∀ (s : State) (w : Word),
    (s.c.busy = false → ∃ t, exec (.hostWr 0x0104 w) s = .next t ∧
      t = { s with c := { s.c with errs := t.c.errs }, response := .written } ∧
      t.c.status = s.c.status &&& ~~~(w &&& 0x00001F00)) ∧
    (s.f.busy = false → ∃ t, exec (.hostWr 0x0204 w) s = .next t ∧
      t = { s with f := { s.f with errs := t.f.errs }, response := .written } ∧
      t.f.status = s.f.status &&& ~~~(w &&& 0x00001F00))

/-- R28: a sticky bit once set stays set through every instruction but a block reset and a write to its status register. -/
def Obligations.NoCommandClearsStickyBits : Prop :=
  ∀ (i : Instr) (s t : State), i.wellFormed = true → exec i s = .next t → i ≠ .sysReset →
    (∀ w, i ≠ .hostWr 0x0104 w) → (∀ w, i ≠ .hostWr 0x0204 w) →
      ∀ b, 8 ≤ b → b < 13 →
        (s.c.status.getLsbD b = true → t.c.status.getLsbD b = true) ∧
        (s.f.status.getLsbD b = true → t.f.status.getLsbD b = true)

/-- R180 and R229: a word outside the opcode map sets `ERR_CMD`, writes `ILLEGAL_CMD` and changes nothing else. -/
def Obligations.IllegalCommandsAreRefused : Prop :=
  ∀ (s : State) (w : Word),
    (0x00000006 < w → s.c.busy = false → exec (.hostWr 0x0100 w) s =
      .next { s with c := { s.c with errs := { s.c.errs with cmd := true }, result := .illegalCmd },
                     response := .written }) ∧
    (0x00000005 < w → s.f.busy = false → exec (.hostWr 0x0200 w) s =
      .next { s with f := { s.f with errs := { s.f.errs with cmd := true }, result := .illegalCmd },
                     response := .written })

/-- R350, U2: an access to a register of a busy unit, other than a read of its status register, is a fault of the host
program. That the `CBUF` and `F_WIN` windows, which the clauses over offsets take in, fault with their unit is the model's
choice (notes/assumptions/11.md): R350 names registers. -/
def Obligations.AccessToBusyUnitFaults : Prop :=
  ∀ s : State,
    (s.c.busy = true →
      (∀ i ∈ [Instr.cNop, .cKeyset, .cKeyclr, .cSeed, .cApply, .cCont, .cKsstart],
        exec i s = .fault .accessWhileBusy) ∧
      (∀ k w, exec (.cKeywr k w) s = .fault .accessWhileBusy) ∧
      (∀ off, accepted off = true → (regAt off).owner = .cipher → regAt off ≠ .cStatus →
        exec (.hostRd off) s = .fault .accessWhileBusy) ∧
      (∀ off w, accepted off = true → (regAt off).owner = .cipher → exec (.hostWr off w) s = .fault .accessWhileBusy)) ∧
    (s.f.busy = true →
      (∀ i ∈ [Instr.fNop, .fParse, .fPop, .fEncode, .fDecode, .fReset], exec i s = .fault .accessWhileBusy) ∧
      (∀ w, exec (.fPush8 w) s = .fault .accessWhileBusy ∧ exec (.fPush32 w) s = .fault .accessWhileBusy) ∧
      (∀ off, accepted off = true → (regAt off).owner = .framer → regAt off ≠ .fStatus →
        exec (.hostRd off) s = .fault .accessWhileBusy) ∧
      (∀ off w, accepted off = true → (regAt off).owner = .framer → exec (.hostWr off w) s = .fault .accessWhileBusy))

/-- R44: no step makes a unit busy. -/
def Obligations.NoStepMakesAUnitBusy : Prop :=
  ∀ s t : State, step s = .next t → (t.c.busy = true → s.c.busy = true) ∧ (t.f.busy = true → s.f.busy = true)

/-- R3: a cipher instruction neither changes nor depends on the framer unit, and a framer instruction neither changes nor
depends on the cipher unit. -/
def Obligations.UnitsShareNoState : Prop :=
  (∀ (i : Instr) (s t : State) (f : FramerUnit),
    i ∈ [Instr.cNop, .cKeyset, .cKeyclr, .cSeed, .cApply, .cCont, .cKsstart] ∨ (∃ k w, i = .cKeywr k w) →
    exec i s = .next t → t.f = s.f ∧ exec i { s with f := f } = .next { t with f := f }) ∧
  (∀ (i : Instr) (s t : State) (c : CipherUnit),
    i ∈ [Instr.fNop, .fParse, .fPop, .fEncode, .fDecode, .fReset] ∨ (∃ w, i = .fPush8 w) ∨ (∃ w, i = .fPush32 w) →
    exec i s = .next t → t.c = s.c ∧ exec i { s with c := c } = .next { t with c := c })

/-! ### Cipher commands -/

/-- R173 and R223: the two NOPs complete and change no register, the result registers included. -/
def Obligations.NopsChangeNothing : Prop :=
  ∀ s : State,
    (s.c.busy = false → exec .cNop s = .next { s with response := .written }) ∧
    (s.f.busy = false → exec .fNop s = .next { s with response := .written })

/-- R174 and R175: C.KEYSET makes the secret valid; C.KEYCLR clears the secret and every value derived from it. Nothing else
changes. -/
def Obligations.KeySetAndKeyClear : Prop :=
  ∀ s : State, s.c.busy = false →
    exec .cKeyset s = .next { s with c := { s.c with keyValid := true, result := .ok }, response := .written } ∧
    exec .cKeyclr s = .next
      { s with
        c := { s.c with
          key := Vector.replicate 32 0, keyValid := false, seed := 0, x := 0, mix := Vector.replicate 8 0, count := 0,
          seeded := false, fallback := false, result := .ok }
        response := .written }

/-- R171: C.KEYWR writes the four bytes of its register, clears `KEY_VALID`, and changes nothing else. -/
def Obligations.KeyWriteStoresFourBytes : Prop :=
  ∀ (s : State) (k : Fin 8) (w : Word), s.c.busy = false →
    ∃ t, exec (.cKeywr k w) s = .next t ∧
      t = { s with c := { s.c with key := t.c.key, keyValid := false }, response := .written } ∧
      (∀ j, j < 4 → byteAt t.c.key (4 * k.val + j) = lane w j) ∧
      (∀ i, i < 4 * k.val ∨ 4 * k.val + 4 ≤ i → byteAt t.c.key i = byteAt s.c.key i)

/-- R45, R25: `KEY_VALID` is 1 after an instruction only if it was 1 and the secret is unchanged, or the instruction is
C.KEYSET. -/
def Obligations.KeyValidOnlyFromKeySet : Prop :=
  ∀ (i : Instr) (s t : State), i.wellFormed = true → exec i s = .next t → t.c.keyValid = true →
    (s.c.keyValid = true ∧ t.c.key = s.c.key) ∨ i = .cKeyset

/-- R176: C.SEED derives the seed from the keyed hash of the nonce under the secret; without a secret it is refused. -/
def Obligations.SeedDerivesFromKeyedHash : Prop :=
  ∀ s : State, s.c.busy = false →
    (s.c.keyValid = true → exec .cSeed s = .next
      { s with
        c := { s.c with
          mix := (keyedHash s.params.keyedHash s.c.key s.c.nonce).head
          seed := seedValue (keyedHash s.params.keyedHash s.c.key s.c.nonce).head
          x := seedValue (keyedHash s.params.keyedHash s.c.key s.c.nonce).head
          count := 0, seeded := true
          fallback := seedReplaced (keyedHash s.params.keyedHash s.c.key s.c.nonce).head
          result := .ok }
        response := .written }) ∧
    (s.c.keyValid = false → exec .cSeed s = .next
      { s with c := { s.c with errs := { s.c.errs with noKey := true }, result := .noKey }, response := .written })

/-- The effect on `CBUF` of R159: the first bytes XORed with the key bytes, every other byte as before. -/
def Sys2Proof.Claims.xoredWith (old new : CipherUnit) (k : List Byte) : Prop :=
  (∀ i, i < k.length → new.byte i = old.byte i ^^^ k.getD i 0) ∧ (∀ i, k.length ≤ i → new.byte i = old.byte i)

/-- R177: C.APPLY with a secret and a length that fits completes; it derives the seed, XORs `CBUF[0..C_LEN)` with the
keystream from it, and leaves the final state in `C_X`. -/
def Obligations.ApplyTransformsBuffer : Prop :=
  ∀ s : State, s.c.busy = false → s.c.keyValid = true → s.c.len.toNat ≤ s.params.cbufBytes →
    ∃ t k xl, exec .cApply s = .next t ∧
      keystream chaosMap (seedValue (keyedHash s.params.keyedHash s.c.key s.c.nonce).head) s.c.len.toNat = some (k, xl) ∧
      k.length = s.c.len.toNat ∧ Claims.xoredWith s.c t.c k ∧
      t = { s with
        c := { s.c with
          cbuf := t.c.cbuf
          mix := (keyedHash s.params.keyedHash s.c.key s.c.nonce).head
          seed := seedValue (keyedHash s.params.keyedHash s.c.key s.c.nonce).head
          x := xl, count := s.c.len, seeded := true
          fallback := seedReplaced (keyedHash s.params.keyedHash s.c.key s.c.nonce).head
          result := .ok }
        response := .written }

/-- R178: C.CONT from a chaos state in `[0, 1]` (which the invariant gives, R45) continues the keystream over `CBUF[0..C_LEN)`;
it changes neither the seed, nor `C_MIX`, nor the flags. -/
def Obligations.ContContinuesKeystream : Prop :=
  ∀ s : State, s.c.busy = false → s.c.seeded = true → F64.inClosedUnit s.c.x = true →
    s.c.len.toNat ≤ s.params.cbufBytes →
    ∃ t k xl, exec .cCont s = .next t ∧
      keystream chaosMap s.c.x s.c.len.toNat = some (k, xl) ∧ k.length = s.c.len.toNat ∧
      Claims.xoredWith s.c t.c k ∧
      t = { s with
        c := { s.c with cbuf := t.c.cbuf, x := xl, count := s.c.count + s.c.len, result := .ok }
        response := .written }

/-- R179: C.KSSTART from a host seed in `[SEED_MIN, 1.0]` runs the generator over `CBUF[0..C_LEN)`; it reads no key and writes
no `C_MIX`. -/
def Obligations.KsstartRunsFromHostSeed : Prop :=
  ∀ s : State, s.c.busy = false →
    F64.le 0x3F1A36E2EB1C432D s.c.seed = true → F64.le s.c.seed 0x3FF0000000000000 = true →
    s.c.len.toNat ≤ s.params.cbufBytes →
    ∃ t k xl, exec .cKsstart s = .next t ∧
      keystream chaosMap s.c.seed s.c.len.toNat = some (k, xl) ∧ k.length = s.c.len.toNat ∧
      Claims.xoredWith s.c t.c k ∧
      t = { s with
        c := { s.c with cbuf := t.c.cbuf, x := xl, count := s.c.len, seeded := true, fallback := false, result := .ok }
        response := .written }

/-- R304 on the cipher commands, with R170, R172: the checks in their order; a refused command writes its result code and its
sticky bit and nothing else. -/
def Obligations.CipherRefusalsInOrder : Prop :=
  ∀ s : State, s.c.busy = false →
    (s.c.keyValid = false → exec .cApply s = .next
      { s with c := { s.c with errs := { s.c.errs with noKey := true }, result := .noKey }, response := .written }) ∧
    (s.c.keyValid = true → s.params.cbufBytes < s.c.len.toNat → exec .cApply s = .next
      { s with c := { s.c with errs := { s.c.errs with len := true }, result := .badLen }, response := .written }) ∧
    (s.c.seeded = false → exec .cCont s = .next
      { s with c := { s.c with errs := { s.c.errs with noSeed := true }, result := .noSeed }, response := .written }) ∧
    (s.c.seeded = true → s.params.cbufBytes < s.c.len.toNat → exec .cCont s = .next
      { s with c := { s.c with errs := { s.c.errs with len := true }, result := .badLen }, response := .written }) ∧
    (¬(F64.le 0x3F1A36E2EB1C432D s.c.seed = true ∧ F64.le s.c.seed 0x3FF0000000000000 = true) →
      exec .cKsstart s = .next
        { s with c := { s.c with errs := { s.c.errs with seed := true }, result := .badSeed }, response := .written }) ∧
    (F64.le 0x3F1A36E2EB1C432D s.c.seed = true ∧ F64.le s.c.seed 0x3FF0000000000000 = true →
      s.params.cbufBytes < s.c.len.toNat → exec .cKsstart s = .next
        { s with c := { s.c with errs := { s.c.errs with len := true }, result := .badLen }, response := .written })

/-! ### The keystream -/

/-- R157 for every map: value `i` is `f` applied `i + 1` times to the seed, and the final state is `f` applied `L` times; where
a value leaves `[0, 1)` there is no keystream (R352). -/
def Obligations.KeystreamIsIteratedMap : Prop :=
  ∀ (f : F64 → F64) (x : F64) (n : Nat),
    ((∀ i, i < n → F64.inUnit (f^[i + 1] x) = true) →
      keystream f x n = some ((List.range n).map fun i => keyByte (f^[i + 1] x), f^[n] x)) ∧
    ((∃ i, i < n ∧ F64.inUnit (f^[i + 1] x) = false) → keystream f x n = none)

/-- R153: the range law of the chaotic map. -/
def Obligations.ChaosMapStaysInRange : Prop :=
  ∀ x : F64, F64.le 0 x = true → F64.le x 0x3FF0000000000000 = true →
    F64.le 0 (chaosMap x) = true ∧ F64.lt (chaosMap x) 0x3FF0000000000000 = true

/-- R158: for every chaos value the floor of the rounded product is in 0..254, and the cast to 8 bits loses nothing. -/
def Obligations.KeyByteIsAtMost254 : Prop :=
  ∀ x : F64, F64.inUnit x = true →
    (keyByte x).toNat ≤ 254 ∧ F64.floor (F64.mul x 0x406FE00000000000) = ((keyByte x).toNat : Int)

/-- R156: the fallback is taken exactly when the magnitude of the seed integer is at most 922337203685477, and then the seed
is 0.5. -/
def Obligations.FallbackExactlyForSmallSeeds : Prop :=
  ∀ m8 : Vector Byte 8,
    (seedReplaced m8 = true ↔ (sint64 (le64 m8)).natAbs ≤ 922337203685477) ∧
    (seedReplaced m8 = true → seedValue m8 = 0x3FE0000000000000)

/-- `q` is the whole number nearest `a / d`, ties to even. -/
def Sys2Proof.Claims.nearestEven (a d q : Nat) : Prop :=
  2 * a ≤ (2 * q + 1) * d ∧ 2 * q * d ≤ 2 * a + d ∧ ((2 * a = (2 * q + 1) * d ∨ 2 * q * d = 2 * a + d) → q % 2 = 0)

/-- R156: the seed is always in `[SEED_MIN, 1.0]`, and it is 1.0 exactly when the magnitude is at least `2^63 - 2^9`. Where the
fallback is not taken it is `toF64(a) * 2^-63`, `a` the magnitude: for `a` in `[2^n, 2^(n+1))` the binary64 value of exponent
`n - 63` whose significand is `a` itself, exact for `n ≤ 52`, and above that `a` rounded to 53 bits, ties to even (a
significand rounded up to `2^53` carries into the exponent). -/
def Obligations.SeedStaysInRange : Prop :=
  ∀ m8 : Vector Byte 8,
    (F64.le 0x3F1A36E2EB1C432D (seedValue m8) = true ∧ F64.le (seedValue m8) 0x3FF0000000000000 = true ∧
      (seedValue m8 = 0x3FF0000000000000 ↔ 2 ^ 63 - 2 ^ 9 ≤ (sint64 (le64 m8)).natAbs)) ∧
    (∀ a n : Nat, seedReplaced m8 = false → a = (sint64 (le64 m8)).natAbs → 2 ^ n ≤ a → a < 2 ^ (n + 1) →
      (n ≤ 52 → (seedValue m8).toNat = (960 + n) * 2 ^ 52 + (a - 2 ^ n) * 2 ^ (52 - n)) ∧
      (52 < n → ∃ q, Claims.nearestEven a (2 ^ (n - 52)) q ∧ (seedValue m8).toNat + 2 ^ 52 = (960 + n) * 2 ^ 52 + q))

/-- R160, AE §8 "Cipher involution": C.APPLY twice, with the same secret, nonce and length, restores every byte of `CBUF`. -/
def Obligations.ApplyTwiceRestoresBuffer : Prop :=
  ∀ s : State, s.c.busy = false → s.c.keyValid = true → s.c.len.toNat ≤ s.params.cbufBytes →
    ∃ t u, exec .cApply s = .next t ∧ exec .cApply t = .next u ∧ ∀ i, u.c.byte i = s.c.byte i

/-- R160 and R178, chunking: C.APPLY of `L1` bytes, then the next `L2` bytes put at the start of `CBUF` and C.CONT of `L2`,
transforms them as one C.APPLY of the `L1 + L2` bytes does, and ends in the same chaos state and count; the first `L1` bytes
are already those of the whole (the prefix law). -/
def Obligations.ChunkedApplyEqualsWhole : Prop :=
  ∀ (s : State) (l1 l2 : Word), s.c.busy = false → s.c.keyValid = true →
    s.c.len.toNat = l1.toNat + l2.toNat → s.c.len.toNat ≤ s.params.cbufBytes →
    ∃ whole first, exec .cApply s = .next whole ∧ exec .cApply { s with c := { s.c with len := l1 } } = .next first ∧
      (∀ j, j < l1.toNat → first.c.byte j = whole.c.byte j) ∧
      ∀ mid : State, mid.params = s.params → mid.c = { first.c with len := l2, cbuf := mid.c.cbuf } →
        (∀ j, j < l2.toNat → mid.c.byte j = s.c.byte (l1.toNat + j)) →
        ∃ second, exec .cCont mid = .next second ∧
          (∀ j, j < l2.toNat → second.c.byte j = whole.c.byte (l1.toNat + j)) ∧
          second.c.x = whole.c.x ∧ second.c.count = whole.c.count

/-! ### Framer: pushes, codec, parse and pop -/

/-- R224 and R225: a push that fits appends its bytes in order and changes nothing else; in the `FAILED` state it is
dropped. -/
def Obligations.PushesAppendOrAreDropped : Prop :=
  ∀ (i : Instr) (bytes : List Byte) (s : State), pushedBytes i = some bytes → s.f.busy = false →
    (s.f.failed = false → s.f.asm.length + bytes.length ≤ s.params.asmCap →
      exec i s = .next { s with f := { s.f with asm := s.f.asm ++ bytes }, response := .written }) ∧
    (s.f.failed = true → exec i s = .next { s with response := .written })

/-- R236: a push that does not fit appends nothing and is a framing failure. -/
def Obligations.OverflowIsFramingFailure : Prop :=
  ∀ (i : Instr) (bytes : List Byte) (s : State), pushedBytes i = some bytes → s.f.busy = false →
    s.f.failed = false → s.params.asmCap < s.f.asm.length + bytes.length →
      exec i s = .next
        { s with
          f := { s.f with
            failed := true, errs := { s.f.errs with ovf := true }, pktValid := false, hdrValid := false,
            oversize := false, need := 0, total := 0, result := .overflow }
          response := .written }

/-- R201, R202: F.ENCODE writes the 25 wire bytes of the header to `ENC`, also in the `FAILED` state, and changes nothing
else but the result. -/
def Obligations.EncodeWritesWireHeader : Prop :=
  ∀ s : State, s.f.busy = false →
    ∃ t, exec .fEncode s = .next t ∧
      t = { s with f := { s.f with enc := t.f.enc, result := .ok }, response := .written } ∧
      t.f.enc.toList =
        [0x41, 0x45, 0x54, 0x48, s.f.eType, lane s.f.ePlen 3, lane s.f.ePlen 2, lane s.f.ePlen 1, lane s.f.ePlen 0] ++
          s.f.eNonce.toList

/-- The header registers as R200 writes them from 25 bytes, over a unit. -/
def Sys2Proof.Claims.headerLoaded (u : FramerUnit) (h : Vector Byte 25) : FramerUnit :=
  { u with
    magic := be32 h[0] h[1] h[2] h[3], ptype := h[4], plen := be32 h[5] h[6] h[7] h[8],
    nonce := Vector.ofFn fun i => h[9 + i.val] }

/-- R203, R200: the outcomes of F.DECODE on the staging area, in the order of R304. -/
def Obligations.DecodeOutcomes : Prop :=
  ∀ (s : State) (u v : FramerUnit), s.f.busy = false →
    u = { s.f with pktValid := false, hdrValid := false, oversize := false, need := 0, total := 0 } →
    v = Claims.headerLoaded u s.f.stg →
    (s.f.stgLen.toNat < 25 → exec .fDecode s = .next { s with f := { u with result := .needHeader }, response := .written }) ∧
    (25 ≤ s.f.stgLen.toNat → v.magic ≠ 0x41455448 → exec .fDecode s = .next
      { s with f := { v with errs := { v.errs with magic := true }, result := .invalidMagic }, response := .written }) ∧
    (25 ≤ s.f.stgLen.toNat → v.magic = 0x41455448 → v.plen.toInt < 0 → exec .fDecode s = .next
      { s with f := { v with errs := { v.errs with length := true }, result := .invalidLength }, response := .written }) ∧
    (25 ≤ s.f.stgLen.toNat → v.magic = 0x41455448 → 0 ≤ v.plen.toInt → exec .fDecode s = .next
      { s with f := { v with hdrValid := true, total := 25 + v.plen, result := .ok }, response := .written })

/-- R205: a header encoded with a valid length decodes to its fields, and a wrong magic is rejected whatever the other
bytes are. -/
def Obligations.HeaderRoundTrip : Prop :=
  (∀ (u : FramerUnit) (t : Byte) (p : Word) (n : Vector Byte 16), 0 ≤ p.toInt →
    (u.loadHeader (hdrEncode t p n)).verdict = .valid ∧ (u.loadHeader (hdrEncode t p n)).ptype = t ∧
    (u.loadHeader (hdrEncode t p n)).plen = p ∧ (u.loadHeader (hdrEncode t p n)).nonce = n) ∧
  (∀ (u : FramerUnit) (h : Vector Byte 25), ¬(h[0] = 0x41 ∧ h[1] = 0x45 ∧ h[2] = 0x54 ∧ h[3] = 0x48) →
    (u.loadHeader h).verdict = .invalidMagic)

/-- R226: F.PARSE in the `FAILED` state, and with fewer than 25 bytes. -/
def Obligations.ParseWithoutHeader : Prop :=
  ∀ s : State, s.f.busy = false →
    (s.f.failed = true → exec .fParse s = .next { s with f := { s.f with result := .failed }, response := .written }) ∧
    (s.f.failed = false → s.f.asm.length < 25 → exec .fParse s = .next
      { s with
        f := { s.f with
          pktValid := false, hdrValid := false, oversize := false, total := 0,
          need := BitVec.ofNat 32 (25 - s.f.asm.length), result := .needHeader }
        response := .written })

/-- The framer unit when F.PARSE has copied the head of `ASM` to the staging area and decoded it (R226). -/
def Sys2Proof.Claims.headDecoded (u : FramerUnit) : FramerUnit :=
  Claims.headerLoaded
    { u with
      pktValid := false, hdrValid := false, oversize := false, total := 0, stgLen := 25
      stg := Vector.ofFn fun i => u.asm.getD i.val 0 }
    (Vector.ofFn fun i => u.asm.getD i.val 0)

/-- R226: F.PARSE on a bad header enters the `FAILED` state, the magic before the length. -/
def Obligations.ParseBadHeaderFails : Prop :=
  ∀ (s : State) (v : FramerUnit), s.f.busy = false → s.f.failed = false → 25 ≤ s.f.asm.length →
    v = Claims.headDecoded s.f →
    (v.magic ≠ 0x41455448 → exec .fParse s = .next
      { s with
        f := { v with failed := true, errs := { v.errs with magic := true }, need := 0, result := .invalidMagic }
        response := .written }) ∧
    (v.magic = 0x41455448 → v.plen.toInt < 0 → exec .fParse s = .next
      { s with
        f := { v with failed := true, errs := { v.errs with length := true }, need := 0, result := .invalidLength }
        response := .written })

/-- R226, R237: F.PARSE on a valid header waits for the payload, with `OVERSIZE` when it can never fit, or reports a complete
packet; `ASM` is not consumed. -/
def Obligations.ParseValidHeader : Prop :=
  ∀ (s : State) (v : FramerUnit), s.f.busy = false → s.f.failed = false → 25 ≤ s.f.asm.length →
    v = Claims.headDecoded s.f → v.magic = 0x41455448 → 0 ≤ v.plen.toInt →
    (s.f.asm.length < 25 + v.plen.toNat → exec .fParse s = .next
      { s with
        f := { v with
          hdrValid := true, total := BitVec.ofNat 32 (25 + v.plen.toNat),
          need := BitVec.ofNat 32 (25 + v.plen.toNat - s.f.asm.length),
          oversize := decide (s.params.asmCap < 25 + v.plen.toNat), result := .needPayload }
        response := .written }) ∧
    (25 + v.plen.toNat ≤ s.f.asm.length → exec .fParse s = .next
      { s with
        f := { v with
          hdrValid := true, total := BitVec.ofNat 32 (25 + v.plen.toNat), pktValid := true, need := 0, result := .packet }
        response := .written })

/-- R227: F.POP removes exactly the packet's bytes from the head of `ASM`; it is refused in the `FAILED` state and without a
parsed packet. -/
def Obligations.PopRemovesOnePacket : Prop :=
  ∀ s : State, s.f.busy = false →
    (s.f.failed = false → s.f.pktValid = true → exec .fPop s = .next
      { s with
        f := { s.f with
          asm := s.f.asm.drop s.f.total.toNat, pktValid := false, hdrValid := false, oversize := false, need := 0,
          total := 0, result := .ok }
        response := .written }) ∧
    (s.f.failed = true → exec .fPop s = .next { s with f := { s.f with result := .failed }, response := .written }) ∧
    (s.f.failed = false → s.f.pktValid = false → exec .fPop s = .next
      { s with f := { s.f with errs := { s.f.errs with noPkt := true }, result := .noPacket }, response := .written })

/-- R228: F.RESET empties `ASM` and leaves the `FAILED` state; the sticky bits, the header registers and the codec registers
stay. -/
def Obligations.FramerResetStartsNewConnection : Prop :=
  ∀ s : State, s.f.busy = false → exec .fReset s = .next
    { s with
      f := { s.f with
        asm := [], pktValid := false, hdrValid := false, failed := false, oversize := false, need := 0, total := 0,
        result := .ok }
      response := .written }

/-- R240: the `FAILED` state is left only by F.RESET or a block reset, and entered only by F.PARSE or a push. -/
def Obligations.FailedLeftOnlyByReset : Prop :=
  ∀ (i : Instr) (s t : State), i.wellFormed = true → exec i s = .next t →
    (s.f.failed = true → t.f.failed = false → i = .fReset ∨ i = .sysReset) ∧
    (s.f.failed = false → t.f.failed = true → i = .fParse ∨ (pushedBytes i).isSome = true)

/-- R38: `ASM` grows only by a push at its end, and shrinks only by F.POP removing one packet's bytes, or by F.RESET or a block
reset emptying it. -/
def Obligations.AssemblyBufferGrowsAndShrinksByRule : Prop :=
  ∀ (i : Instr) (s t : State), i.wellFormed = true → exec i s = .next t →
    t.f.asm = s.f.asm ∨
    (∃ bytes, pushedBytes i = some bytes ∧ t.f.asm = s.f.asm ++ bytes ∧ t.f.asm.length ≤ s.params.asmCap) ∨
    (i = .fPop ∧ s.f.pktValid = true ∧ t.f.asm = s.f.asm.drop s.f.total.toNat) ∨
    ((i = .fReset ∨ i = .sysReset) ∧ t.f.asm = [])

/-- R239: a Data header announcing 100 bytes with 40 of them present waits for 60 more; with all of them, one packet whose
payload the window shows in order. -/
def Obligations.PartialPayloadWaits : Prop :=
  ∀ (s : State) (n : Vector Byte 16) (payload : List Byte), s.f.busy = false → s.f.failed = false →
    payload.length = 100 →
    (s.f.asm = (hdrEncode 0x02 100 n).toList ++ payload.take 40 →
      ∃ t, exec .fParse s = .next t ∧ t.f.result = .needPayload ∧ t.f.total = 125 ∧ t.f.need = 60 ∧ t.f.asm = s.f.asm) ∧
    (s.f.asm = (hdrEncode 0x02 100 n).toList ++ payload →
      ∃ t, exec .fParse s = .next t ∧ t.f.result = .packet ∧ t.f.pktValid = true ∧ t.f.ptype = 0x02 ∧ t.f.nonce = n ∧
        (List.range 100).map (fun j => windowByte t (25 + j)) = payload)

/-- R238, AE §8 "FrameAssembler reassembly": any split of the bytes of some packets into pushes, with the parse loop of R221 run
after every push, yields exactly those packets, in order, and ends with `ASM` empty. -/
def Obligations.ReassemblyYieldsThePackets : Prop :=
  ∀ (s : State) (ps : List Packet) (pushes : List Instr) (chunks : List (List Byte)),
    s.params.legal = true → s.f.busy = false → s.f.failed = false → s.f.asm = [] →
    (∀ p ∈ ps, p.valid = true) → pushes.map pushedBytes = chunks.map some →
    chunks.flatten = (ps.map Packet.bytes).flatten → chunks.flatten.length ≤ s.params.asmCap →
    ∃ t, feed pushes s = some (ps, t) ∧ t.f.asm = [] ∧ t.f.failed = false

/-! ### Invariants -/

/-- The invariant of R44 and R45 holds after reset. -/
def Obligations.ResetMeetsInvariant : Prop := State.reset.inv = true

/-- R45: every step keeps the invariant: legal parameters, no unit busy, the byte store in canonical form and inside its
bounds, the chaos state in `[0, 1]` while `SEEDED`, and the framer's clauses. -/
def Obligations.StepKeepsInvariant : Prop :=
  ∀ s t : State, s.inv = true → step s = .next t → t.inv = true

/-- R300: from a state that meets the invariant the block never stops: every access ends in a next state. -/
def Obligations.BlockNeverStops : Prop :=
  ∀ s : State, s.inv = true → ∃ t, step s = .next t

/-! ### Pseudo-operations -/

/-- R121: `C.LOADKEY k` as the host's next accesses loads the secret and makes it valid, in nine steps; `C.LOADNONCE n` loads the
nonce, in four; `C.CLRERR` and `F.CLRERR` clear every sticky bit of their unit, in one. Nothing else of the block changes. -/
def Obligations.LoadKeyLoadsTheSecret : Prop :=
  (∀ (s : State) (key : Vector Byte 32), s.c.busy = false →
    steps 9 { s with pending := loadKey key } =
      .next { s with c := { s.c with key := key, keyValid := true, result := .ok }, pending := [], response := .written }) ∧
  (∀ (s : State) (nonce : Vector Byte 16), s.c.busy = false →
    steps 4 { s with pending := loadNonce nonce } =
      .next { s with c := { s.c with nonce := nonce }, pending := [], response := .written }) ∧
  (∀ s : State, s.c.busy = false →
    steps 1 { s with pending := clearCipherErrors } =
      .next { s with
        c := { s.c with errs := { noKey := false, len := false, cmd := false, noSeed := false, seed := false } }
        pending := [], response := .written }) ∧
  (∀ s : State, s.f.busy = false →
    steps 1 { s with pending := clearFramerErrors } =
      .next { s with
        f := { s.f with errs := { magic := false, length := false, cmd := false, noPkt := false, ovf := false } }
        pending := [], response := .written })

/-- R121: `F.PUSHBYTES b` as the host's next accesses appends exactly those bytes when they fit. -/
def Obligations.PushBytesAppendsThem : Prop :=
  ∀ (s : State) (b : List Byte), s.f.busy = false → s.f.failed = false → b ≠ [] →
    s.f.asm.length + b.length ≤ s.params.asmCap →
    steps (pushBytes b).length { s with pending := pushBytes b } =
      .next { s with f := { s.f with asm := s.f.asm ++ b }, pending := [], response := .written }
end

