-- ==== Sys2Proof/Laws/State.lean ====
section
/-! SUPPORT. One lemma per field per update of the state: what each named update leaves in each field. -/

namespace Sys2Proof.Machine

/-! `State.setC`: only the cipher unit changes. -/

@[simp] theorem State.setC_params (s : State) (v : CipherUnit) : (s.setC v).params = s.params := rfl
@[simp] theorem State.setC_c (s : State) (v : CipherUnit) : (s.setC v).c = v := rfl
@[simp] theorem State.setC_f (s : State) (v : CipherUnit) : (s.setC v).f = s.f := rfl
@[simp] theorem State.setC_pending (s : State) (v : CipherUnit) : (s.setC v).pending = s.pending := rfl
@[simp] theorem State.setC_response (s : State) (v : CipherUnit) : (s.setC v).response = s.response := rfl

/-! `State.setF`: only the framer unit changes. -/

@[simp] theorem State.setF_params (s : State) (v : FramerUnit) : (s.setF v).params = s.params := rfl
@[simp] theorem State.setF_c (s : State) (v : FramerUnit) : (s.setF v).c = s.c := rfl
@[simp] theorem State.setF_f (s : State) (v : FramerUnit) : (s.setF v).f = v := rfl
@[simp] theorem State.setF_pending (s : State) (v : FramerUnit) : (s.setF v).pending = s.pending := rfl
@[simp] theorem State.setF_response (s : State) (v : FramerUnit) : (s.setF v).response = s.response := rfl

/-! `State.respond`: only the answer changes. -/

@[simp] theorem State.respond_params (s : State) (r : Response) : (s.respond r).params = s.params := rfl
@[simp] theorem State.respond_c (s : State) (r : Response) : (s.respond r).c = s.c := rfl
@[simp] theorem State.respond_f (s : State) (r : Response) : (s.respond r).f = s.f := rfl
@[simp] theorem State.respond_pending (s : State) (r : Response) : (s.respond r).pending = s.pending := rfl
@[simp] theorem State.respond_response (s : State) (r : Response) : (s.respond r).response = r := rfl

/-! `CipherUnit.refuse`: a refusal writes one sticky bit and the result code (R170, R306). -/

@[simp] theorem CipherUnit.refuse_key (u : CipherUnit) (b : CErrs → CErrs) (r : CResult) : (u.refuse b r).key = u.key := rfl
@[simp] theorem CipherUnit.refuse_keyValid (u : CipherUnit) (b : CErrs → CErrs) (r : CResult) : (u.refuse b r).keyValid = u.keyValid := rfl
@[simp] theorem CipherUnit.refuse_nonce (u : CipherUnit) (b : CErrs → CErrs) (r : CResult) : (u.refuse b r).nonce = u.nonce := rfl
@[simp] theorem CipherUnit.refuse_len (u : CipherUnit) (b : CErrs → CErrs) (r : CResult) : (u.refuse b r).len = u.len := rfl
@[simp] theorem CipherUnit.refuse_seed (u : CipherUnit) (b : CErrs → CErrs) (r : CResult) : (u.refuse b r).seed = u.seed := rfl
@[simp] theorem CipherUnit.refuse_x (u : CipherUnit) (b : CErrs → CErrs) (r : CResult) : (u.refuse b r).x = u.x := rfl
@[simp] theorem CipherUnit.refuse_mix (u : CipherUnit) (b : CErrs → CErrs) (r : CResult) : (u.refuse b r).mix = u.mix := rfl
@[simp] theorem CipherUnit.refuse_count (u : CipherUnit) (b : CErrs → CErrs) (r : CResult) : (u.refuse b r).count = u.count := rfl
@[simp] theorem CipherUnit.refuse_seeded (u : CipherUnit) (b : CErrs → CErrs) (r : CResult) : (u.refuse b r).seeded = u.seeded := rfl
@[simp] theorem CipherUnit.refuse_fallback (u : CipherUnit) (b : CErrs → CErrs) (r : CResult) : (u.refuse b r).fallback = u.fallback := rfl
@[simp] theorem CipherUnit.refuse_busy (u : CipherUnit) (b : CErrs → CErrs) (r : CResult) : (u.refuse b r).busy = u.busy := rfl
@[simp] theorem CipherUnit.refuse_errs (u : CipherUnit) (b : CErrs → CErrs) (r : CResult) : (u.refuse b r).errs = b u.errs := rfl
@[simp] theorem CipherUnit.refuse_result (u : CipherUnit) (b : CErrs → CErrs) (r : CResult) : (u.refuse b r).result = r := rfl
@[simp] theorem CipherUnit.refuse_cbuf (u : CipherUnit) (b : CErrs → CErrs) (r : CResult) : (u.refuse b r).cbuf = u.cbuf := rfl
@[simp] theorem CipherUnit.refuse_draw (u : CipherUnit) (b : CErrs → CErrs) (r : CResult) : (u.refuse b r).draw = u.draw := rfl

/-! `CipherUnit.setByte`: only `CBUF` changes. -/

@[simp] theorem CipherUnit.setByte_key (u : CipherUnit) (i : Nat) (v : Byte) : (u.setByte i v).key = u.key := rfl
@[simp] theorem CipherUnit.setByte_keyValid (u : CipherUnit) (i : Nat) (v : Byte) : (u.setByte i v).keyValid = u.keyValid := rfl
@[simp] theorem CipherUnit.setByte_nonce (u : CipherUnit) (i : Nat) (v : Byte) : (u.setByte i v).nonce = u.nonce := rfl
@[simp] theorem CipherUnit.setByte_len (u : CipherUnit) (i : Nat) (v : Byte) : (u.setByte i v).len = u.len := rfl
@[simp] theorem CipherUnit.setByte_seed (u : CipherUnit) (i : Nat) (v : Byte) : (u.setByte i v).seed = u.seed := rfl
@[simp] theorem CipherUnit.setByte_x (u : CipherUnit) (i : Nat) (v : Byte) : (u.setByte i v).x = u.x := rfl
@[simp] theorem CipherUnit.setByte_mix (u : CipherUnit) (i : Nat) (v : Byte) : (u.setByte i v).mix = u.mix := rfl
@[simp] theorem CipherUnit.setByte_count (u : CipherUnit) (i : Nat) (v : Byte) : (u.setByte i v).count = u.count := rfl
@[simp] theorem CipherUnit.setByte_seeded (u : CipherUnit) (i : Nat) (v : Byte) : (u.setByte i v).seeded = u.seeded := rfl
@[simp] theorem CipherUnit.setByte_fallback (u : CipherUnit) (i : Nat) (v : Byte) : (u.setByte i v).fallback = u.fallback := rfl
@[simp] theorem CipherUnit.setByte_busy (u : CipherUnit) (i : Nat) (v : Byte) : (u.setByte i v).busy = u.busy := rfl
@[simp] theorem CipherUnit.setByte_errs (u : CipherUnit) (i : Nat) (v : Byte) : (u.setByte i v).errs = u.errs := rfl
@[simp] theorem CipherUnit.setByte_result (u : CipherUnit) (i : Nat) (v : Byte) : (u.setByte i v).result = u.result := rfl
@[simp] theorem CipherUnit.setByte_cbuf (u : CipherUnit) (i : Nat) (v : Byte) : (u.setByte i v).cbuf = Cells.insert u.cbuf i v := rfl
@[simp] theorem CipherUnit.setByte_draw (u : CipherUnit) (i : Nat) (v : Byte) : (u.setByte i v).draw = u.draw := rfl

/-! `CipherUnit.writeStatus`: only the sticky bits change (R28). -/

@[simp] theorem CipherUnit.writeStatus_key (u : CipherUnit) (w : Word) : (u.writeStatus w).key = u.key := rfl
@[simp] theorem CipherUnit.writeStatus_keyValid (u : CipherUnit) (w : Word) : (u.writeStatus w).keyValid = u.keyValid := rfl
@[simp] theorem CipherUnit.writeStatus_nonce (u : CipherUnit) (w : Word) : (u.writeStatus w).nonce = u.nonce := rfl
@[simp] theorem CipherUnit.writeStatus_len (u : CipherUnit) (w : Word) : (u.writeStatus w).len = u.len := rfl
@[simp] theorem CipherUnit.writeStatus_seed (u : CipherUnit) (w : Word) : (u.writeStatus w).seed = u.seed := rfl
@[simp] theorem CipherUnit.writeStatus_x (u : CipherUnit) (w : Word) : (u.writeStatus w).x = u.x := rfl
@[simp] theorem CipherUnit.writeStatus_mix (u : CipherUnit) (w : Word) : (u.writeStatus w).mix = u.mix := rfl
@[simp] theorem CipherUnit.writeStatus_count (u : CipherUnit) (w : Word) : (u.writeStatus w).count = u.count := rfl
@[simp] theorem CipherUnit.writeStatus_seeded (u : CipherUnit) (w : Word) : (u.writeStatus w).seeded = u.seeded := rfl
@[simp] theorem CipherUnit.writeStatus_fallback (u : CipherUnit) (w : Word) : (u.writeStatus w).fallback = u.fallback := rfl
@[simp] theorem CipherUnit.writeStatus_busy (u : CipherUnit) (w : Word) : (u.writeStatus w).busy = u.busy := rfl
@[simp] theorem CipherUnit.writeStatus_errs (u : CipherUnit) (w : Word) : (u.writeStatus w).errs = u.errs.clear w := rfl
@[simp] theorem CipherUnit.writeStatus_result (u : CipherUnit) (w : Word) : (u.writeStatus w).result = u.result := rfl
@[simp] theorem CipherUnit.writeStatus_cbuf (u : CipherUnit) (w : Word) : (u.writeStatus w).cbuf = u.cbuf := rfl
@[simp] theorem CipherUnit.writeStatus_draw (u : CipherUnit) (w : Word) : (u.writeStatus w).draw = u.draw := rfl

/-! `CipherUnit.writeKey`: R171. -/

@[simp] theorem CipherUnit.writeKey_key (u : CipherUnit) (k : Nat) (w : Word) : (u.writeKey k w).key = setWord u.key k w := by rw [CipherUnit.writeKey]
@[simp] theorem CipherUnit.writeKey_keyValid (u : CipherUnit) (k : Nat) (w : Word) : (u.writeKey k w).keyValid = false := by rw [CipherUnit.writeKey]
@[simp] theorem CipherUnit.writeKey_nonce (u : CipherUnit) (k : Nat) (w : Word) : (u.writeKey k w).nonce = u.nonce := by rw [CipherUnit.writeKey]
@[simp] theorem CipherUnit.writeKey_len (u : CipherUnit) (k : Nat) (w : Word) : (u.writeKey k w).len = u.len := by rw [CipherUnit.writeKey]
@[simp] theorem CipherUnit.writeKey_seed (u : CipherUnit) (k : Nat) (w : Word) : (u.writeKey k w).seed = u.seed := by rw [CipherUnit.writeKey]
@[simp] theorem CipherUnit.writeKey_x (u : CipherUnit) (k : Nat) (w : Word) : (u.writeKey k w).x = u.x := by rw [CipherUnit.writeKey]
@[simp] theorem CipherUnit.writeKey_mix (u : CipherUnit) (k : Nat) (w : Word) : (u.writeKey k w).mix = u.mix := by rw [CipherUnit.writeKey]
@[simp] theorem CipherUnit.writeKey_count (u : CipherUnit) (k : Nat) (w : Word) : (u.writeKey k w).count = u.count := by rw [CipherUnit.writeKey]
@[simp] theorem CipherUnit.writeKey_seeded (u : CipherUnit) (k : Nat) (w : Word) : (u.writeKey k w).seeded = u.seeded := by rw [CipherUnit.writeKey]
@[simp] theorem CipherUnit.writeKey_fallback (u : CipherUnit) (k : Nat) (w : Word) : (u.writeKey k w).fallback = u.fallback := by rw [CipherUnit.writeKey]
@[simp] theorem CipherUnit.writeKey_busy (u : CipherUnit) (k : Nat) (w : Word) : (u.writeKey k w).busy = u.busy := by rw [CipherUnit.writeKey]
@[simp] theorem CipherUnit.writeKey_errs (u : CipherUnit) (k : Nat) (w : Word) : (u.writeKey k w).errs = u.errs := by rw [CipherUnit.writeKey]
@[simp] theorem CipherUnit.writeKey_result (u : CipherUnit) (k : Nat) (w : Word) : (u.writeKey k w).result = u.result := by rw [CipherUnit.writeKey]
@[simp] theorem CipherUnit.writeKey_cbuf (u : CipherUnit) (k : Nat) (w : Word) : (u.writeKey k w).cbuf = u.cbuf := by rw [CipherUnit.writeKey]
@[simp] theorem CipherUnit.writeKey_draw (u : CipherUnit) (k : Nat) (w : Word) : (u.writeKey k w).draw = u.draw := by rw [CipherUnit.writeKey]

/-! `CipherUnit.setKey`: R174. -/

@[simp] theorem CipherUnit.setKey_key (u : CipherUnit) : (u.setKey).key = u.key := rfl
@[simp] theorem CipherUnit.setKey_keyValid (u : CipherUnit) : (u.setKey).keyValid = true := rfl
@[simp] theorem CipherUnit.setKey_nonce (u : CipherUnit) : (u.setKey).nonce = u.nonce := rfl
@[simp] theorem CipherUnit.setKey_len (u : CipherUnit) : (u.setKey).len = u.len := rfl
@[simp] theorem CipherUnit.setKey_seed (u : CipherUnit) : (u.setKey).seed = u.seed := rfl
@[simp] theorem CipherUnit.setKey_x (u : CipherUnit) : (u.setKey).x = u.x := rfl
@[simp] theorem CipherUnit.setKey_mix (u : CipherUnit) : (u.setKey).mix = u.mix := rfl
@[simp] theorem CipherUnit.setKey_count (u : CipherUnit) : (u.setKey).count = u.count := rfl
@[simp] theorem CipherUnit.setKey_seeded (u : CipherUnit) : (u.setKey).seeded = u.seeded := rfl
@[simp] theorem CipherUnit.setKey_fallback (u : CipherUnit) : (u.setKey).fallback = u.fallback := rfl
@[simp] theorem CipherUnit.setKey_busy (u : CipherUnit) : (u.setKey).busy = u.busy := rfl
@[simp] theorem CipherUnit.setKey_errs (u : CipherUnit) : (u.setKey).errs = u.errs := rfl
@[simp] theorem CipherUnit.setKey_result (u : CipherUnit) : (u.setKey).result = .ok := rfl
@[simp] theorem CipherUnit.setKey_cbuf (u : CipherUnit) : (u.setKey).cbuf = u.cbuf := rfl
@[simp] theorem CipherUnit.setKey_draw (u : CipherUnit) : (u.setKey).draw = u.draw := rfl

/-! `CipherUnit.clearKey`: R175. -/

@[simp] theorem CipherUnit.clearKey_key (u : CipherUnit) : (u.clearKey).key = Vector.replicate 32 0 := rfl
@[simp] theorem CipherUnit.clearKey_keyValid (u : CipherUnit) : (u.clearKey).keyValid = false := rfl
@[simp] theorem CipherUnit.clearKey_nonce (u : CipherUnit) : (u.clearKey).nonce = u.nonce := rfl
@[simp] theorem CipherUnit.clearKey_len (u : CipherUnit) : (u.clearKey).len = u.len := rfl
@[simp] theorem CipherUnit.clearKey_seed (u : CipherUnit) : (u.clearKey).seed = Config.zero := rfl
@[simp] theorem CipherUnit.clearKey_x (u : CipherUnit) : (u.clearKey).x = Config.zero := rfl
@[simp] theorem CipherUnit.clearKey_mix (u : CipherUnit) : (u.clearKey).mix = Vector.replicate 8 0 := rfl
@[simp] theorem CipherUnit.clearKey_count (u : CipherUnit) : (u.clearKey).count = 0 := rfl
@[simp] theorem CipherUnit.clearKey_seeded (u : CipherUnit) : (u.clearKey).seeded = false := rfl
@[simp] theorem CipherUnit.clearKey_fallback (u : CipherUnit) : (u.clearKey).fallback = false := rfl
@[simp] theorem CipherUnit.clearKey_busy (u : CipherUnit) : (u.clearKey).busy = u.busy := rfl
@[simp] theorem CipherUnit.clearKey_errs (u : CipherUnit) : (u.clearKey).errs = u.errs := rfl
@[simp] theorem CipherUnit.clearKey_result (u : CipherUnit) : (u.clearKey).result = .ok := rfl
@[simp] theorem CipherUnit.clearKey_cbuf (u : CipherUnit) : (u.clearKey).cbuf = u.cbuf := rfl
@[simp] theorem CipherUnit.clearKey_draw (u : CipherUnit) : (u.clearKey).draw = u.draw := rfl

/-! `CipherUnit.takeSeed`: R176. -/

@[simp] theorem CipherUnit.takeSeed_key (u : CipherUnit) (hash : Vector Byte 32 → Vector Byte 16 → Config.MixedKey) : (u.takeSeed hash).key = u.key := by rw [CipherUnit.takeSeed]
@[simp] theorem CipherUnit.takeSeed_keyValid (u : CipherUnit) (hash : Vector Byte 32 → Vector Byte 16 → Config.MixedKey) : (u.takeSeed hash).keyValid = u.keyValid := by rw [CipherUnit.takeSeed]
@[simp] theorem CipherUnit.takeSeed_nonce (u : CipherUnit) (hash : Vector Byte 32 → Vector Byte 16 → Config.MixedKey) : (u.takeSeed hash).nonce = u.nonce := by rw [CipherUnit.takeSeed]
@[simp] theorem CipherUnit.takeSeed_len (u : CipherUnit) (hash : Vector Byte 32 → Vector Byte 16 → Config.MixedKey) : (u.takeSeed hash).len = u.len := by rw [CipherUnit.takeSeed]
@[simp] theorem CipherUnit.takeSeed_seed (u : CipherUnit) (hash : Vector Byte 32 → Vector Byte 16 → Config.MixedKey) : (u.takeSeed hash).seed = seedValue (hash u.key u.nonce).head := by rw [CipherUnit.takeSeed]
@[simp] theorem CipherUnit.takeSeed_x (u : CipherUnit) (hash : Vector Byte 32 → Vector Byte 16 → Config.MixedKey) : (u.takeSeed hash).x = seedValue (hash u.key u.nonce).head := by rw [CipherUnit.takeSeed]
@[simp] theorem CipherUnit.takeSeed_mix (u : CipherUnit) (hash : Vector Byte 32 → Vector Byte 16 → Config.MixedKey) : (u.takeSeed hash).mix = (hash u.key u.nonce).head := by rw [CipherUnit.takeSeed]
@[simp] theorem CipherUnit.takeSeed_count (u : CipherUnit) (hash : Vector Byte 32 → Vector Byte 16 → Config.MixedKey) : (u.takeSeed hash).count = 0 := by rw [CipherUnit.takeSeed]
@[simp] theorem CipherUnit.takeSeed_seeded (u : CipherUnit) (hash : Vector Byte 32 → Vector Byte 16 → Config.MixedKey) : (u.takeSeed hash).seeded = true := by rw [CipherUnit.takeSeed]
@[simp] theorem CipherUnit.takeSeed_fallback (u : CipherUnit) (hash : Vector Byte 32 → Vector Byte 16 → Config.MixedKey) : (u.takeSeed hash).fallback = seedReplaced (hash u.key u.nonce).head := by rw [CipherUnit.takeSeed]
@[simp] theorem CipherUnit.takeSeed_busy (u : CipherUnit) (hash : Vector Byte 32 → Vector Byte 16 → Config.MixedKey) : (u.takeSeed hash).busy = u.busy := by rw [CipherUnit.takeSeed]
@[simp] theorem CipherUnit.takeSeed_errs (u : CipherUnit) (hash : Vector Byte 32 → Vector Byte 16 → Config.MixedKey) : (u.takeSeed hash).errs = u.errs := by rw [CipherUnit.takeSeed]
@[simp] theorem CipherUnit.takeSeed_result (u : CipherUnit) (hash : Vector Byte 32 → Vector Byte 16 → Config.MixedKey) : (u.takeSeed hash).result = u.result := by rw [CipherUnit.takeSeed]
@[simp] theorem CipherUnit.takeSeed_cbuf (u : CipherUnit) (hash : Vector Byte 32 → Vector Byte 16 → Config.MixedKey) : (u.takeSeed hash).cbuf = u.cbuf := by rw [CipherUnit.takeSeed]
@[simp] theorem CipherUnit.takeSeed_draw (u : CipherUnit) (hash : Vector Byte 32 → Vector Byte 16 → Config.MixedKey) : (u.takeSeed hash).draw = u.draw := by rw [CipherUnit.takeSeed]

/-! `FramerUnit.refuse`: a refusal writes one sticky bit and the result code (R222, R306). -/

@[simp] theorem FramerUnit.refuse_asm (u : FramerUnit) (b : FErrs → FErrs) (r : FResult) : (u.refuse b r).asm = u.asm := rfl
@[simp] theorem FramerUnit.refuse_pktValid (u : FramerUnit) (b : FErrs → FErrs) (r : FResult) : (u.refuse b r).pktValid = u.pktValid := rfl
@[simp] theorem FramerUnit.refuse_hdrValid (u : FramerUnit) (b : FErrs → FErrs) (r : FResult) : (u.refuse b r).hdrValid = u.hdrValid := rfl
@[simp] theorem FramerUnit.refuse_failed (u : FramerUnit) (b : FErrs → FErrs) (r : FResult) : (u.refuse b r).failed = u.failed := rfl
@[simp] theorem FramerUnit.refuse_oversize (u : FramerUnit) (b : FErrs → FErrs) (r : FResult) : (u.refuse b r).oversize = u.oversize := rfl
@[simp] theorem FramerUnit.refuse_busy (u : FramerUnit) (b : FErrs → FErrs) (r : FResult) : (u.refuse b r).busy = u.busy := rfl
@[simp] theorem FramerUnit.refuse_errs (u : FramerUnit) (b : FErrs → FErrs) (r : FResult) : (u.refuse b r).errs = b u.errs := rfl
@[simp] theorem FramerUnit.refuse_result (u : FramerUnit) (b : FErrs → FErrs) (r : FResult) : (u.refuse b r).result = r := rfl
@[simp] theorem FramerUnit.refuse_need (u : FramerUnit) (b : FErrs → FErrs) (r : FResult) : (u.refuse b r).need = u.need := rfl
@[simp] theorem FramerUnit.refuse_total (u : FramerUnit) (b : FErrs → FErrs) (r : FResult) : (u.refuse b r).total = u.total := rfl
@[simp] theorem FramerUnit.refuse_magic (u : FramerUnit) (b : FErrs → FErrs) (r : FResult) : (u.refuse b r).magic = u.magic := rfl
@[simp] theorem FramerUnit.refuse_ptype (u : FramerUnit) (b : FErrs → FErrs) (r : FResult) : (u.refuse b r).ptype = u.ptype := rfl
@[simp] theorem FramerUnit.refuse_plen (u : FramerUnit) (b : FErrs → FErrs) (r : FResult) : (u.refuse b r).plen = u.plen := rfl
@[simp] theorem FramerUnit.refuse_nonce (u : FramerUnit) (b : FErrs → FErrs) (r : FResult) : (u.refuse b r).nonce = u.nonce := rfl
@[simp] theorem FramerUnit.refuse_stg (u : FramerUnit) (b : FErrs → FErrs) (r : FResult) : (u.refuse b r).stg = u.stg := rfl
@[simp] theorem FramerUnit.refuse_stgLen (u : FramerUnit) (b : FErrs → FErrs) (r : FResult) : (u.refuse b r).stgLen = u.stgLen := rfl
@[simp] theorem FramerUnit.refuse_eType (u : FramerUnit) (b : FErrs → FErrs) (r : FResult) : (u.refuse b r).eType = u.eType := rfl
@[simp] theorem FramerUnit.refuse_ePlen (u : FramerUnit) (b : FErrs → FErrs) (r : FResult) : (u.refuse b r).ePlen = u.ePlen := rfl
@[simp] theorem FramerUnit.refuse_eNonce (u : FramerUnit) (b : FErrs → FErrs) (r : FResult) : (u.refuse b r).eNonce = u.eNonce := rfl
@[simp] theorem FramerUnit.refuse_enc (u : FramerUnit) (b : FErrs → FErrs) (r : FResult) : (u.refuse b r).enc = u.enc := rfl

/-! `FramerUnit.fail`: a framing failure (R240). -/

@[simp] theorem FramerUnit.fail_asm (u : FramerUnit) (b : FErrs → FErrs) (r : FResult) : (u.fail b r).asm = u.asm := rfl
@[simp] theorem FramerUnit.fail_pktValid (u : FramerUnit) (b : FErrs → FErrs) (r : FResult) : (u.fail b r).pktValid = u.pktValid := rfl
@[simp] theorem FramerUnit.fail_hdrValid (u : FramerUnit) (b : FErrs → FErrs) (r : FResult) : (u.fail b r).hdrValid = u.hdrValid := rfl
@[simp] theorem FramerUnit.fail_failed (u : FramerUnit) (b : FErrs → FErrs) (r : FResult) : (u.fail b r).failed = true := rfl
@[simp] theorem FramerUnit.fail_oversize (u : FramerUnit) (b : FErrs → FErrs) (r : FResult) : (u.fail b r).oversize = u.oversize := rfl
@[simp] theorem FramerUnit.fail_busy (u : FramerUnit) (b : FErrs → FErrs) (r : FResult) : (u.fail b r).busy = u.busy := rfl
@[simp] theorem FramerUnit.fail_errs (u : FramerUnit) (b : FErrs → FErrs) (r : FResult) : (u.fail b r).errs = b u.errs := rfl
@[simp] theorem FramerUnit.fail_result (u : FramerUnit) (b : FErrs → FErrs) (r : FResult) : (u.fail b r).result = r := rfl
@[simp] theorem FramerUnit.fail_need (u : FramerUnit) (b : FErrs → FErrs) (r : FResult) : (u.fail b r).need = 0 := rfl
@[simp] theorem FramerUnit.fail_total (u : FramerUnit) (b : FErrs → FErrs) (r : FResult) : (u.fail b r).total = u.total := rfl
@[simp] theorem FramerUnit.fail_magic (u : FramerUnit) (b : FErrs → FErrs) (r : FResult) : (u.fail b r).magic = u.magic := rfl
@[simp] theorem FramerUnit.fail_ptype (u : FramerUnit) (b : FErrs → FErrs) (r : FResult) : (u.fail b r).ptype = u.ptype := rfl
@[simp] theorem FramerUnit.fail_plen (u : FramerUnit) (b : FErrs → FErrs) (r : FResult) : (u.fail b r).plen = u.plen := rfl
@[simp] theorem FramerUnit.fail_nonce (u : FramerUnit) (b : FErrs → FErrs) (r : FResult) : (u.fail b r).nonce = u.nonce := rfl
@[simp] theorem FramerUnit.fail_stg (u : FramerUnit) (b : FErrs → FErrs) (r : FResult) : (u.fail b r).stg = u.stg := rfl
@[simp] theorem FramerUnit.fail_stgLen (u : FramerUnit) (b : FErrs → FErrs) (r : FResult) : (u.fail b r).stgLen = u.stgLen := rfl
@[simp] theorem FramerUnit.fail_eType (u : FramerUnit) (b : FErrs → FErrs) (r : FResult) : (u.fail b r).eType = u.eType := rfl
@[simp] theorem FramerUnit.fail_ePlen (u : FramerUnit) (b : FErrs → FErrs) (r : FResult) : (u.fail b r).ePlen = u.ePlen := rfl
@[simp] theorem FramerUnit.fail_eNonce (u : FramerUnit) (b : FErrs → FErrs) (r : FResult) : (u.fail b r).eNonce = u.eNonce := rfl
@[simp] theorem FramerUnit.fail_enc (u : FramerUnit) (b : FErrs → FErrs) (r : FResult) : (u.fail b r).enc = u.enc := rfl

/-! `FramerUnit.clearParse`: the parse outcome cleared. -/

@[simp] theorem FramerUnit.clearParse_asm (u : FramerUnit) : (u.clearParse).asm = u.asm := rfl
@[simp] theorem FramerUnit.clearParse_pktValid (u : FramerUnit) : (u.clearParse).pktValid = false := rfl
@[simp] theorem FramerUnit.clearParse_hdrValid (u : FramerUnit) : (u.clearParse).hdrValid = false := rfl
@[simp] theorem FramerUnit.clearParse_failed (u : FramerUnit) : (u.clearParse).failed = u.failed := rfl
@[simp] theorem FramerUnit.clearParse_oversize (u : FramerUnit) : (u.clearParse).oversize = false := rfl
@[simp] theorem FramerUnit.clearParse_busy (u : FramerUnit) : (u.clearParse).busy = u.busy := rfl
@[simp] theorem FramerUnit.clearParse_errs (u : FramerUnit) : (u.clearParse).errs = u.errs := rfl
@[simp] theorem FramerUnit.clearParse_result (u : FramerUnit) : (u.clearParse).result = u.result := rfl
@[simp] theorem FramerUnit.clearParse_need (u : FramerUnit) : (u.clearParse).need = 0 := rfl
@[simp] theorem FramerUnit.clearParse_total (u : FramerUnit) : (u.clearParse).total = 0 := rfl
@[simp] theorem FramerUnit.clearParse_magic (u : FramerUnit) : (u.clearParse).magic = u.magic := rfl
@[simp] theorem FramerUnit.clearParse_ptype (u : FramerUnit) : (u.clearParse).ptype = u.ptype := rfl
@[simp] theorem FramerUnit.clearParse_plen (u : FramerUnit) : (u.clearParse).plen = u.plen := rfl
@[simp] theorem FramerUnit.clearParse_nonce (u : FramerUnit) : (u.clearParse).nonce = u.nonce := rfl
@[simp] theorem FramerUnit.clearParse_stg (u : FramerUnit) : (u.clearParse).stg = u.stg := rfl
@[simp] theorem FramerUnit.clearParse_stgLen (u : FramerUnit) : (u.clearParse).stgLen = u.stgLen := rfl
@[simp] theorem FramerUnit.clearParse_eType (u : FramerUnit) : (u.clearParse).eType = u.eType := rfl
@[simp] theorem FramerUnit.clearParse_ePlen (u : FramerUnit) : (u.clearParse).ePlen = u.ePlen := rfl
@[simp] theorem FramerUnit.clearParse_eNonce (u : FramerUnit) : (u.clearParse).eNonce = u.eNonce := rfl
@[simp] theorem FramerUnit.clearParse_enc (u : FramerUnit) : (u.clearParse).enc = u.enc := rfl

/-! `FramerUnit.loadHeader`: only the header registers change (R40, R200). -/

@[simp] theorem FramerUnit.loadHeader_asm (u : FramerUnit) (h : Vector Byte 25) : (u.loadHeader h).asm = u.asm := by rw [FramerUnit.loadHeader]
@[simp] theorem FramerUnit.loadHeader_pktValid (u : FramerUnit) (h : Vector Byte 25) : (u.loadHeader h).pktValid = u.pktValid := by rw [FramerUnit.loadHeader]
@[simp] theorem FramerUnit.loadHeader_hdrValid (u : FramerUnit) (h : Vector Byte 25) : (u.loadHeader h).hdrValid = u.hdrValid := by rw [FramerUnit.loadHeader]
@[simp] theorem FramerUnit.loadHeader_failed (u : FramerUnit) (h : Vector Byte 25) : (u.loadHeader h).failed = u.failed := by rw [FramerUnit.loadHeader]
@[simp] theorem FramerUnit.loadHeader_oversize (u : FramerUnit) (h : Vector Byte 25) : (u.loadHeader h).oversize = u.oversize := by rw [FramerUnit.loadHeader]
@[simp] theorem FramerUnit.loadHeader_busy (u : FramerUnit) (h : Vector Byte 25) : (u.loadHeader h).busy = u.busy := by rw [FramerUnit.loadHeader]
@[simp] theorem FramerUnit.loadHeader_errs (u : FramerUnit) (h : Vector Byte 25) : (u.loadHeader h).errs = u.errs := by rw [FramerUnit.loadHeader]
@[simp] theorem FramerUnit.loadHeader_result (u : FramerUnit) (h : Vector Byte 25) : (u.loadHeader h).result = u.result := by rw [FramerUnit.loadHeader]
@[simp] theorem FramerUnit.loadHeader_need (u : FramerUnit) (h : Vector Byte 25) : (u.loadHeader h).need = u.need := by rw [FramerUnit.loadHeader]
@[simp] theorem FramerUnit.loadHeader_total (u : FramerUnit) (h : Vector Byte 25) : (u.loadHeader h).total = u.total := by rw [FramerUnit.loadHeader]
@[simp] theorem FramerUnit.loadHeader_magic (u : FramerUnit) (h : Vector Byte 25) : (u.loadHeader h).magic = be32 h[0] h[1] h[2] h[3] := by rw [FramerUnit.loadHeader]
@[simp] theorem FramerUnit.loadHeader_ptype (u : FramerUnit) (h : Vector Byte 25) : (u.loadHeader h).ptype = h[4] := by rw [FramerUnit.loadHeader]
@[simp] theorem FramerUnit.loadHeader_plen (u : FramerUnit) (h : Vector Byte 25) : (u.loadHeader h).plen = be32 h[5] h[6] h[7] h[8] := by rw [FramerUnit.loadHeader]
@[simp] theorem FramerUnit.loadHeader_nonce (u : FramerUnit) (h : Vector Byte 25) : (u.loadHeader h).nonce = Vector.ofFn fun i => h[9 + i.val] := by rw [FramerUnit.loadHeader]
@[simp] theorem FramerUnit.loadHeader_stg (u : FramerUnit) (h : Vector Byte 25) : (u.loadHeader h).stg = u.stg := by rw [FramerUnit.loadHeader]
@[simp] theorem FramerUnit.loadHeader_stgLen (u : FramerUnit) (h : Vector Byte 25) : (u.loadHeader h).stgLen = u.stgLen := by rw [FramerUnit.loadHeader]
@[simp] theorem FramerUnit.loadHeader_eType (u : FramerUnit) (h : Vector Byte 25) : (u.loadHeader h).eType = u.eType := by rw [FramerUnit.loadHeader]
@[simp] theorem FramerUnit.loadHeader_ePlen (u : FramerUnit) (h : Vector Byte 25) : (u.loadHeader h).ePlen = u.ePlen := by rw [FramerUnit.loadHeader]
@[simp] theorem FramerUnit.loadHeader_eNonce (u : FramerUnit) (h : Vector Byte 25) : (u.loadHeader h).eNonce = u.eNonce := by rw [FramerUnit.loadHeader]
@[simp] theorem FramerUnit.loadHeader_enc (u : FramerUnit) (h : Vector Byte 25) : (u.loadHeader h).enc = u.enc := by rw [FramerUnit.loadHeader]

/-! `FramerUnit.staged`: the head of `ASM` in the staging area and the header registers (R226). -/

@[simp] theorem FramerUnit.staged_asm (u : FramerUnit) : (u.staged).asm = u.asm := by rw [FramerUnit.staged, FramerUnit.loadHeader]
@[simp] theorem FramerUnit.staged_pktValid (u : FramerUnit) : (u.staged).pktValid = false := by rw [FramerUnit.staged, FramerUnit.loadHeader]
@[simp] theorem FramerUnit.staged_hdrValid (u : FramerUnit) : (u.staged).hdrValid = false := by rw [FramerUnit.staged, FramerUnit.loadHeader]
@[simp] theorem FramerUnit.staged_failed (u : FramerUnit) : (u.staged).failed = u.failed := by rw [FramerUnit.staged, FramerUnit.loadHeader]
@[simp] theorem FramerUnit.staged_oversize (u : FramerUnit) : (u.staged).oversize = false := by rw [FramerUnit.staged, FramerUnit.loadHeader]
@[simp] theorem FramerUnit.staged_busy (u : FramerUnit) : (u.staged).busy = u.busy := by rw [FramerUnit.staged, FramerUnit.loadHeader]
@[simp] theorem FramerUnit.staged_errs (u : FramerUnit) : (u.staged).errs = u.errs := by rw [FramerUnit.staged, FramerUnit.loadHeader]
@[simp] theorem FramerUnit.staged_result (u : FramerUnit) : (u.staged).result = u.result := by rw [FramerUnit.staged, FramerUnit.loadHeader]
@[simp] theorem FramerUnit.staged_need (u : FramerUnit) : (u.staged).need = u.need := by rw [FramerUnit.staged, FramerUnit.loadHeader]
@[simp] theorem FramerUnit.staged_total (u : FramerUnit) : (u.staged).total = 0 := by rw [FramerUnit.staged, FramerUnit.loadHeader]
@[simp] theorem FramerUnit.staged_magic (u : FramerUnit) : (u.staged).magic = be32 u.headBytes[0] u.headBytes[1] u.headBytes[2] u.headBytes[3] := by rw [FramerUnit.staged, FramerUnit.loadHeader]
@[simp] theorem FramerUnit.staged_ptype (u : FramerUnit) : (u.staged).ptype = u.headBytes[4] := by rw [FramerUnit.staged, FramerUnit.loadHeader]
@[simp] theorem FramerUnit.staged_plen (u : FramerUnit) : (u.staged).plen = be32 u.headBytes[5] u.headBytes[6] u.headBytes[7] u.headBytes[8] := by rw [FramerUnit.staged, FramerUnit.loadHeader]
@[simp] theorem FramerUnit.staged_nonce (u : FramerUnit) : (u.staged).nonce = Vector.ofFn fun i => u.headBytes[9 + i.val] := by rw [FramerUnit.staged, FramerUnit.loadHeader]
@[simp] theorem FramerUnit.staged_stg (u : FramerUnit) : (u.staged).stg = u.headBytes := by rw [FramerUnit.staged, FramerUnit.loadHeader]
@[simp] theorem FramerUnit.staged_stgLen (u : FramerUnit) : (u.staged).stgLen = 25 := by rw [FramerUnit.staged, FramerUnit.loadHeader]
@[simp] theorem FramerUnit.staged_eType (u : FramerUnit) : (u.staged).eType = u.eType := by rw [FramerUnit.staged, FramerUnit.loadHeader]
@[simp] theorem FramerUnit.staged_ePlen (u : FramerUnit) : (u.staged).ePlen = u.ePlen := by rw [FramerUnit.staged, FramerUnit.loadHeader]
@[simp] theorem FramerUnit.staged_eNonce (u : FramerUnit) : (u.staged).eNonce = u.eNonce := by rw [FramerUnit.staged, FramerUnit.loadHeader]
@[simp] theorem FramerUnit.staged_enc (u : FramerUnit) : (u.staged).enc = u.enc := by rw [FramerUnit.staged, FramerUnit.loadHeader]

/-! `FramerUnit.writeStatus`: only the sticky bits change (R28). -/

@[simp] theorem FramerUnit.writeStatus_asm (u : FramerUnit) (w : Word) : (u.writeStatus w).asm = u.asm := rfl
@[simp] theorem FramerUnit.writeStatus_pktValid (u : FramerUnit) (w : Word) : (u.writeStatus w).pktValid = u.pktValid := rfl
@[simp] theorem FramerUnit.writeStatus_hdrValid (u : FramerUnit) (w : Word) : (u.writeStatus w).hdrValid = u.hdrValid := rfl
@[simp] theorem FramerUnit.writeStatus_failed (u : FramerUnit) (w : Word) : (u.writeStatus w).failed = u.failed := rfl
@[simp] theorem FramerUnit.writeStatus_oversize (u : FramerUnit) (w : Word) : (u.writeStatus w).oversize = u.oversize := rfl
@[simp] theorem FramerUnit.writeStatus_busy (u : FramerUnit) (w : Word) : (u.writeStatus w).busy = u.busy := rfl
@[simp] theorem FramerUnit.writeStatus_errs (u : FramerUnit) (w : Word) : (u.writeStatus w).errs = u.errs.clear w := rfl
@[simp] theorem FramerUnit.writeStatus_result (u : FramerUnit) (w : Word) : (u.writeStatus w).result = u.result := rfl
@[simp] theorem FramerUnit.writeStatus_need (u : FramerUnit) (w : Word) : (u.writeStatus w).need = u.need := rfl
@[simp] theorem FramerUnit.writeStatus_total (u : FramerUnit) (w : Word) : (u.writeStatus w).total = u.total := rfl
@[simp] theorem FramerUnit.writeStatus_magic (u : FramerUnit) (w : Word) : (u.writeStatus w).magic = u.magic := rfl
@[simp] theorem FramerUnit.writeStatus_ptype (u : FramerUnit) (w : Word) : (u.writeStatus w).ptype = u.ptype := rfl
@[simp] theorem FramerUnit.writeStatus_plen (u : FramerUnit) (w : Word) : (u.writeStatus w).plen = u.plen := rfl
@[simp] theorem FramerUnit.writeStatus_nonce (u : FramerUnit) (w : Word) : (u.writeStatus w).nonce = u.nonce := rfl
@[simp] theorem FramerUnit.writeStatus_stg (u : FramerUnit) (w : Word) : (u.writeStatus w).stg = u.stg := rfl
@[simp] theorem FramerUnit.writeStatus_stgLen (u : FramerUnit) (w : Word) : (u.writeStatus w).stgLen = u.stgLen := rfl
@[simp] theorem FramerUnit.writeStatus_eType (u : FramerUnit) (w : Word) : (u.writeStatus w).eType = u.eType := rfl
@[simp] theorem FramerUnit.writeStatus_ePlen (u : FramerUnit) (w : Word) : (u.writeStatus w).ePlen = u.ePlen := rfl
@[simp] theorem FramerUnit.writeStatus_eNonce (u : FramerUnit) (w : Word) : (u.writeStatus w).eNonce = u.eNonce := rfl
@[simp] theorem FramerUnit.writeStatus_enc (u : FramerUnit) (w : Word) : (u.writeStatus w).enc = u.enc := rfl

/-! `FramerUnit.encodeHeader`: R202. -/

@[simp] theorem FramerUnit.encodeHeader_asm (u : FramerUnit) : (u.encodeHeader).asm = u.asm := by rw [FramerUnit.encodeHeader]
@[simp] theorem FramerUnit.encodeHeader_pktValid (u : FramerUnit) : (u.encodeHeader).pktValid = u.pktValid := by rw [FramerUnit.encodeHeader]
@[simp] theorem FramerUnit.encodeHeader_hdrValid (u : FramerUnit) : (u.encodeHeader).hdrValid = u.hdrValid := by rw [FramerUnit.encodeHeader]
@[simp] theorem FramerUnit.encodeHeader_failed (u : FramerUnit) : (u.encodeHeader).failed = u.failed := by rw [FramerUnit.encodeHeader]
@[simp] theorem FramerUnit.encodeHeader_oversize (u : FramerUnit) : (u.encodeHeader).oversize = u.oversize := by rw [FramerUnit.encodeHeader]
@[simp] theorem FramerUnit.encodeHeader_busy (u : FramerUnit) : (u.encodeHeader).busy = u.busy := by rw [FramerUnit.encodeHeader]
@[simp] theorem FramerUnit.encodeHeader_errs (u : FramerUnit) : (u.encodeHeader).errs = u.errs := by rw [FramerUnit.encodeHeader]
@[simp] theorem FramerUnit.encodeHeader_result (u : FramerUnit) : (u.encodeHeader).result = .ok := by rw [FramerUnit.encodeHeader]
@[simp] theorem FramerUnit.encodeHeader_need (u : FramerUnit) : (u.encodeHeader).need = u.need := by rw [FramerUnit.encodeHeader]
@[simp] theorem FramerUnit.encodeHeader_total (u : FramerUnit) : (u.encodeHeader).total = u.total := by rw [FramerUnit.encodeHeader]
@[simp] theorem FramerUnit.encodeHeader_magic (u : FramerUnit) : (u.encodeHeader).magic = u.magic := by rw [FramerUnit.encodeHeader]
@[simp] theorem FramerUnit.encodeHeader_ptype (u : FramerUnit) : (u.encodeHeader).ptype = u.ptype := by rw [FramerUnit.encodeHeader]
@[simp] theorem FramerUnit.encodeHeader_plen (u : FramerUnit) : (u.encodeHeader).plen = u.plen := by rw [FramerUnit.encodeHeader]
@[simp] theorem FramerUnit.encodeHeader_nonce (u : FramerUnit) : (u.encodeHeader).nonce = u.nonce := by rw [FramerUnit.encodeHeader]
@[simp] theorem FramerUnit.encodeHeader_stg (u : FramerUnit) : (u.encodeHeader).stg = u.stg := by rw [FramerUnit.encodeHeader]
@[simp] theorem FramerUnit.encodeHeader_stgLen (u : FramerUnit) : (u.encodeHeader).stgLen = u.stgLen := by rw [FramerUnit.encodeHeader]
@[simp] theorem FramerUnit.encodeHeader_eType (u : FramerUnit) : (u.encodeHeader).eType = u.eType := by rw [FramerUnit.encodeHeader]
@[simp] theorem FramerUnit.encodeHeader_ePlen (u : FramerUnit) : (u.encodeHeader).ePlen = u.ePlen := by rw [FramerUnit.encodeHeader]
@[simp] theorem FramerUnit.encodeHeader_eNonce (u : FramerUnit) : (u.encodeHeader).eNonce = u.eNonce := by rw [FramerUnit.encodeHeader]
@[simp] theorem FramerUnit.encodeHeader_enc (u : FramerUnit) : (u.encodeHeader).enc = hdrEncode u.eType u.ePlen u.eNonce := by rw [FramerUnit.encodeHeader]

/-! `FramerUnit.teardown`: R228. -/

@[simp] theorem FramerUnit.teardown_asm (u : FramerUnit) : (u.teardown).asm = [] := rfl
@[simp] theorem FramerUnit.teardown_pktValid (u : FramerUnit) : (u.teardown).pktValid = false := rfl
@[simp] theorem FramerUnit.teardown_hdrValid (u : FramerUnit) : (u.teardown).hdrValid = false := rfl
@[simp] theorem FramerUnit.teardown_failed (u : FramerUnit) : (u.teardown).failed = false := rfl
@[simp] theorem FramerUnit.teardown_oversize (u : FramerUnit) : (u.teardown).oversize = false := rfl
@[simp] theorem FramerUnit.teardown_busy (u : FramerUnit) : (u.teardown).busy = u.busy := rfl
@[simp] theorem FramerUnit.teardown_errs (u : FramerUnit) : (u.teardown).errs = u.errs := rfl
@[simp] theorem FramerUnit.teardown_result (u : FramerUnit) : (u.teardown).result = .ok := rfl
@[simp] theorem FramerUnit.teardown_need (u : FramerUnit) : (u.teardown).need = 0 := rfl
@[simp] theorem FramerUnit.teardown_total (u : FramerUnit) : (u.teardown).total = 0 := rfl
@[simp] theorem FramerUnit.teardown_magic (u : FramerUnit) : (u.teardown).magic = u.magic := rfl
@[simp] theorem FramerUnit.teardown_ptype (u : FramerUnit) : (u.teardown).ptype = u.ptype := rfl
@[simp] theorem FramerUnit.teardown_plen (u : FramerUnit) : (u.teardown).plen = u.plen := rfl
@[simp] theorem FramerUnit.teardown_nonce (u : FramerUnit) : (u.teardown).nonce = u.nonce := rfl
@[simp] theorem FramerUnit.teardown_stg (u : FramerUnit) : (u.teardown).stg = u.stg := rfl
@[simp] theorem FramerUnit.teardown_stgLen (u : FramerUnit) : (u.teardown).stgLen = u.stgLen := rfl
@[simp] theorem FramerUnit.teardown_eType (u : FramerUnit) : (u.teardown).eType = u.eType := rfl
@[simp] theorem FramerUnit.teardown_ePlen (u : FramerUnit) : (u.teardown).ePlen = u.ePlen := rfl
@[simp] theorem FramerUnit.teardown_eNonce (u : FramerUnit) : (u.teardown).eNonce = u.eNonce := rfl
@[simp] theorem FramerUnit.teardown_enc (u : FramerUnit) : (u.teardown).enc = u.enc := rfl

/-! ### The host's accesses -/

@[simp] theorem State.issued_params (s : State) : s.issued.params = s.params := rfl
@[simp] theorem State.issued_c (s : State) : s.issued.c = s.c := rfl
@[simp] theorem State.issued_f (s : State) : s.issued.f = s.f := rfl
@[simp] theorem State.issued_pending (s : State) : s.issued.pending = s.pending.drop 1 := rfl
@[simp] theorem State.issued_response (s : State) : s.issued.response = s.response := rfl
@[simp] theorem State.placeAccess_pending (s : State) (a : Access) : (s.placeAccess a).pending = a :: s.pending := rfl

/-- Placing an access and issuing it gives the state back. -/
@[simp] theorem State.issued_placeAccess (s : State) (a : Access) : (s.placeAccess a).issued = s := rfl

end Sys2Proof.Machine
end

