-- ==== Sys2Proof/Laws/Bytes.lean ====
section
/-! SUPPORT. Byte order: lanes and the words they make, byte arrays held in registers, and the register pairs of a 64-bit value. -/

namespace Sys2Proof.Machine

theorem lane_getLsbD (w : Word) (i b : Nat) : (lane w i).getLsbD b = (decide (b < 8) && w.getLsbD (8 * i + b)) := by
  simp [lane]

@[simp] theorem lane_ofLanes_zero (b0 b1 b2 b3 : Byte) : lane (ofLanes b0 b1 b2 b3) 0 = b0 := by
  ext i hi
  simp only [lane, ofLanes, BitVec.getElem_extractLsb', BitVec.getLsbD_append]
  simp [hi]

@[simp] theorem lane_ofLanes_one (b0 b1 b2 b3 : Byte) : lane (ofLanes b0 b1 b2 b3) 1 = b1 := by
  ext i hi
  simp only [lane, ofLanes, BitVec.getElem_extractLsb', BitVec.getLsbD_append]
  simp [show ¬(8 + i < 8) by omega, hi]

@[simp] theorem lane_ofLanes_two (b0 b1 b2 b3 : Byte) : lane (ofLanes b0 b1 b2 b3) 2 = b2 := by
  ext i hi
  simp only [lane, ofLanes, BitVec.getElem_extractLsb', BitVec.getLsbD_append]
  simp [show ¬(16 + i < 8) by omega, show ¬(16 + i - 8 < 8) by omega, show 16 + i - 8 - 8 = i by omega, hi]

@[simp] theorem lane_ofLanes_three (b0 b1 b2 b3 : Byte) : lane (ofLanes b0 b1 b2 b3) 3 = b3 := by
  ext i hi
  simp only [lane, ofLanes, BitVec.getElem_extractLsb', BitVec.getLsbD_append]
  simp [show ¬(24 + i < 8) by omega, show ¬(24 + i - 8 < 8) by omega, show ¬(24 + i - 8 - 8 < 8) by omega,
    show 24 + i - 8 - 8 - 8 = i by omega, hi]

/-- Two words with the same four lanes are the same word. -/
theorem word_ext {v w : Word} (h : ∀ j, j < 4 → lane v j = lane w j) : v = w := by
  ext i hi
  have hj := congrArg (fun b : Byte => b.getLsbD (i % 8)) (h (i / 8) (by omega))
  simp only [lane_getLsbD] at hj
  rw [show 8 * (i / 8) + i % 8 = i by omega] at hj
  have : i % 8 < 8 := by omega
  simpa [this, BitVec.getLsbD_eq_getElem hi] using hj

/-- A word is made of its lanes (R85). -/
theorem ofLanes_lanes (w : Word) : ofLanes (lane w 0) (lane w 1) (lane w 2) (lane w 3) = w :=
  word_ext fun j hj => by
    have : j = 0 ∨ j = 1 ∨ j = 2 ∨ j = 3 := by omega
    rcases this with rfl | rfl | rfl | rfl <;> simp

/-- Lane `j` of a word held as four consecutive bytes of a sequence. -/
theorem lane_ofLanes_seq (f : Nat → Byte) (a : Nat) {j : Nat} (hj : j < 4) :
    lane (ofLanes (f a) (f (a + 1)) (f (a + 2)) (f (a + 3))) j = f (a + j) := by
  have : j = 0 ∨ j = 1 ∨ j = 2 ∨ j = 3 := by omega
  rcases this with rfl | rfl | rfl | rfl <;> simp

theorem byteAt_of_lt {n : Nat} (v : Vector Byte n) {i : Nat} (h : i < n) : byteAt v i = v[i] := by simp [byteAt, h]

theorem byteAt_of_ge {n : Nat} (v : Vector Byte n) {i : Nat} (h : n ≤ i) : byteAt v i = 0 := by
  simp [byteAt, Vector.getElem?_eq_none h]

/-- Two byte arrays with the same bytes are the same. -/
theorem vector_ext_byteAt {n : Nat} {v w : Vector Byte n} (h : ∀ i, i < n → byteAt v i = byteAt w i) : v = w := by
  apply Vector.ext
  intro i hi
  have := h i hi
  rwa [byteAt_of_lt _ hi, byteAt_of_lt _ hi] at this

/-- A byte of an array after a word write (R85, R41). -/
theorem byteAt_setWord {n : Nat} (v : Vector Byte n) (k : Nat) (w : Word) (i : Nat) :
    byteAt (setWord v k w) i = if i / 4 = k ∧ i < n then lane w (i % 4) else byteAt v i := by
  by_cases hi : i < n
  · rw [byteAt_of_lt _ hi, byteAt_of_lt _ hi]
    simp only [setWord, Vector.getElem_ofFn, hi, and_true]
  · rw [byteAt_of_ge _ (by omega), byteAt_of_ge _ (by omega), if_neg (by omega)]

/-- Lane `j` of the word read from registers. -/
theorem lane_wordOf {n : Nat} (v : Vector Byte n) (k : Nat) {j : Nat} (hj : j < 4) :
    lane (wordOf v k) j = byteAt v (4 * k + j) := lane_ofLanes_seq (byteAt v) (4 * k) hj

/-- A word of registers reads back as it was written (R84, R85). -/
theorem wordOf_setWord_same {n : Nat} (v : Vector Byte n) (k : Nat) (w : Word) (h : 4 * k + 3 < n) :
    wordOf (setWord v k w) k = w :=
  word_ext fun j hj => by
    rw [lane_wordOf _ _ hj, byteAt_setWord, if_pos (by omega)]
    congr 1
    omega

/-- A write of one word of registers leaves the others. -/
theorem wordOf_setWord_other {n : Nat} (v : Vector Byte n) {k l : Nat} (w : Word) (h : l ≠ k) :
    wordOf (setWord v k w) l = wordOf v l :=
  word_ext fun j hj => by
    rw [lane_wordOf _ _ hj, lane_wordOf _ _ hj, byteAt_setWord, if_neg (by omega)]

@[simp] theorem lowWord_ofWords (hi lo : Word) : lowWord (ofWords hi lo) = lo := by
  ext i hi
  simp only [lowWord, ofWords, BitVec.getElem_extractLsb', BitVec.getLsbD_append]
  simp [hi]

@[simp] theorem highWord_ofWords (hi lo : Word) : highWord (ofWords hi lo) = hi := by
  ext i h
  simp only [highWord, ofWords, BitVec.getElem_extractLsb', BitVec.getLsbD_append]
  simp [show ¬(32 + i < 32) by omega, h]

end Sys2Proof.Machine
end

