-- ==== Sys2Proof/Laws/Memory.lean ====
section
/-! SUPPORT. The byte store: a read after a write, that a write leaves every other index alone, and that every memory operation keeps
the canonical form and the bounds. -/

namespace Sys2Proof.Machine

namespace Cells

@[simp] theorem find?_insert_same (m : List Host.Cell) (a : Nat) (v : Byte) : find? (insert m a v) a = some v := by
  induction m with
  | nil => simp [insert, find?]
  | cons c rest ih =>
    obtain ⟨b, w⟩ := c
    unfold insert
    split
    · simp [find?]
    · split
      · simp [find?]
      · rename_i h
        simp [find?, h, ih]

theorem find?_insert_other (m : List Host.Cell) {a i : Nat} (v : Byte) (h : i ≠ a) :
    find? (insert m a v) i = find? m i := by
  induction m with
  | nil => simp [insert, find?, h]
  | cons c rest ih =>
    obtain ⟨b, w⟩ := c
    unfold insert
    split
    · simp [find?, h]
    · split
      · rename_i hab
        subst hab
        simp [find?, h]
      · simp [find?, ih]

theorem risesFrom_insert (m : List Host.Cell) {k a : Nat} (v : Byte) (hk : k < a) (h : risesFrom k m = true) :
    risesFrom k (insert m a v) = true := by
  induction m generalizing k with
  | nil => simp [insert, risesFrom, hk]
  | cons c rest ih =>
    obtain ⟨b, w⟩ := c
    simp only [risesFrom, Bool.and_eq_true, decide_eq_true_eq] at h
    unfold insert
    split
    · rename_i hab
      simp [risesFrom, hk, hab, h.2]
    · split
      · rename_i hab
        subst hab
        simp [risesFrom, hk, h.2]
      · rename_i h1 h2
        simp only [risesFrom, Bool.and_eq_true, decide_eq_true_eq]
        exact ⟨h.1, ih (by omega) h.2⟩

theorem wf_insert (m : List Host.Cell) (a : Nat) (v : Byte) (h : wf m = true) : wf (insert m a v) = true := by
  cases m with
  | nil => rfl
  | cons c rest =>
    obtain ⟨b, w⟩ := c
    simp only [wf] at h
    unfold insert
    split
    · rename_i hab
      simp [wf, risesFrom, hab, h]
    · split
      · rename_i hab
        subst hab
        simpa [wf] using h
      · simp only [wf]
        exact risesFrom_insert rest v (by omega) h

theorem below_insert (bound : Nat) (m : List Host.Cell) {a : Nat} (v : Byte) (ha : a < bound) (h : below bound m = true) :
    below bound (insert m a v) = true := by
  induction m with
  | nil => simp [insert, below, ha]
  | cons c rest ih =>
    obtain ⟨b, w⟩ := c
    simp only [below, List.all_cons, Bool.and_eq_true, decide_eq_true_eq] at h ih
    unfold insert
    split
    · simp [below, ha, h.1, h.2]
    · split
      · simp [below, ha, h.2]
      · simp only [below, List.all_cons, Bool.and_eq_true, decide_eq_true_eq]
        exact ⟨h.1, ih h.2⟩

end Cells

@[simp] theorem CipherUnit.byte_setByte_same (u : CipherUnit) (i : Nat) (v : Byte) : (u.setByte i v).byte i = v := by
  simp [byte]

theorem CipherUnit.byte_setByte_other (u : CipherUnit) {i j : Nat} (v : Byte) (h : j ≠ i) :
    (u.setByte i v).byte j = u.byte j := by
  simp [byte, Cells.find?_insert_other _ v h]

/-- A write below the bound keeps the byte store in canonical form and inside its bounds. -/
theorem CipherUnit.cbufOk_setByte (u : CipherUnit) (p : Params) {i : Nat} (v : Byte) (hi : i < p.cbufBytes)
    (h : u.cbufOk p = true) : (u.setByte i v).cbufOk p = true := by
  simp only [cbufOk, Bool.and_eq_true, setByte_cbuf] at *
  exact ⟨Cells.wf_insert _ _ _ h.1, Cells.below_insert _ _ _ hi h.2⟩

/-! ### `xorFrom` (R159) -/

/-- Everything `xorFrom` leaves alone: it changes `CBUF` only. -/
theorem CipherUnit.xorFrom_eq (u : CipherUnit) (i : Nat) (ks : List Byte) :
    u.xorFrom i ks = { u with cbuf := (u.xorFrom i ks).cbuf } := by
  induction ks generalizing u i with
  | nil => rfl
  | cons k ks ih =>
    simp only [xorFrom]
    rw [ih]
    rfl

/-- A byte below the transformed range is not touched. -/
theorem CipherUnit.byte_xorFrom_before (u : CipherUnit) (i j : Nat) (ks : List Byte) (h : j < i) :
    (u.xorFrom i ks).byte j = u.byte j := by
  induction ks generalizing u i with
  | nil => rfl
  | cons k ks ih =>
    rw [xorFrom, ih _ _ (by omega), byte_setByte_other _ _ (by omega)]

/-- A byte at or above the transformed range is not touched. -/
theorem CipherUnit.byte_xorFrom_after (u : CipherUnit) (i j : Nat) (ks : List Byte) (h : i + ks.length ≤ j) :
    (u.xorFrom i ks).byte j = u.byte j := by
  induction ks generalizing u i with
  | nil => rfl
  | cons k ks ih =>
    simp only [List.length_cons] at h
    rw [xorFrom, ih _ _ (by omega), byte_setByte_other _ _ (by omega)]

/-- Each byte of the range is XORed with its key byte. -/
theorem CipherUnit.byte_xorFrom_inside (u : CipherUnit) (i n : Nat) (ks : List Byte) (h : n < ks.length) :
    (u.xorFrom i ks).byte (i + n) = u.byte (i + n) ^^^ ks[n] := by
  induction ks generalizing u i n with
  | nil => simp at h
  | cons k ks ih =>
    cases n with
    | zero => simp [xorFrom, byte_xorFrom_before _ (i + 1) i ks (by omega)]
    | succ n =>
      have h' : n < ks.length := by simpa using h
      have e : i + (n + 1) = i + 1 + n := by omega
      rw [xorFrom, e, ih _ _ _ h', byte_setByte_other _ _ (by omega)]
      simp

/-- The transform of a range inside the bounds keeps the byte store in canonical form and inside its bounds. -/
theorem CipherUnit.cbufOk_xorFrom (u : CipherUnit) (p : Params) (i : Nat) (ks : List Byte)
    (hb : i + ks.length ≤ p.cbufBytes) (h : u.cbufOk p = true) : (u.xorFrom i ks).cbufOk p = true := by
  induction ks generalizing u i with
  | nil => exact h
  | cons k ks ih =>
    simp only [List.length_cons] at hb
    exact ih _ _ (by omega) (cbufOk_setByte _ _ _ (by omega) h)

/-! ### The window (R88) -/

/-- Everything a window write leaves alone: it changes `CBUF` only. -/
theorem CipherUnit.setWindowWord_eq (u : CipherUnit) (n w : Nat) (d : Word) :
    u.setWindowWord n w d = { u with cbuf := (u.setWindowWord n w d).cbuf } := by
  unfold setWindowWord
  split <;> rfl

/-- A window write keeps the byte store in canonical form and inside its bounds. -/
theorem CipherUnit.cbufOk_setWindowWord (u : CipherUnit) (p : Params) (w : Nat) (d : Word) (h4 : p.cbufBytes % 4 = 0)
    (h : u.cbufOk p = true) : (u.setWindowWord p.cbufBytes w d).cbufOk p = true := by
  unfold setWindowWord
  split
  · refine cbufOk_setByte _ _ _ (by omega) (cbufOk_setByte _ _ _ (by omega) (cbufOk_setByte _ _ _ (by omega)
      (cbufOk_setByte _ _ _ (by omega) h)))
  · exact h

/-- Memory after reset lists nothing, which is canonical. -/
theorem CipherUnit.cbufOk_reset (draw : Nat) (p : Params) : (CipherUnit.reset draw).cbufOk p = true := rfl

/-- A byte of `CBUF` after reset is the unspecified one of its draw (R46, U1). -/
@[simp] theorem CipherUnit.byte_reset (draw i : Nat) : (CipherUnit.reset draw).byte i = Config.cbufFree draw i := rfl

end Sys2Proof.Machine
end

