-- ==== Sys2Proof/Laws/Ops.lean ====
section
/-! SUPPORT. What the shared operations can do, said once: an operation of a unit, a bus error, and the step. -/

namespace Sys2Proof.Machine

/-- An operation of an idle cipher unit with a result completes. -/
theorem runC_of_some {s : State} {op : CipherUnit → Option CipherUnit} {u : CipherUnit} (hb : s.c.busy = false)
    (h : op s.c = some u) : runC s op = .next { s with c := u, response := .written } := by
  simp [runC, hb, h, State.setC, State.respond]

/-- Everything `runC` can do when it answers a next state: the unit was idle, and only it and the answer change. -/
theorem runC_next {s t : State} {op : CipherUnit → Option CipherUnit} (h : runC s op = .next t) :
    s.c.busy = false ∧ ∃ u, op s.c = some u ∧ t = { s with c := u, response := .written } := by
  unfold runC at h
  split at h
  · cases h
  · rename_i hb
    split at h
    · rename_i u hu
      exact ⟨by simpa using hb, u, hu, by simpa [State.setC, State.respond] using h.symm⟩
    · cases h

/-- An operation of an idle framer unit completes. -/
theorem runF_idle {s : State} (op : FramerUnit → FramerUnit) (hb : s.f.busy = false) :
    runF s op = .next { s with f := op s.f, response := .written } := by
  simp [runF, hb, State.setF, State.respond]

/-- Everything `runF` can do when it answers a next state: the unit was idle, and only it and the answer change. -/
theorem runF_next {s t : State} {op : FramerUnit → FramerUnit} (h : runF s op = .next t) :
    s.f.busy = false ∧ t = { s with f := op s.f, response := .written } := by
  unfold runF at h
  split at h
  · cases h
  · rename_i hb
    exact ⟨by simpa using hb, by simpa [State.setF, State.respond] using h.symm⟩

/-- A busy unit faults, whatever the operation (R350). -/
theorem runC_busy {s : State} (op : CipherUnit → Option CipherUnit) (hb : s.c.busy = true) :
    runC s op = .fault .accessWhileBusy := by simp [runC, hb]

/-- A busy unit faults, whatever the operation (R350). -/
theorem runF_busy {s : State} (op : FramerUnit → FramerUnit) (hb : s.f.busy = true) :
    runF s op = .fault .accessWhileBusy := by simp [runF, hb]

theorem busError_eq (s : State) : busError s = .next { s with response := .busError } := rfl

theorem ignoredWrite_eq (s : State) : ignoredWrite s = .next { s with response := .written } := rfl

/-- The step with an access pending. -/
theorem step_cons {s : State} {a : Access} {rest : List Access} (h : s.pending = a :: rest) :
    step s = match decode a with
      | .ok i => exec i { s with pending := rest }
      | .error _ => .next { s with pending := rest, response := .busError } := by
  obtain ⟨p, c, f, pend, r⟩ := s
  simp only at h
  subst h
  rfl

/-- The step with no access pending. -/
theorem step_nil {s : State} (h : s.pending = []) : step s = .next s := by
  simp [step, h, waitForHost]

/-- Everything a step can do when it answers a next state. -/
theorem step_next {s t : State} (h : step s = .next t) :
    (s.pending = [] ∧ t = s) ∨
    ∃ a rest, s.pending = a :: rest ∧
      ((∃ i, decode a = .ok i ∧ exec i { s with pending := rest } = .next t) ∨
       t = { s with pending := rest, response := .busError }) := by
  cases hp : s.pending with
  | nil =>
    rw [step_nil hp] at h
    exact .inl ⟨rfl, by simpa using h.symm⟩
  | cons a rest =>
    rw [step_cons hp] at h
    refine .inr ⟨a, rest, rfl, ?_⟩
    cases hd : decode a with
    | ok i => exact .inl ⟨i, rfl, by simpa [hd] using h⟩
    | error e => exact .inr (by simpa [hd] using h.symm)

end Sys2Proof.Machine
end

