-- ==== Sys2Proof/Laws/Decode.lean ====
section
/-! SUPPORT. The decoder and the address map: the fields of a command word, the opcode maps as functions of the word, and what the
named offsets are. -/

namespace Sys2Proof

open Sys2Proof.Machine

theorem opField_eq (w : Word) : opField w = w.toNat % 256 := by
  simp [opField, BitVec.extractLsb'_toNat]

theorem rsvField_eq (w : Word) : rsvField w = w.toNat / 256 := by
  have := w.isLt
  simp only [rsvField, BitVec.extractLsb'_toNat, Nat.shiftRight_eq_div_pow]
  omega

/-- R111 and R112 on the number a word is: a word above 6 is illegal. -/
theorem cipherOp_of_gt {w : Word} (h : 6 < w.toNat) : cipherOp w = none := by
  unfold cipherOp
  rw [rsvField_eq, opField_eq]
  split
  · rfl
  · split <;> first | rfl | omega

/-- R111 and R113 on the number a word is: a word above 5 is illegal. -/
theorem framerOp_of_gt {w : Word} (h : 5 < w.toNat) : framerOp w = none := by
  unfold framerOp
  rw [rsvField_eq, opField_eq]
  split
  · rfl
  · split <;> first | rfl | omega

/-- A legal cipher word is one of the seven of R112. -/
theorem word_le_six {w : Word} (h : w.toNat ≤ 6) : w = 0 ∨ w = 1 ∨ w = 2 ∨ w = 3 ∨ w = 4 ∨ w = 5 ∨ w = 6 := by
  have : w.toNat = 0 ∨ w.toNat = 1 ∨ w.toNat = 2 ∨ w.toNat = 3 ∨ w.toNat = 4 ∨ w.toNat = 5 ∨ w.toNat = 6 := by omega
  simpa [← BitVec.toNat_inj] using this

/-- A legal framer word is one of the six of R113. -/
theorem word_le_five {w : Word} (h : w.toNat ≤ 5) : w = 0 ∨ w = 1 ∨ w = 2 ∨ w = 3 ∨ w = 4 ∨ w = 5 := by
  have : w.toNat = 0 ∨ w.toNat = 1 ∨ w.toNat = 2 ∨ w.toNat = 3 ∨ w.toNat = 4 ∨ w.toNat = 5 := by omega
  simpa [← BitVec.toNat_inj] using this

namespace Machine

/-- A window word of `CBUF` (R88). -/
theorem regAt_cbuf {off : Nat} (h1 : 0x2000 ≤ off) (h2 : off < 0x4000) : regAt off = .cbufWord ((off - 0x2000) / 4) := by
  simp [regAt, h1, h2]

/-- A window word of `F_WIN` (R89). -/
theorem regAt_fwin {off : Nat} (h1 : 0x4000 ≤ off) (h2 : off < 0x8000) : regAt off = .fWinWord ((off - 0x4000) / 4) := by
  have : ¬(off < 0x4000) := by omega
  simp [regAt, h1, h2, this]

/-- Outside the windows an offset names what the register rows of R92 say. -/
theorem regAt_register {off : Nat} (h : off < 0x2000) : regAt off = (registerMap.lookup off).getD .reserved := by
  have h1 : ¬(0x2000 ≤ off) := by omega
  have h2 : ¬(0x4000 ≤ off) := by omega
  simp [regAt, h1, h2]

/-- No two rows of the register map have one offset (R92). -/
theorem registerMap_distinct : (registerMap.map Prod.fst).Nodup := by decide

theorem lookup_mem {off : Nat} {r : Reg} : ∀ {m : List (Nat × Reg)}, m.lookup off = some r → (off, r) ∈ m
  | [], h => by simp at h
  | (a, b) :: m, h => by
    rw [List.lookup_cons] at h
    split at h
    · rename_i hab
      simp only [beq_iff_eq] at hab
      simp_all
    · exact List.mem_cons_of_mem _ (lookup_mem h)

/-- An offset that names a register and no window word is a row of the register map. -/
theorem mem_registerMap {off : Nat} {r : Reg} (h : regAt off = r) (h0 : r ≠ .reserved) (h1 : ∀ i, r ≠ .cbufWord i)
    (h2 : ∀ i, r ≠ .fWinWord i) : (off, r) ∈ registerMap := by
  unfold regAt at h
  split at h
  · exact absurd h.symm (h1 _)
  · split at h
    · exact absurd h.symm (h2 _)
    · cases hl : registerMap.lookup off with
      | none => rw [hl] at h; exact absurd h.symm h0
      | some r' =>
        rw [hl] at h
        simp only [Option.getD_some] at h
        subst h
        exact lookup_mem hl

/-- The offset of each row of the register map names its register. -/
theorem regAt_of_row : ∀ row ∈ registerMap, regAt row.1 = row.2 := by decide

/-- What the register rows give for an offset in the range of the key registers (R92). -/
theorem regAt_key : ∀ k : Fin 8, regAt (0x0140 + 4 * k.val) = .cKey k := by decide

/-- An accepted write that no other row names decodes to a well-formed plain write. -/
theorem decodeWrite_wellFormed {off : Nat} {w : Word} (h4 : off % 4 = 0) (h8 : off < 0x8000) :
    (decodeWrite off w).wellFormed = true := by
  unfold decodeWrite
  split
  · rename_i hr
    have hm := mem_registerMap hr (by simp) (by simp) (by simp)
    have ho : off = 0x0100 := (by decide : ∀ row ∈ registerMap, row.2 = .cCmd → row.1 = 0x0100) _ hm rfl
    subst ho
    by_cases hw : w.toNat ≤ 6
    · rcases word_le_six hw with rfl | rfl | rfl | rfl | rfl | rfl | rfl <;> rfl
    · rw [cipherOp_of_gt (by omega)]
      simp [Instr.wellFormed, accepted, claimedWrite]
      omega
  · rename_i hr
    have hm := mem_registerMap hr (by simp) (by simp) (by simp)
    have ho : off = 0x0200 := (by decide : ∀ row ∈ registerMap, row.2 = .fCmd → row.1 = 0x0200) _ hm rfl
    subst ho
    by_cases hw : w.toNat ≤ 5
    · rcases word_le_five hw with rfl | rfl | rfl | rfl | rfl | rfl <;> rfl
    · rw [framerOp_of_gt (by omega)]
      simp [Instr.wellFormed, accepted, claimedWrite]
      omega
  · rfl
  · rfl
  · rename_i hr
    have hm := mem_registerMap hr (by simp) (by simp) (by simp)
    have ho : off = 0x0010 := (by decide : ∀ row ∈ registerMap, row.2 = .sysReset → row.1 = 0x0010) _ hm rfl
    subst ho
    split
    · rfl
    · rename_i hw
      simp only [Instr.wellFormed, accepted, claimedWrite]
      simpa using hw
  · rfl
  · rename_i n1 n2 n3 n4 n5 n6
    simp only [Instr.wellFormed, accepted, claimedWrite, Bool.and_eq_true, decide_eq_true_eq, Bool.not_eq_true',
      Bool.or_eq_false_iff, Bool.and_eq_false_iff, decide_eq_false_iff_not]
    refine ⟨⟨h4, h8⟩, ⟨⟨⟨⟨?_, ?_⟩, ?_⟩, ?_⟩, ?_⟩, ?_⟩
    · exact .inl fun h => n1 (h ▸ by decide)
    · exact .inl fun h => n2 (h ▸ by decide)
    · exact fun h => n3 (h ▸ by decide)
    · exact fun h => n4 (h ▸ by decide)
    · exact .inl fun h => n5 (h ▸ by decide)
    · by_contra hcon
      have hk := regAt_key ⟨(off - 0x140) / 4, by omega⟩
      have e : 0x140 + 4 * ((off - 0x140) / 4) = off := by omega
      simp only [e] at hk
      exact n6 _ hk

/-- Whatever the decoder answers is well-formed. -/
theorem decode_wellFormed {a : Access} {i : Instr} (h : decode a = .ok i) : i.wellFormed = true := by
  cases a with
  | read bits off =>
    simp only [decode, accessError] at h
    split at h
    · cases h
    · rename_i hn
      split at hn
      · cases hn
      · split at hn
        · cases hn
        · split at hn
          · cases hn
          · rename_i h4 h8
            simp only [Except.ok.injEq] at h
            subst h
            simp only [Instr.wellFormed, accepted, Bool.and_eq_true, decide_eq_true_eq]
            omega
  | write bits off w =>
    simp only [decode, accessError] at h
    split at h
    · cases h
    · rename_i hn
      split at hn
      · cases hn
      · split at hn
        · cases hn
        · split at hn
          · cases hn
          · rename_i h4 h8
            simp only [Except.ok.injEq] at h
            subst h
            exact decodeWrite_wellFormed (by omega) (by omega)

/-- The address in the host's map and the offset agree in their low 15 bits, since `BLOCK_BASE` is aligned (R6). -/
theorem hostAddress_low_bits {p : Params} {off : Nat} (h : p.legal = true) (hoff : off < 0x8000) :
    hostAddress p.blockBase off % 0x8000 = off := by
  simp only [Params.legal, Bool.and_eq_true, decide_eq_true_eq] at h
  unfold hostAddress
  omega

end Machine

end Sys2Proof
end

