-- ==== Sys2Proof/Laws/Exec.lean ====
section
/-! SUPPORT. The inversion of `exec`, said once: everything a well-formed instruction can do when it answers a next state. -/

namespace Sys2Proof.Machine

/-- What each cipher instruction does to the cipher unit. -/
inductive CipherStep (p : Params) : Instr → CipherUnit → CipherUnit → Prop
  | nop (u : CipherUnit) : CipherStep p .cNop u u
  | keyset (u : CipherUnit) : CipherStep p .cKeyset u u.setKey
  | keyclr (u : CipherUnit) : CipherStep p .cKeyclr u u.clearKey
  | seed (u : CipherUnit) : CipherStep p .cSeed u (u.deriveSeed (keyedHash p.keyedHash))
  | apply (u v : CipherUnit) (h : u.apply p (keyedHash p.keyedHash) chaosMap = some v) : CipherStep p .cApply u v
  | cont (u v : CipherUnit) (h : u.continueFrom p chaosMap = some v) : CipherStep p .cCont u v
  | ksstart (u v : CipherUnit) (h : u.start p chaosMap = some v) : CipherStep p .cKsstart u v
  | keywr (u : CipherUnit) (k : Fin 8) (w : Word) : CipherStep p (.cKeywr k w) u (u.writeKey k.val w)
  | illegal (u : CipherUnit) (w : Word) : CipherStep p (.hostWr 0x0100 w) u u.illegal
  | store (u : CipherUnit) (off : Nat) (w : Word) (h : (regAt off).owner = .cipher) :
      CipherStep p (.hostWr off w) u (u.store p.cbufBytes (regAt off) w)

/-- What each framer instruction does to the framer unit. -/
inductive FramerStep (p : Params) : Instr → FramerUnit → FramerUnit → Prop
  | nop (u : FramerUnit) : FramerStep p .fNop u u
  | parse (u : FramerUnit) : FramerStep p .fParse u (u.parse p.asmCap)
  | pop (u : FramerUnit) : FramerStep p .fPop u u.pop
  | encode (u : FramerUnit) : FramerStep p .fEncode u u.encodeHeader
  | decode (u : FramerUnit) : FramerStep p .fDecode u u.decodeStaging
  | teardown (u : FramerUnit) : FramerStep p .fReset u u.teardown
  | push8 (u : FramerUnit) (w : Word) : FramerStep p (.fPush8 w) u (u.push p.asmCap [lane w 0])
  | push32 (u : FramerUnit) (w : Word) :
      FramerStep p (.fPush32 w) u (u.push p.asmCap [lane w 0, lane w 1, lane w 2, lane w 3])
  | illegal (u : FramerUnit) (w : Word) : FramerStep p (.hostWr 0x0200 w) u u.illegal
  | store (u : FramerUnit) (off : Nat) (w : Word) (h : (regAt off).owner = .framer) :
      FramerStep p (.hostWr off w) u (u.store (regAt off) w)

/-- What an instruction can do to the state: answer and change nothing, change one unit, or reset the block. -/
inductive Effect (i : Instr) (s t : State) : Prop
  | unchanged (r : Response) (hi : (∃ off, i = .hostRd off) ∨ ∃ off w, i = .hostWr off w)
      (ht : t = { s with response := r })
  | cipher (v : CipherUnit) (hb : s.c.busy = false) (hv : CipherStep s.params i s.c v)
      (ht : t = { s with c := v, response := .written })
  | framer (v : FramerUnit) (hb : s.f.busy = false) (hv : FramerStep s.params i s.f v)
      (ht : t = { s with f := v, response := .written })
  | reset (hi : i = .sysReset)
      (ht : t = { s with c := CipherUnit.reset (s.c.draw + 1), f := FramerUnit.reset, response := .written })

theorem Effect.ofRunC {i : Instr} {s t : State} {op : CipherUnit → Option CipherUnit} (h : runC s op = .next t)
    (hop : ∀ v, op s.c = some v → CipherStep s.params i s.c v) : Effect i s t := by
  obtain ⟨hb, v, hv, ht⟩ := runC_next h
  exact .cipher v hb (hop v hv) ht

theorem Effect.ofRunF {i : Instr} {s t : State} {op : FramerUnit → FramerUnit} (h : runF s op = .next t)
    (hop : FramerStep s.params i s.f (op s.f)) : Effect i s t := by
  obtain ⟨hb, ht⟩ := runF_next h
  exact .framer _ hb hop ht

theorem Effect.ofNext {i : Instr} {s t : State} {r : Response}
    (h : (Host.Outcome.next { s with response := r } : Host.Outcome State Fault Refusal) = .next t)
    (hi : (∃ off, i = .hostRd off) ∨ ∃ off w, i = .hostWr off w) : Effect i s t :=
  .unchanged r hi (by simpa using h.symm)

/-- The key registers are `C_KEY0` to `C_KEY7` (R92). -/
theorem regAt_key_range {off : Nat} {k : Fin 8} (h : regAt off = .cKey k) : 0x0140 ≤ off ∧ off < 0x0160 := by
  have hm := mem_registerMap h (by simp) (by simp) (by simp)
  simp [registerMap, systemMap, cipherMap, keyMap, nonceMap, framerMap, headerNonceMap, stagingMap, encodeInputMap,
    encodeOutputMap] at hm
  omega

/-- The one offset of a register that has one. -/
theorem offset_of_single {off : Nat} {r : Reg} {a : Nat} (h : regAt off = r) (h0 : r ≠ .reserved)
    (h1 : ∀ i, r ≠ .cbufWord i) (h2 : ∀ i, r ≠ .fWinWord i)
    (ha : ∀ row ∈ registerMap, row.2 = r → row.1 = a) : off = a :=
  ha _ (mem_registerMap h h0 h1 h2) rfl

theorem regAt_cCmd {off : Nat} (h : regAt off = .cCmd) : off = 0x0100 :=
  offset_of_single h (by simp) (by simp) (by simp) (by decide)

theorem regAt_fCmd {off : Nat} (h : regAt off = .fCmd) : off = 0x0200 :=
  offset_of_single h (by simp) (by simp) (by simp) (by decide)

theorem regAt_fPush8 {off : Nat} (h : regAt off = .fPush8) : off = 0x0214 :=
  offset_of_single h (by simp) (by simp) (by simp) (by decide)

theorem regAt_fPush32 {off : Nat} (h : regAt off = .fPush32) : off = 0x0218 :=
  offset_of_single h (by simp) (by simp) (by simp) (by decide)

theorem regAt_sysReset {off : Nat} (h : regAt off = .sysReset) : off = 0x0010 :=
  offset_of_single h (by simp) (by simp) (by simp) (by decide)

/-- Everything a plain write can do. -/
theorem Effect.ofPlainWrite {off : Nat} {w : Word} {s t : State} (h : plainWrite (regAt off) w s = .next t) :
    Effect (.hostWr off w) s t := by
  unfold plainWrite at h
  split at h
  · exact .ofNext h (.inr ⟨off, w, rfl⟩)
  · rename_i ho
    exact .ofRunC h fun v hv => by
      simp only [Option.some.injEq] at hv
      subst hv
      exact .store _ _ _ ho
  · rename_i ho
    exact .ofRunF h (.store _ _ _ ho)

/-- Everything a well-formed instruction can do when it answers a next state. -/
theorem exec_next {i : Instr} {s t : State} (hi : i.wellFormed = true) (h : exec i s = .next t) : Effect i s t := by
  cases i with
  | cNop =>
    rw [exec, execCNop] at h
    exact .ofRunC h fun v hv => by
      simp only [Option.some.injEq] at hv
      subst hv
      exact .nop _
  | cKeyset =>
    rw [exec, execCKeyset] at h
    exact .ofRunC h fun v hv => by
      simp only [Option.some.injEq] at hv
      subst hv
      exact .keyset _
  | cKeyclr =>
    rw [exec, execCKeyclr] at h
    exact .ofRunC h fun v hv => by
      simp only [Option.some.injEq] at hv
      subst hv
      exact .keyclr _
  | cSeed =>
    rw [exec, execCSeed] at h
    exact .ofRunC h fun v hv => by
      simp only [Option.some.injEq] at hv
      subst hv
      exact .seed _
  | cApply =>
    rw [exec, execCApply] at h
    exact .ofRunC h fun v hv => .apply _ _ hv
  | cCont =>
    rw [exec, execCCont] at h
    exact .ofRunC h fun v hv => .cont _ _ hv
  | cKsstart =>
    rw [exec, execCKsstart] at h
    exact .ofRunC h fun v hv => .ksstart _ _ hv
  | cKeywr k w =>
    rw [exec, execCKeywr] at h
    exact .ofRunC h fun v hv => by
      simp only [Option.some.injEq] at hv
      subst hv
      exact .keywr _ _ _
  | fNop =>
    rw [exec, execFNop] at h
    exact .ofRunF h (.nop _)
  | fParse =>
    rw [exec, execFParse] at h
    exact .ofRunF h (.parse _)
  | fPop =>
    rw [exec, execFPop] at h
    exact .ofRunF h (.pop _)
  | fEncode =>
    rw [exec, execFEncode] at h
    exact .ofRunF h (.encode _)
  | fDecode =>
    rw [exec, execFDecode] at h
    exact .ofRunF h (.decode _)
  | fReset =>
    rw [exec, execFReset] at h
    exact .ofRunF h (.teardown _)
  | fPush8 w =>
    rw [exec, execFPush8] at h
    exact .ofRunF h (.push8 _ _)
  | fPush32 w =>
    rw [exec, execFPush32] at h
    exact .ofRunF h (.push32 _ _)
  | sysReset => exact .reset rfl (by simpa [exec, execSysReset] using h.symm)
  | hostRd off =>
    simp only [exec, execHostRd] at h
    split at h
    · exact .ofNext h (.inl ⟨off, rfl⟩)
    · split at h
      · cases h
      · exact .ofNext h (.inl ⟨off, rfl⟩)
  | hostWr off w =>
    simp only [Instr.wellFormed, Bool.and_eq_true, Bool.not_eq_true'] at hi
    obtain ⟨ha, hc⟩ := hi
    simp only [exec, execHostWr, ha] at h
    simp only [claimedWrite, Bool.or_eq_false_iff, Bool.and_eq_false_iff, decide_eq_false_iff_not] at hc
    rw [if_neg (by simp)] at h
    split at h
    · rename_i hr
      have ho := regAt_cCmd hr
      subst ho
      rw [writeCipherCommand, cipherOp_of_gt (by omega)] at h
      exact .ofRunC h fun v hv => by simp only [Option.some.injEq] at hv; subst hv; exact .illegal _ _
    · rename_i hr
      have ho := regAt_fCmd hr
      subst ho
      rw [writeFramerCommand, framerOp_of_gt (by omega)] at h
      exact .ofRunF h (.illegal _ _)
    · rename_i hr
      have := regAt_fPush8 hr
      omega
    · rename_i hr
      have := regAt_fPush32 hr
      omega
    · rename_i hr
      have ho := regAt_sysReset hr
      have hw : w ≠ 1 := by
        rcases hc.1.2 with h' | h'
        · exact absurd ho h'
        · exact h'
      rw [if_neg hw] at h
      exact .ofNext h (.inr ⟨off, w, rfl⟩)
    · rename_i hr
      have := regAt_key_range hr
      omega
    · exact .ofPlainWrite h

/-! ### The plain accesses, evaluated -/

/-- A read completes while the owner is idle, or of a status register (R260, R350). -/
theorem exec_hostRd {s : State} {off : Nat} (ha : accepted off = true)
    (hb : ownerBusy s (regAt off) = false ∨ (regAt off).readableWhileBusy = true) :
    exec (.hostRd off) s = .next { s with response := .data (readValue s (regAt off)) } := by
  simp only [exec, execHostRd, ha]
  rw [if_neg (by simp), if_neg]
  · rfl
  · rcases hb with h | h <;> simp [h]

/-- No register's owner is busy while neither unit is. -/
theorem ownerBusy_idle {s : State} (hc : s.c.busy = false) (hf : s.f.busy = false) (r : Reg) : ownerBusy s r = false := by
  unfold ownerBusy
  split <;> simp [hc, hf]

/-- The registers whose write starts an operation (R84). -/
def Reg.startsOperation : Reg → Bool
  | .cCmd | .fCmd | .fPush8 | .fPush32 | .sysReset | .cKey _ => true
  | _ => false

/-- A write to a register that starts nothing is the plain write. -/
theorem exec_hostWr_plain {s : State} {off : Nat} {w : Word} {r : Reg} (ha : accepted off = true) (hr : regAt off = r)
    (hp : r.startsOperation = false) : exec (.hostWr off w) s = plainWrite r w s := by
  simp only [exec, execHostWr, ha]
  rw [if_neg (by simp), hr]
  cases r <;> first | (simp [Reg.startsOperation] at hp; done) | rfl

/-- A plain write to a register of an idle cipher unit. -/
theorem exec_hostWr_cipher {s : State} {off : Nat} {w : Word} {r : Reg} (ha : accepted off = true) (hr : regAt off = r)
    (hp : r.startsOperation = false) (ho : r.owner = .cipher) (hb : s.c.busy = false) :
    exec (.hostWr off w) s = .next { s with c := s.c.store s.params.cbufBytes r w, response := .written } := by
  rw [exec_hostWr_plain ha hr hp, plainWrite, ho]
  exact runC_of_some hb rfl

/-- A plain write to a register of an idle framer unit. -/
theorem exec_hostWr_framer {s : State} {off : Nat} {w : Word} {r : Reg} (ha : accepted off = true) (hr : regAt off = r)
    (hp : r.startsOperation = false) (ho : r.owner = .framer) (hb : s.f.busy = false) :
    exec (.hostWr off w) s = .next { s with f := s.f.store r w, response := .written } := by
  rw [exec_hostWr_plain ha hr hp, plainWrite, ho]
  exact runF_idle _ hb

/-- A plain write to the block's own registers or to a reserved offset. -/
theorem exec_hostWr_system {s : State} {off : Nat} {w : Word} {r : Reg} (ha : accepted off = true) (hr : regAt off = r)
    (hp : r.startsOperation = false) (ho : r.owner = .system) :
    exec (.hostWr off w) s = .next { s with response := .written } := by
  rw [exec_hostWr_plain ha hr hp, plainWrite, ho]
  exact ignoredWrite_eq s

/-- No instruction changes the parameters, and none touches the accesses the host still has to issue. -/
theorem Effect.params_pending {i : Instr} {s t : State} (h : Effect i s t) :
    t.params = s.params ∧ t.pending = s.pending := by
  cases h with
  | unchanged r hi ht => subst ht; exact ⟨rfl, rfl⟩
  | cipher v hb hv ht => subst ht; exact ⟨rfl, rfl⟩
  | framer v hb hv ht => subst ht; exact ⟨rfl, rfl⟩
  | reset hi ht => subst ht; exact ⟨rfl, rfl⟩

/-- Everything a step can do when it answers a next state: wait, perform one well-formed instruction, or answer a bus
error. -/
theorem step_effect {s t : State} (h : step s = .next t) :
    (s.pending = [] ∧ t = s) ∨
    (∃ a rest i, s.pending = a :: rest ∧ decode a = .ok i ∧ i.wellFormed = true ∧ Effect i { s with pending := rest } t) ∨
    (∃ a rest, s.pending = a :: rest ∧ t = { s with pending := rest, response := .busError }) := by
  rcases step_next h with h' | ⟨a, rest, hp, ⟨i, hd, he⟩ | ht⟩
  · exact .inl h'
  · exact .inr (.inl ⟨a, rest, i, hp, hd, decode_wellFormed hd, exec_next (decode_wellFormed hd) he⟩)
  · exact .inr (.inr ⟨a, rest, hp, ht⟩)

end Sys2Proof.Machine
end

