-- ==== Sys2Proof/Laws/Float.lean ====
section
/-! SUPPORT. binary64: which patterns are in `[0, 1]` and `[0, 1)`, and that rounding and the magnitude of a pattern are
monotone. A bound on a rounded result then follows from the one value at the end of the range. -/

namespace Sys2Proof.Machine.F64

/-! ### Patterns -/

theorem isNaN_of_lt {x : F64} (h : x.toNat % 2 ^ 63 ≤ 0x7FF0000000000000) : isNaN x = false := by
  have : ¬(expField x = 2047 ∧ fracField x ≠ 0) := by
    simp only [expField, fracField]
    omega
  simpa [isNaN] using this

theorem isNaN_of_gt {x : F64} (h : 0x7FF0000000000000 < x.toNat % 2 ^ 63) : isNaN x = true := by
  have : expField x = 2047 ∧ fracField x ≠ 0 := by
    simp only [expField, fracField]
    omega
  simpa [isNaN] using this

theorem msb_eq_decide (x : F64) : x.msb = decide (2 ^ 63 ≤ x.toNat) := by
  simp [BitVec.msb_eq_decide]

/-- The order of a pattern without a sign is the pattern. -/
theorem orderKey_of_lt {x : F64} (h : x.toNat < 2 ^ 63) : orderKey x = (x.toNat : Int) := by
  rw [orderKey, msb_eq_decide, decide_eq_false (by omega)]
  simp only [Bool.false_eq_true, if_false]
  omega

/-- The order of a pattern with a sign. -/
theorem orderKey_of_ge {x : F64} (h : 2 ^ 63 ≤ x.toNat) : orderKey x = -((x.toNat % 2 ^ 63 : Nat) : Int) := by
  rw [orderKey, msb_eq_decide, decide_eq_true h]
  rfl

theorem isNaN_zero : isNaN Config.zero = false := by decide
theorem isNaN_one : isNaN Config.one = false := by decide
theorem isNaN_seedMin : isNaN Config.seedMin = false := by decide

/-- The order of two patterns below infinity without a sign is that of the numbers they are. -/
theorem le_iff {x y : F64} (hx : x.toNat ≤ 0x7FF0000000000000) (hy : y.toNat ≤ 0x7FF0000000000000) :
    le x y = true ↔ x.toNat ≤ y.toNat := by
  rw [le, isNaN_of_lt (by omega), isNaN_of_lt (by omega), orderKey_of_lt (by omega), orderKey_of_lt (by omega)]
  simp

theorem lt_iff {x y : F64} (hx : x.toNat ≤ 0x7FF0000000000000) (hy : y.toNat ≤ 0x7FF0000000000000) :
    lt x y = true ↔ x.toNat < y.toNat := by
  rw [lt, isNaN_of_lt (by omega), isNaN_of_lt (by omega), orderKey_of_lt (by omega), orderKey_of_lt (by omega)]
  simp

/-- The pattern of `-0.0`. -/
theorem eq_negZero {x : F64} (h : x.toNat = 2 ^ 63) : x = 0x8000000000000000 := BitVec.eq_of_toNat_eq (by simpa using h)

/-- At least `+0.0`: no sign and no NaN, or `-0.0`. -/
theorem zero_le_iff (x : F64) : le Config.zero x = true ↔ x = 0x8000000000000000 ∨ x.toNat ≤ 0x7FF0000000000000 := by
  have hlt := x.isLt
  have hz : orderKey Config.zero = 0 := by decide
  rw [le, isNaN_zero, hz]
  by_cases hs : 2 ^ 63 ≤ x.toNat
  · rw [orderKey_of_ge hs]
    constructor
    · intro h
      simp only [Bool.not_false, Bool.true_and, Bool.and_eq_true, decide_eq_true_eq] at h
      exact .inl (eq_negZero (by omega))
    · rintro (rfl | h)
      · decide
      · omega
  · rw [orderKey_of_lt (by omega)]
    by_cases hn : x.toNat ≤ 0x7FF0000000000000
    · rw [isNaN_of_lt (by omega)]
      simp [hn]
    · rw [isNaN_of_gt (by omega)]
      simp only [Bool.not_true, Bool.and_false, Bool.false_and, Bool.false_eq_true, false_iff, not_or]
      exact ⟨fun h => by subst h; exact hs (by decide), hn⟩

/-- The closed unit interval, as patterns (R45, R153). -/
theorem inClosedUnit_iff (x : F64) : inClosedUnit x = true ↔ x = 0x8000000000000000 ∨ x.toNat ≤ 0x3FF0000000000000 := by
  rw [inClosedUnit, Bool.and_eq_true, zero_le_iff]
  constructor
  · rintro ⟨rfl | h, h1⟩
    · exact .inl rfl
    · exact .inr ((le_iff h (by decide)).1 h1)
  · rintro (rfl | h)
    · exact ⟨.inl rfl, by decide⟩
    · exact ⟨.inr (by omega), (le_iff (by omega) (by decide)).2 h⟩

/-- The half-open unit interval, as patterns (R153). -/
theorem inUnit_iff (x : F64) : inUnit x = true ↔ x = 0x8000000000000000 ∨ x.toNat < 0x3FF0000000000000 := by
  rw [inUnit, Bool.and_eq_true, zero_le_iff]
  constructor
  · rintro ⟨rfl | h, h1⟩
    · exact .inl rfl
    · exact .inr ((lt_iff h (by decide)).1 h1)
  · rintro (rfl | h)
    · exact ⟨.inl rfl, by decide⟩
    · exact ⟨.inr (by omega), (lt_iff (by omega) (by decide)).2 h⟩

/-- A value of the map is a chaos state. -/
theorem inClosedUnit_of_inUnit {x : F64} (h : inUnit x = true) : inClosedUnit x = true := by
  rw [inClosedUnit_iff]
  rcases (inUnit_iff x).1 h with h | h
  · exact .inl h
  · exact .inr (by omega)

/-! ### Magnitudes -/

/-- The magnitude grows with the pattern, sign apart. -/
theorem magnitude_mono {x y : F64} (hy : y.toNat < 2 ^ 63) (h : x.toNat ≤ y.toNat) : magnitude x ≤ magnitude y := by
  unfold magnitude
  have hx' := Nat.div_add_mod x.toNat (2 ^ 52)
  have hy' := Nat.div_add_mod y.toNat (2 ^ 52)
  have ex : expField x = x.toNat / 2 ^ 52 := by simp only [expField]; omega
  have ey : expField y = y.toNat / 2 ^ 52 := by simp only [expField]; omega
  have fx : fracField x < 2 ^ 52 := Nat.mod_lt _ (by decide)
  have fy : fracField y < 2 ^ 52 := Nat.mod_lt _ (by decide)
  have hxf : fracField x = x.toNat % 2 ^ 52 := rfl
  have hyf : fracField y = y.toNat % 2 ^ 52 := rfl
  rw [← ex, ← hxf] at hx'
  rw [← ey, ← hyf] at hy'
  generalize expField x = a at *
  generalize expField y = b at *
  generalize fracField x = f at *
  generalize fracField y = g at *
  by_cases ha : a = 0
  · by_cases hb : b = 0
    · simp only [ha, hb, if_true] at *
      omega
    · rw [if_pos ha, if_neg hb]
      have : 1 ≤ 2 ^ (b - 1) := Nat.one_le_two_pow
      nlinarith
  · have hab : a ≤ b := by omega
    rw [if_neg ha, if_neg (by omega)]
    rcases Nat.eq_or_lt_of_le hab with rfl | hlt
    · exact Nat.mul_le_mul_right _ (by omega)
    · have h2 : 2 ^ (a - 1) * 2 ≤ 2 ^ (b - 1) := by
        rw [← Nat.pow_succ]
        exact Nat.pow_le_pow_right (by decide) (by omega)
      calc (2 ^ 52 + f) * 2 ^ (a - 1) ≤ 2 ^ 53 * 2 ^ (a - 1) := Nat.mul_le_mul_right _ (by omega)
        _ = 2 ^ 52 * (2 ^ (a - 1) * 2) := by ring
        _ ≤ (2 ^ 52 + g) * 2 ^ (b - 1) := Nat.mul_le_mul (by omega) h2

/-! ### Rounding -/

/-- The rounded quotient is the quotient or one more, and is monotone. -/
theorem roundQuotient_bounds (n d : Nat) : n / d ≤ roundQuotient n d ∧ roundQuotient n d ≤ n / d + 1 := by
  unfold roundQuotient
  dsimp only
  split
  · omega
  · split
    · omega
    · split <;> omega

theorem roundQuotient_mono {n m : Nat} (d : Nat) (h : n ≤ m) : roundQuotient n d ≤ roundQuotient m d := by
  rcases Nat.eq_or_lt_of_le (Nat.div_le_div_right (c := d) h) with he | hlt
  · have hn := Nat.div_add_mod n d
    have hm := Nat.div_add_mod m d
    rw [← he] at hm
    have hr : n % d ≤ m % d := by omega
    unfold roundQuotient
    dsimp only
    rw [← he]
    split_ifs <;> omega
  · have := (roundQuotient_bounds n d).2
    have := (roundQuotient_bounds m d).1
    omega

/-- An exact multiple is not rounded. -/
theorem roundQuotient_mul (q : Nat) {d : Nat} (hd : 0 < d) : roundQuotient (q * d) d = q := by
  unfold roundQuotient
  simp [Nat.mul_div_cancel _ hd, hd]

theorem rne_toNat (n d : Nat) :
    (rne n d).toNat =
      min ((Nat.log2 (n / d) - 52) * 2 ^ 52 + roundQuotient n (d * 2 ^ (Nat.log2 (n / d) - 52))) infinity := by
  have : infinity < 2 ^ 64 := by decide
  rw [rne, BitVec.toNat_ofNat, Nat.mod_eq_of_lt (by omega)]

/-- A rounded value has no sign and is no NaN. -/
theorem rne_le_infinity (n d : Nat) : (rne n d).toNat ≤ 0x7FF0000000000000 := by
  rw [rne_toNat]
  exact Nat.min_le_right ..

/-- Rounding is monotone. -/
theorem rne_mono {n m : Nat} (d : Nat) (h : n ≤ m) : (rne n d).toNat ≤ (rne m d).toNat := by
  rw [rne_toNat, rne_toNat]
  refine min_le_min_right _ ?_
  have hq : n / d ≤ m / d := Nat.div_le_div_right h
  have hs : Nat.log2 (n / d) - 52 ≤ Nat.log2 (m / d) - 52 := by
    rcases Nat.eq_zero_or_pos (n / d) with h0 | h0
    · rw [h0]
      have : Nat.log2 0 = 0 := by decide
      omega
    · have := (Nat.le_log2 (n := m / d) (k := Nat.log2 (n / d)) (by omega)).2
        (Nat.le_trans (Nat.log2_self_le (by omega)) hq)
      omega
  rcases Nat.eq_or_lt_of_le hs with he | hlt
  · rw [he]
    exact Nat.add_le_add_left (roundQuotient_mono _ h) _
  · have h1 : n / d < 2 ^ (Nat.log2 (n / d) - 52 + 53) := by
      refine Nat.lt_of_lt_of_le (Nat.lt_log2_self (n := n / d)) (Nat.pow_le_pow_right (by decide) (by omega))
    have h2 : 2 ^ (Nat.log2 (m / d) - 52 + 52) ≤ m / d := by
      have : Nat.log2 (m / d) - 52 + 52 = Nat.log2 (m / d) := by omega
      rw [this]
      refine Nat.log2_self_le ?_
      intro h0
      rw [h0] at hlt
      have : Nat.log2 0 = 0 := by decide
      omega
    generalize Nat.log2 (n / d) - 52 = s at *
    generalize Nat.log2 (m / d) - 52 = t at *
    have a1 : roundQuotient n (d * 2 ^ s) ≤ 2 ^ 53 := by
      refine Nat.le_trans (roundQuotient_bounds _ _).2 ?_
      rw [← Nat.div_div_eq_div_mul]
      have : n / d / 2 ^ s < 2 ^ 53 := by
        rw [Nat.div_lt_iff_lt_mul (Nat.two_pow_pos s), ← Nat.pow_add, Nat.add_comm]
        exact h1
      omega
    have a2 : 2 ^ 52 ≤ roundQuotient m (d * 2 ^ t) := by
      refine Nat.le_trans ?_ (roundQuotient_bounds _ _).1
      rw [← Nat.div_div_eq_div_mul, Nat.le_div_iff_mul_le (Nat.two_pow_pos t), ← Nat.pow_add, Nat.add_comm]
      exact h2
    have : (s + 1) * 2 ^ 52 ≤ t * 2 ^ 52 := Nat.mul_le_mul_right _ hlt
    omega

/-- Scaling both sides does not change a rounded quotient. -/
theorem roundQuotient_scale (n d : Nat) {c : Nat} (hc : 0 < c) : roundQuotient (n * c) (d * c) = roundQuotient n d := by
  have h1 : n * c / (d * c) = n / d := Nat.mul_div_mul_right n d hc
  have h2 : n * c % (d * c) = n % d * c := Nat.mul_mod_mul_right c n d
  have h3 : 2 * (n % d * c) = 2 * (n % d) * c := by ring
  unfold roundQuotient
  simp only [h1, h2, h3, Nat.mul_lt_mul_right hc]

/-- A rounded quotient is the whole number nearest the quotient; of two that are as near it is the even one. -/
theorem roundQuotient_nearest (n : Nat) {d : Nat} (hd : 0 < d) :
    2 * n ≤ (2 * roundQuotient n d + 1) * d ∧ 2 * roundQuotient n d * d ≤ 2 * n + d ∧
    ((2 * n = (2 * roundQuotient n d + 1) * d ∨ 2 * roundQuotient n d * d = 2 * n + d) → roundQuotient n d % 2 = 0) := by
  have h := Nat.div_add_mod n d
  have hr := Nat.mod_lt n hd
  unfold roundQuotient
  dsimp only
  generalize n / d = q at *
  generalize n % d = r at *
  have e : d * q = q * d := Nat.mul_comm _ _
  have e1 : (2 * q + 1) * d = 2 * (q * d) + d := by ring
  have e2 : (2 * (q + 1) + 1) * d = 2 * (q * d) + 3 * d := by ring
  have e3 : 2 * q * d = 2 * (q * d) := by ring
  have e4 : 2 * (q + 1) * d = 2 * (q * d) + 2 * d := by ring
  split_ifs <;> simp only [e1, e2, e3, e4] <;> omega

/-- The pattern of a rounded value whose quotient has its highest bit at `52 + k`. -/
theorem rne_toNat_of_log {n d k : Nat} (h1 : 2 ^ (52 + k) ≤ n / d) (h2 : n / d < 2 ^ (53 + k))
    (hi : k * 2 ^ 52 + roundQuotient n (d * 2 ^ k) ≤ infinity) :
    (rne n d).toNat = k * 2 ^ 52 + roundQuotient n (d * 2 ^ k) := by
  have hne : n / d ≠ 0 := fun h => by
    have := Nat.two_pow_pos (52 + k)
    omega
  have hl : Nat.log2 (n / d) = 52 + k := by
    have a := (Nat.le_log2 hne).2 h1
    have b := (Nat.log2_lt hne).2 h2
    omega
  rw [rne_toNat, hl, Nat.add_sub_cancel_left, Nat.min_eq_left hi]

/-- The magnitude of the pattern of exponent field `k + 1` over a significand `r` of 53 bits; a significand of `2 ^ 53` has
carried into the exponent. -/
theorem magnitude_of_toNat {x : F64} {k r : Nat} (hk : k < 2046) (h1 : 2 ^ 52 ≤ r) (h2 : r ≤ 2 ^ 53)
    (hx : x.toNat = k * 2 ^ 52 + r) : magnitude x = r * 2 ^ k := by
  have hx63 : x.toNat < 2 ^ 63 := by omega
  have he : expField x = x.toNat / 2 ^ 52 := by simp only [expField]; omega
  rcases Nat.eq_or_lt_of_le h2 with h | h
  · have e1 : expField x = k + 2 := by omega
    have e2 : fracField x = 0 := by simp only [fracField]; omega
    rw [magnitude, e1, e2, if_neg (by omega), h]
    show (2 ^ 52 + 0) * 2 ^ (k + 1) = 2 ^ 53 * 2 ^ k
    ring
  · have e1 : expField x = k + 1 := by omega
    have e2 : fracField x = r - 2 ^ 52 := by simp only [fracField]; omega
    rw [magnitude, e1, e2, if_neg (by omega), Nat.add_sub_cancel' h1]
    rfl

/-! ### The operations on values without a sign -/

theorem mul_of_lt {x y : F64} (hx : x.toNat < 2 ^ 63) (hy : y.toNat < 2 ^ 63) :
    mul x y = rne (magnitude x * magnitude y) unitsPerOne := by
  rw [mul, msb_eq_decide, msb_eq_decide, decide_eq_false (by omega), decide_eq_false (by omega)]
  rfl

theorem div_of_lt {x y : F64} (hx : x.toNat < 2 ^ 63) (hy : y.toNat < 2 ^ 63) :
    div x y = rne (magnitude x * unitsPerOne) (magnitude y) := by
  rw [div, msb_eq_decide, msb_eq_decide, decide_eq_false (by omega), decide_eq_false (by omega)]
  rfl

theorem floor_of_lt {x : F64} (hx : x.toNat < 2 ^ 63) : floor x = ((magnitude x / unitsPerOne : Nat) : Int) := by
  rw [floor, msb_eq_decide, decide_eq_false (by omega)]
  generalize unitsPerOne = n
  simp

theorem ofNat_eq_rne (n : Nat) : ofNat n = rne (n * unitsPerOne) 1 := by
  cases n with
  | zero =>
    rw [Nat.zero_mul]
    decide
  | succ n => rfl

theorem ofNat_le_infinity (n : Nat) : (ofNat n).toNat ≤ 0x7FF0000000000000 := by
  rw [ofNat_eq_rne]
  exact rne_le_infinity _ _

/-- Conversion to binary64 is monotone. -/
theorem ofNat_mono {n m : Nat} (h : n ≤ m) : (ofNat n).toNat ≤ (ofNat m).toNat := by
  rw [ofNat_eq_rne, ofNat_eq_rne]
  exact rne_mono _ (Nat.mul_le_mul_right _ h)

/-- The product with a fixed value is monotone. -/
theorem mul_mono {x y z : F64} (hy : y.toNat < 2 ^ 63) (hz : z.toNat < 2 ^ 63) (h : x.toNat ≤ y.toNat) :
    (mul x z).toNat ≤ (mul y z).toNat := by
  rw [mul_of_lt (by omega) hz, mul_of_lt hy hz]
  exact rne_mono _ (Nat.mul_le_mul_right _ (magnitude_mono hy h))

/-- The quotient by a fixed value is monotone. -/
theorem div_mono {x y z : F64} (hy : y.toNat < 2 ^ 63) (hz : z.toNat < 2 ^ 63) (h : x.toNat ≤ y.toNat) :
    (div x z).toNat ≤ (div y z).toNat := by
  rw [div_of_lt (by omega) hz, div_of_lt hy hz]
  exact rne_mono _ (Nat.mul_le_mul_right _ (magnitude_mono hy h))

end Sys2Proof.Machine.F64

namespace Sys2Proof.Machine

/-- The seed before the fallback is monotone in the magnitude of the seed integer (R155). -/
theorem normalise_mono {a b : Nat} (h : a ≤ b) : (normalise a).toNat ≤ (normalise b).toNat :=
  F64.div_mono (Nat.lt_of_le_of_lt (F64.ofNat_le_infinity _) (by decide))
    (Nat.lt_of_le_of_lt (F64.ofNat_le_infinity _) (by decide)) (F64.ofNat_mono h)

theorem normalise_le_infinity (a : Nat) : (normalise a).toNat ≤ 0x7FF0000000000000 := by
  have h := F64.ofNat_le_infinity
  rw [normalise, F64.div_of_lt (Nat.lt_of_le_of_lt (h _) (by decide)) (Nat.lt_of_le_of_lt (h _) (by decide))]
  exact F64.rne_le_infinity _ _

/-- The magnitude of the seed integer is at most `2^63` (R154). -/
theorem seedInteger_natAbs_le (m8 : Vector Byte 8) : (seedInteger m8).natAbs ≤ 2 ^ 63 := by
  have h1 := BitVec.toInt_lt (x := le64 m8)
  have h2 := BitVec.le_toInt (x := le64 m8)
  unfold seedInteger sint64
  omega

end Sys2Proof.Machine
end

