-- ==== Sys2Proof/Laws/Keystream.lean ====
section
/-! SUPPORT. The keystream (R157): its length, its chunks (R160), and where it exists. -/

namespace Sys2Proof.Machine

/-- One value of the keystream, then the rest. -/
theorem keystream_succ_some {map : F64 → F64} {x : F64} {n : Nat} {k : List Byte} {xl : F64}
    (h : keystream map x (n + 1) = some (k, xl)) :
    F64.inUnit (map x) = true ∧ ∃ ks, k = keyByte (map x) :: ks ∧ keystream map (map x) n = some (ks, xl) := by
  rw [keystream] at h
  split at h
  · rename_i hu
    cases hr : keystream map (map x) n with
    | none => rw [hr] at h; cases h
    | some r =>
      rw [hr] at h
      simp only [Option.map_some, Option.some.injEq, Prod.mk.injEq] at h
      obtain ⟨h1, h2⟩ := h
      exact ⟨hu, r.1, h1.symm, by rw [← h2]⟩
  · cases h

/-- The keystream has one byte for each value (R157). -/
theorem keystream_length {map : F64 → F64} {x : F64} {n : Nat} {k : List Byte} {xl : F64}
    (h : keystream map x n = some (k, xl)) : k.length = n := by
  induction n generalizing x k with
  | zero =>
    simp only [keystream, Option.some.injEq, Prod.mk.injEq] at h
    rw [← h.1]
    rfl
  | succ n ih =>
    obtain ⟨_, ks, rfl, hk⟩ := keystream_succ_some h
    simp [ih hk]

/-- The final state is the seed, when the length is 0, or a value in `[0, 1)`. -/
theorem keystream_final {map : F64 → F64} {x : F64} {n : Nat} {k : List Byte} {xl : F64}
    (h : keystream map x n = some (k, xl)) : (n = 0 ∧ xl = x) ∨ F64.inUnit xl = true := by
  induction n generalizing x k with
  | zero =>
    simp only [keystream, Option.some.injEq, Prod.mk.injEq] at h
    exact .inl ⟨rfl, h.2.symm⟩
  | succ n ih =>
    obtain ⟨hu, ks, rfl, hk⟩ := keystream_succ_some h
    rcases ih hk with ⟨_, rfl⟩ | h'
    · exact .inr hu
    · exact .inr h'

/-- The final state of a keystream from a chaos state is a chaos state (R45). -/
theorem keystream_final_inClosedUnit {map : F64 → F64} {x : F64} {n : Nat} {k : List Byte} {xl : F64}
    (h : keystream map x n = some (k, xl)) (hx : F64.inClosedUnit x = true) : F64.inClosedUnit xl = true := by
  rcases keystream_final h with ⟨_, rfl⟩ | h'
  · exact hx
  · exact F64.inClosedUnit_of_inUnit h'

/-- Where the map stays in `[0, 1)`, the keystream exists. -/
theorem keystream_exists {map : F64 → F64} (hm : ∀ x, F64.inClosedUnit x = true → F64.inUnit (map x) = true) {x : F64}
    (hx : F64.inClosedUnit x = true) (n : Nat) : ∃ k xl, keystream map x n = some (k, xl) := by
  induction n generalizing x with
  | zero => exact ⟨[], x, rfl⟩
  | succ n ih =>
    obtain ⟨k, xl, h⟩ := ih (F64.inClosedUnit_of_inUnit (hm x hx))
    exact ⟨keyByte (map x) :: k, xl, by simp [keystream, hm x hx, h]⟩

/-- A keystream of `m + n` values is one of `m` values and, from its final state, one of `n` (R160). -/
theorem keystream_add (map : F64 → F64) (x : F64) (m n : Nat) :
    keystream map x (m + n) =
      (keystream map x m).bind fun a => (keystream map a.2 n).map fun b => (a.1 ++ b.1, b.2) := by
  induction m generalizing x with
  | zero =>
    rw [Nat.zero_add]
    simp only [keystream, Option.bind_some, List.nil_append]
    cases keystream map x n <;> rfl
  | succ m ih =>
    rw [show m + 1 + n = m + n + 1 by omega]
    simp only [keystream]
    split
    · rw [ih]
      cases keystream map (map x) m with
      | none => rfl
      | some a =>
        simp only [Option.bind_some, Option.map_some]
        cases keystream map a.2 n <;> rfl
    · rfl

end Sys2Proof.Machine
end

