-- ==== Sys2Proof/Laws/Operands.lean ====
section
/-! SUPPORT. What a plain write can do to a unit (R181, R204, R28), said once per unit, and the status words bit by bit. -/

namespace Sys2Proof.Machine

/-- A plain write of the cipher unit touches `C_LEN`, `C_SEED`, `C_NONCE`, `CBUF` and the sticky bits, and nothing else. -/
theorem CipherUnit.store_frame (u : CipherUnit) (n : Nat) (r : Reg) (w : Word) :
    u.store n r w =
      { u with
        nonce := (u.store n r w).nonce, len := (u.store n r w).len, seed := (u.store n r w).seed,
        errs := (u.store n r w).errs, cbuf := (u.store n r w).cbuf } := by
  cases r with
  | cbufWord i =>
    show u.setWindowWord n i w = _
    rw [show u.store n (.cbufWord i) w = u.setWindowWord n i w from rfl, setWindowWord_eq]
  | _ => simp only [store, writeStatus]

@[simp] theorem CipherUnit.store_busy (u : CipherUnit) (n : Nat) (r : Reg) (w : Word) : (u.store n r w).busy = u.busy := by
  rw [store_frame]

@[simp] theorem CipherUnit.store_key (u : CipherUnit) (n : Nat) (r : Reg) (w : Word) : (u.store n r w).key = u.key := by
  rw [store_frame]

@[simp] theorem CipherUnit.store_keyValid (u : CipherUnit) (n : Nat) (r : Reg) (w : Word) :
    (u.store n r w).keyValid = u.keyValid := by
  rw [store_frame]

@[simp] theorem CipherUnit.store_x (u : CipherUnit) (n : Nat) (r : Reg) (w : Word) : (u.store n r w).x = u.x := by
  rw [store_frame]

@[simp] theorem CipherUnit.store_seeded (u : CipherUnit) (n : Nat) (r : Reg) (w : Word) :
    (u.store n r w).seeded = u.seeded := by
  rw [store_frame]

/-- Only a write to `C_STATUS` touches the sticky bits (R28). -/
theorem CipherUnit.store_errs (u : CipherUnit) (n : Nat) (r : Reg) (w : Word) (h : r ≠ .cStatus) :
    (u.store n r w).errs = u.errs := by
  cases r with
  | cStatus => exact absurd rfl h
  | cbufWord i =>
    show (u.setWindowWord n i w).errs = _
    rw [setWindowWord_eq]
  | _ => simp only [store]

/-- A plain write of the framer unit touches the staging area and its length, the encode inputs and the sticky bits, and
nothing else. -/
theorem FramerUnit.store_frame (u : FramerUnit) (r : Reg) (w : Word) :
    u.store r w =
      { u with
        stg := (u.store r w).stg, stgLen := (u.store r w).stgLen, eType := (u.store r w).eType,
        ePlen := (u.store r w).ePlen, eNonce := (u.store r w).eNonce, errs := (u.store r w).errs } := by
  cases r <;> simp only [store, writeStatus]

@[simp] theorem FramerUnit.store_busy (u : FramerUnit) (r : Reg) (w : Word) : (u.store r w).busy = u.busy := by
  rw [store_frame]

@[simp] theorem FramerUnit.store_asm (u : FramerUnit) (r : Reg) (w : Word) : (u.store r w).asm = u.asm := by
  rw [store_frame]

@[simp] theorem FramerUnit.store_failed (u : FramerUnit) (r : Reg) (w : Word) : (u.store r w).failed = u.failed := by
  rw [store_frame]

/-- Only a write to `F_STATUS` touches the sticky bits (R28). -/
theorem FramerUnit.store_errs (u : FramerUnit) (r : Reg) (w : Word) (h : r ≠ .fStatus) : (u.store r w).errs = u.errs := by
  cases r <;> first | exact absurd rfl h | simp only [store]

/-- The window word after its own write reads back (R88). -/
theorem CipherUnit.byte_setWindowWord_inside (u : CipherUnit) (n w : Nat) (d : Word) (h : 4 * w < n) {j : Nat} (hj : j < 4) :
    (u.setWindowWord n w d).byte (4 * w + j) = lane d j := by
  have : j = 0 ∨ j = 1 ∨ j = 2 ∨ j = 3 := by omega
  rw [setWindowWord, if_pos h]
  rcases this with rfl | rfl | rfl | rfl
  · rw [byte_setByte_other _ _ (by omega), byte_setByte_other _ _ (by omega), byte_setByte_other _ _ (by omega)]
    exact byte_setByte_same ..
  · rw [byte_setByte_other _ _ (by omega), byte_setByte_other _ _ (by omega), byte_setByte_same]
  · rw [byte_setByte_other _ _ (by omega), byte_setByte_same]
  · rw [byte_setByte_same]

/-- A window write leaves every byte outside its word (R88). -/
theorem CipherUnit.byte_setWindowWord_outside (u : CipherUnit) (n w : Nat) (d : Word) {a : Nat}
    (ha : a < 4 * w ∨ 4 * w + 4 ≤ a) : (u.setWindowWord n w d).byte a = u.byte a := by
  rw [setWindowWord]
  split
  · repeat rw [byte_setByte_other _ _ (by omega)]
  · rfl

theorem bitAt_getLsbD (b : Bool) (i j : Nat) (hi : i < 32) : (bitAt b i).getLsbD j = (b && decide (i = j)) := by
  unfold bitAt
  cases b
  · simp
  · by_cases h : i = j
    · subst h
      simp [hi]
    · simp [h]
      omega

/-- `C_STATUS` bit by bit (R27). -/
theorem CipherUnit.status_getLsbD (u : CipherUnit) (j : Nat) :
    u.status.getLsbD j =
      ((u.busy && decide (0 = j)) || (u.keyValid && decide (1 = j)) || (u.seeded && decide (2 = j)) ||
       (u.fallback && decide (3 = j)) || (u.errs.noKey && decide (8 = j)) || (u.errs.len && decide (9 = j)) ||
       (u.errs.cmd && decide (10 = j)) || (u.errs.noSeed && decide (11 = j)) || (u.errs.seed && decide (12 = j))) := by
  simp only [status, BitVec.getLsbD_or]
  rw [bitAt_getLsbD _ _ _ (by decide), bitAt_getLsbD _ _ _ (by decide), bitAt_getLsbD _ _ _ (by decide),
    bitAt_getLsbD _ _ _ (by decide), bitAt_getLsbD _ _ _ (by decide), bitAt_getLsbD _ _ _ (by decide),
    bitAt_getLsbD _ _ _ (by decide), bitAt_getLsbD _ _ _ (by decide), bitAt_getLsbD _ _ _ (by decide)]

/-- `F_STATUS` bit by bit (R36). -/
theorem FramerUnit.status_getLsbD (u : FramerUnit) (j : Nat) :
    u.status.getLsbD j =
      ((u.busy && decide (0 = j)) || (u.pktValid && decide (1 = j)) || (u.hdrValid && decide (2 = j)) ||
       (u.failed && decide (3 = j)) || (u.oversize && decide (4 = j)) || (u.errs.magic && decide (8 = j)) ||
       (u.errs.length && decide (9 = j)) || (u.errs.cmd && decide (10 = j)) || (u.errs.noPkt && decide (11 = j)) ||
       (u.errs.ovf && decide (12 = j))) := by
  simp only [status, BitVec.getLsbD_or]
  rw [bitAt_getLsbD _ _ _ (by decide), bitAt_getLsbD _ _ _ (by decide), bitAt_getLsbD _ _ _ (by decide),
    bitAt_getLsbD _ _ _ (by decide), bitAt_getLsbD _ _ _ (by decide), bitAt_getLsbD _ _ _ (by decide),
    bitAt_getLsbD _ _ _ (by decide), bitAt_getLsbD _ _ _ (by decide), bitAt_getLsbD _ _ _ (by decide),
    bitAt_getLsbD _ _ _ (by decide)]

end Sys2Proof.Machine
end

