-- ==== Sys2Proof/Laws/PerInstr.lean ====
section
/-! SUPPORT. Statements made per instruction: the access that encodes a well-formed instruction is one the bus accepts (20_memory.md
R81, R82). -/

namespace Sys2Proof.Laws.EncodeAccepted

/-- The width and the offset of an access (30_encoding.md R115). -/
def place : Access → Nat × Nat
  | .read bits off => (bits, off)
  | .write bits off _ => (bits, off)

/-- The encoding of a well-formed instruction is a 32-bit access at an accepted offset. -/
def Statement (i : Instr) : Prop :=
  i.wellFormed = true → (place (encode i)).1 = 32 ∧ Machine.accepted (place (encode i)).2 = true

theorem cNop : Statement .cNop := fun _ => ⟨rfl, rfl⟩

theorem cKeyset : Statement .cKeyset := fun _ => ⟨rfl, rfl⟩

theorem cKeyclr : Statement .cKeyclr := fun _ => ⟨rfl, rfl⟩

theorem cSeed : Statement .cSeed := fun _ => ⟨rfl, rfl⟩

theorem cApply : Statement .cApply := fun _ => ⟨rfl, rfl⟩

theorem cCont : Statement .cCont := fun _ => ⟨rfl, rfl⟩

theorem cKsstart : Statement .cKsstart := fun _ => ⟨rfl, rfl⟩

theorem fNop : Statement .fNop := fun _ => ⟨rfl, rfl⟩

theorem fParse : Statement .fParse := fun _ => ⟨rfl, rfl⟩

theorem fPop : Statement .fPop := fun _ => ⟨rfl, rfl⟩

theorem fEncode : Statement .fEncode := fun _ => ⟨rfl, rfl⟩

theorem fDecode : Statement .fDecode := fun _ => ⟨rfl, rfl⟩

theorem fReset : Statement .fReset := fun _ => ⟨rfl, rfl⟩

theorem fPush8 (w : Word) : Statement (.fPush8 w) := fun _ =>
  ⟨rfl, (by decide : Machine.accepted 0x0214 = true)⟩

theorem fPush32 (w : Word) : Statement (.fPush32 w) := fun _ =>
  ⟨rfl, (by decide : Machine.accepted 0x0218 = true)⟩

theorem sysReset : Statement .sysReset := fun _ => ⟨rfl, rfl⟩

theorem cKeywr (k : Fin 8) (w : Word) : Statement (.cKeywr k w) := by
  intro _
  have := k.isLt
  have h1 : (0x0140 + 4 * k.val) % 4 = 0 := by omega
  have h2 : 0x0140 + 4 * k.val < 0x8000 := by omega
  exact ⟨rfl, by simp [place, encode, Machine.accepted, h1, h2]⟩

theorem hostRd (off : Nat) : Statement (.hostRd off) := fun h => ⟨rfl, h⟩

theorem hostWr (off : Nat) (w : Word) : Statement (.hostWr off w) := by
  intro h
  simp only [Instr.wellFormed, Bool.and_eq_true] at h
  exact ⟨rfl, h.1⟩

end Sys2Proof.Laws.EncodeAccepted
end

