-- ==== Sys2Proof/Laws/Script.lean ====
section
/-! SUPPORT. Several steps in a row: one access after another (R94). -/

namespace Sys2Proof.Machine

/-- The first of several steps is the host's next access, performed. -/
theorem steps_succ {s t : State} {a : Access} {rest : List Access} {n : Nat} {i : Instr} (hd : decode a = .ok i)
    (he : exec i { s with pending := rest } = .next t) : steps (n + 1) { s with pending := a :: rest } = steps n t := by
  rw [steps, step_cons (s := { s with pending := a :: rest }) rfl, hd]
  dsimp only
  rw [he]

end Sys2Proof.Machine
end

