-- ==== Sys2Proof/Laws/Steps.lean ====
section
/-! SUPPORT. What each operation of a unit can do to the unit, said once per operation, and what no operation does: make a unit busy. -/

namespace Sys2Proof.Machine

/-! ### The cipher unit -/

/-- Everything a transform can do (R159): it touches `CBUF`, `C_X` and `C_COUNT`, where the keystream exists. -/
theorem CipherUnit.transform_some {u v : CipherUnit} {map : F64 → F64} {x : F64} {count : Word}
    (h : u.transform map x count = some v) :
    ∃ k xl, keystream map x u.len.toNat = some (k, xl) ∧
      v = { u with cbuf := (u.xorFrom 0 k).cbuf, x := xl, count := count + u.len } := by
  unfold transform at h
  cases hk : keystream map x u.len.toNat with
  | none => rw [hk] at h; cases h
  | some r =>
    obtain ⟨k, xl⟩ := r
    rw [hk] at h
    simp only [Option.map_some, Option.some.injEq] at h
    refine ⟨k, xl, rfl, ?_⟩
    rw [← h, xorFrom_eq]

/-- Everything C.SEED can do (R176). -/
theorem CipherUnit.deriveSeed_cases (u : CipherUnit) (hash : Vector Byte 32 → Vector Byte 16 → Config.MixedKey) :
    (u.keyValid = false ∧ u.deriveSeed hash = u.refuse CErrs.setNoKey .noKey) ∨
    (u.keyValid = true ∧ u.deriveSeed hash = { u.takeSeed hash with result := .ok }) := by
  unfold deriveSeed
  cases u.keyValid <;> simp

/-- Everything C.APPLY can do (R177). -/
theorem CipherUnit.apply_cases {u v : CipherUnit} {p : Params} {hash : Vector Byte 32 → Vector Byte 16 → Config.MixedKey}
    {map : F64 → F64} (h : u.apply p hash map = some v) :
    (u.keyValid = false ∧ v = u.refuse CErrs.setNoKey .noKey) ∨
    (u.keyValid = true ∧ u.lenOk p = false ∧ v = u.refuse CErrs.setLen .badLen) ∨
    (u.keyValid = true ∧ u.lenOk p = true ∧
      ∃ t, (u.takeSeed hash).transform map (u.takeSeed hash).seed 0 = some t ∧ v = { t with result := .ok }) := by
  unfold apply at h
  cases hk : u.keyValid <;> cases hl : u.lenOk p <;> simp [hk, hl] at h
  · exact .inl ⟨rfl, h.symm⟩
  · exact .inl ⟨rfl, h.symm⟩
  · exact .inr (.inl ⟨rfl, rfl, h.symm⟩)
  · obtain ⟨t, ht, hv⟩ := h
    exact .inr (.inr ⟨rfl, rfl, t, ht, hv.symm⟩)

/-- Everything C.CONT can do (R178). -/
theorem CipherUnit.continueFrom_cases {u v : CipherUnit} {p : Params} {map : F64 → F64}
    (h : u.continueFrom p map = some v) :
    (u.seeded = false ∧ v = u.refuse CErrs.setNoSeed .noSeed) ∨
    (u.seeded = true ∧ u.lenOk p = false ∧ v = u.refuse CErrs.setLen .badLen) ∨
    (u.seeded = true ∧ u.lenOk p = true ∧ ∃ t, u.transform map u.x u.count = some t ∧ v = { t with result := .ok }) := by
  unfold continueFrom at h
  cases hk : u.seeded <;> cases hl : u.lenOk p <;> simp [hk, hl] at h
  · exact .inl ⟨rfl, h.symm⟩
  · exact .inl ⟨rfl, h.symm⟩
  · exact .inr (.inl ⟨rfl, rfl, h.symm⟩)
  · obtain ⟨t, ht, hv⟩ := h
    exact .inr (.inr ⟨rfl, rfl, t, ht, hv.symm⟩)

/-- Everything C.KSSTART can do (R179). -/
theorem CipherUnit.start_cases {u v : CipherUnit} {p : Params} {map : F64 → F64} (h : u.start p map = some v) :
    (seedInRange u.seed = false ∧ v = u.refuse CErrs.setSeed .badSeed) ∨
    (seedInRange u.seed = true ∧ u.lenOk p = false ∧ v = u.refuse CErrs.setLen .badLen) ∨
    (seedInRange u.seed = true ∧ u.lenOk p = true ∧
      ∃ t, u.transform map u.seed 0 = some t ∧ v = { t with seeded := true, fallback := false, result := .ok }) := by
  unfold start at h
  cases hk : seedInRange u.seed <;> cases hl : u.lenOk p <;> simp [hk, hl] at h
  · exact .inl ⟨rfl, h.symm⟩
  · exact .inl ⟨rfl, h.symm⟩
  · exact .inr (.inl ⟨rfl, rfl, h.symm⟩)
  · obtain ⟨t, ht, hv⟩ := h
    exact .inr (.inr ⟨rfl, rfl, t, ht, hv.symm⟩)

/-! ### The framer unit -/

/-- Everything a push can do (R224, R225, R236). -/
theorem FramerUnit.push_cases (u : FramerUnit) (asmCap : Nat) (bytes : List Byte) :
    (u.failed = true ∧ u.push asmCap bytes = u) ∨
    (u.failed = false ∧ asmCap < u.asmLen + bytes.length ∧ u.push asmCap bytes = u.overflow) ∨
    (u.failed = false ∧ u.asmLen + bytes.length ≤ asmCap ∧ u.push asmCap bytes = { u with asm := u.asm ++ bytes }) := by
  unfold push
  cases u.failed
  · by_cases h : asmCap < u.asmLen + bytes.length
    · simp [h]
    · exact .inr (.inr ⟨rfl, by omega, by simp only [h, Bool.false_eq_true, if_false]⟩)
  · simp

/-- Everything F.PARSE can do (R226). -/
theorem FramerUnit.parse_cases (u : FramerUnit) (asmCap : Nat) :
    (u.failed = true ∧ u.parse asmCap = { u with result := .failed }) ∨
    (u.failed = false ∧ u.asmLen < 25 ∧ u.parse asmCap =
      { u with
        pktValid := false, hdrValid := false, oversize := false, total := 0, need := BitVec.ofNat 32 (25 - u.asmLen)
        result := .needHeader }) ∨
    (u.failed = false ∧ 25 ≤ u.asmLen ∧
      ((u.staged.verdict = .invalidMagic ∧ u.parse asmCap = u.staged.fail FErrs.setMagic .invalidMagic) ∨
       (u.staged.verdict = .invalidLength ∧ u.parse asmCap = u.staged.fail FErrs.setLength .invalidLength) ∨
       (u.staged.verdict = .valid ∧ u.parse asmCap = u.staged.finishParse asmCap))) := by
  unfold parse
  cases u.failed
  · by_cases h : u.asmLen < Config.hdrSize
    · exact .inr (.inl ⟨rfl, h, by simp only [h, Bool.false_eq_true, if_false, if_true]; rfl⟩)
    · refine .inr (.inr ⟨rfl, by simp only [Config.hdrSize] at h; omega, ?_⟩)
      simp only [h, Bool.false_eq_true, if_false]
      cases u.staged.verdict <;> simp
  · exact .inl ⟨rfl, rfl⟩

/-- Everything F.POP can do (R227). -/
theorem FramerUnit.pop_cases (u : FramerUnit) :
    (u.failed = true ∧ u.pop = { u with result := .failed }) ∨
    (u.failed = false ∧ u.pktValid = false ∧ u.pop = u.refuse FErrs.setNoPkt .noPacket) ∨
    (u.failed = false ∧ u.pktValid = true ∧
      u.pop = { u.clearParse with asm := u.asm.drop u.total.toNat, result := .ok }) := by
  unfold pop
  cases u.failed <;> cases u.pktValid <;> simp

/-- Everything F.DECODE can do (R203). -/
theorem FramerUnit.decodeStaging_cases (u : FramerUnit) :
    (u.stgLen.toNat < 25 ∧ u.decodeStaging = { u.clearParse with result := .needHeader }) ∨
    (25 ≤ u.stgLen.toNat ∧
      (((u.clearParse.loadHeader u.stg).verdict = .invalidMagic ∧
          u.decodeStaging = (u.clearParse.loadHeader u.stg).refuse FErrs.setMagic .invalidMagic) ∨
       ((u.clearParse.loadHeader u.stg).verdict = .invalidLength ∧
          u.decodeStaging = (u.clearParse.loadHeader u.stg).refuse FErrs.setLength .invalidLength) ∨
       ((u.clearParse.loadHeader u.stg).verdict = .valid ∧
          u.decodeStaging =
            { u.clearParse.loadHeader u.stg with
              hdrValid := true, total := BitVec.ofNat 32 (u.clearParse.loadHeader u.stg).totalSize, result := .ok }))) := by
  unfold decodeStaging
  by_cases h : u.stgLen.toNat < Config.hdrSize
  · exact .inl ⟨h, by simp only [h, if_true]⟩
  · refine .inr ⟨by simp only [Config.hdrSize] at h; omega, ?_⟩
    simp only [h, if_false]
    cases hv : (u.clearParse.loadHeader u.stg).verdict <;> simp

/-! ### No operation makes a unit busy (R44) -/

theorem CipherStep.busy {p : Params} {i : Instr} {u v : CipherUnit} (h : CipherStep p i u v) : v.busy = u.busy := by
  cases h with
  | nop => rfl
  | keyset => rfl
  | keyclr => rfl
  | seed =>
    rcases u.deriveSeed_cases (keyedHash p.keyedHash) with ⟨_, h⟩ | ⟨_, h⟩ <;> rw [h]
    · rfl
    · exact CipherUnit.takeSeed_busy u (keyedHash p.keyedHash)
  | apply _ _ h =>
    rcases CipherUnit.apply_cases h with ⟨_, rfl⟩ | ⟨_, _, rfl⟩ | ⟨_, _, t, ht, rfl⟩
    · rfl
    · rfl
    · obtain ⟨k, xl, _, rfl⟩ := CipherUnit.transform_some ht
      exact CipherUnit.takeSeed_busy u (keyedHash p.keyedHash)
  | cont _ _ h =>
    rcases CipherUnit.continueFrom_cases h with ⟨_, rfl⟩ | ⟨_, _, rfl⟩ | ⟨_, _, t, ht, rfl⟩
    · rfl
    · rfl
    · obtain ⟨k, xl, _, rfl⟩ := CipherUnit.transform_some ht
      rfl
  | ksstart _ _ h =>
    rcases CipherUnit.start_cases h with ⟨_, rfl⟩ | ⟨_, _, rfl⟩ | ⟨_, _, t, ht, rfl⟩
    · rfl
    · rfl
    · obtain ⟨k, xl, _, rfl⟩ := CipherUnit.transform_some ht
      rfl
  | keywr => exact CipherUnit.writeKey_busy ..
  | illegal => rfl
  | store => exact CipherUnit.store_busy ..

theorem FramerStep.busy {p : Params} {i : Instr} {u v : FramerUnit} (h : FramerStep p i u v) : v.busy = u.busy := by
  cases h with
  | nop => rfl
  | parse =>
    rcases u.parse_cases p.asmCap with ⟨_, h⟩ | ⟨_, _, h⟩ | ⟨_, _, ⟨_, h⟩ | ⟨_, h⟩ | ⟨_, h⟩⟩ <;> rw [h]
    · rfl
    · rfl
    · unfold FramerUnit.finishParse
      dsimp only
      split <;> rfl
  | pop => rcases u.pop_cases with ⟨_, h⟩ | ⟨_, _, h⟩ | ⟨_, _, h⟩ <;> rw [h] <;> rfl
  | encode => exact FramerUnit.encodeHeader_busy ..
  | decode =>
    rcases u.decodeStaging_cases with ⟨_, h⟩ | ⟨_, ⟨_, h⟩ | ⟨_, h⟩ | ⟨_, h⟩⟩ <;> rw [h]
    · rfl
    · simp
    · simp
    · simp
  | teardown => rfl
  | push8 =>
    rename_i w
    rcases u.push_cases p.asmCap [lane w 0] with ⟨_, h⟩ | ⟨_, _, h⟩ | ⟨_, _, h⟩ <;> rw [h]
    rfl
  | push32 =>
    rename_i w
    rcases u.push_cases p.asmCap [lane w 0, lane w 1, lane w 2, lane w 3] with ⟨_, h⟩ | ⟨_, _, h⟩ | ⟨_, _, h⟩ <;>
      rw [h]
    rfl
  | illegal => rfl
  | store => exact FramerUnit.store_busy ..

end Sys2Proof.Machine
end

