-- ==== Sys2Proof/Tests/Slice0.lean ====
section
/-! SUPPORT. The model's own tests: words written out from the tables of 30_encoding.md, the operand checks, one or two steps of each
instruction with values from spec/95_test_vectors.md (the vector's id is in each docstring), and for every statement with
hypotheses a witness that meets them. -/

namespace Sys2Proof.Tests

open Sys2Proof.Machine

/-! ### Small states -/

/-- What a step leaves in one part of the state. -/
def see {α : Type} (o : Host.Outcome State Fault Refusal) (f : State → α) : Option α :=
  match o with
  | .next s => some (f s)
  | _ => none

/-- The machine after reset with another cipher unit. -/
def withC (u : CipherUnit) : State := { State.reset with c := u }

/-- The machine after reset with another framer unit. -/
def withF (u : FramerUnit) : State := { State.reset with f := u }

/-- A framer after reset with these bytes pushed. -/
def holding (bytes : List Byte) : FramerUnit := { FramerUnit.reset with asm := bytes }

/-- The secret `K1` of the vectors. -/
def secretK1 : Vector Byte 32 := Vector.ofFn fun i => BitVec.ofNat 8 i.val

/-- The nonce `N1` of the vectors. -/
def nonceN1 : Vector Byte 16 := Vector.ofFn fun i => BitVec.ofNat 8 (0xA0 + i.val)

/-- The start of V-C20: the secret set, the nonce, "ping" in `CBUF`, `C_LEN = 4`. -/
def pinging : CipherUnit :=
  { CipherUnit.reset 0 with
    key := secretK1, keyValid := true, nonce := nonceN1, len := 4
    cbuf := [(0, 0x70), (1, 0x69), (2, 0x6E), (3, 0x67)] }

/-- A cipher unit the host has seeded with 1.0 (V-C41). -/
def seededOne : CipherUnit := { CipherUnit.reset 0 with seed := 0x3FF0000000000000, x := 0x3FF0000000000000, seeded := true }

/-- The header of V-F01: type 2, length 4, nonce `N1`. -/
def headerF01 : List Byte :=
  [0x41, 0x45, 0x54, 0x48, 0x02, 0x00, 0x00, 0x00, 0x04, 0xA0, 0xA1, 0xA2, 0xA3, 0xA4, 0xA5, 0xA6, 0xA7, 0xA8, 0xA9, 0xAA,
   0xAB, 0xAC, 0xAD, 0xAE, 0xAF]

/-- The test map `T` of 95_test_vectors.md section 0, for checking only: the fraction of `9 x + c`. -/
def mapT (x : F64) : F64 :=
  let y := F64.rne (F64.magnitude (F64.mul x 0x4022000000000000) + F64.magnitude 0x3FD41B2F769CF0E0) 1
  F64.rne (F64.magnitude y % F64.unitsPerOne) 1

/-! ### Encodings: words written out from R112, R113, R114 and R115 -/

theorem test_decode_cipher_commands :
    decode (.write 32 0x0100 0x00000000) = .ok .cNop ∧ decode (.write 32 0x0100 0x00000001) = .ok .cKeyset ∧
    decode (.write 32 0x0100 0x00000002) = .ok .cKeyclr ∧ decode (.write 32 0x0100 0x00000003) = .ok .cSeed ∧
    decode (.write 32 0x0100 0x00000004) = .ok .cApply ∧ decode (.write 32 0x0100 0x00000005) = .ok .cCont ∧
    decode (.write 32 0x0100 0x00000006) = .ok .cKsstart := by decide

theorem test_decode_framer_commands :
    decode (.write 32 0x0200 0x00000000) = .ok .fNop ∧ decode (.write 32 0x0200 0x00000001) = .ok .fParse ∧
    decode (.write 32 0x0200 0x00000002) = .ok .fPop ∧ decode (.write 32 0x0200 0x00000003) = .ok .fEncode ∧
    decode (.write 32 0x0200 0x00000004) = .ok .fDecode ∧ decode (.write 32 0x0200 0x00000005) = .ok .fReset := by decide

theorem test_decode_register_writes :
    decode (.write 32 0x0214 0x00000041) = .ok (.fPush8 0x00000041) ∧
    decode (.write 32 0x0218 0x48544541) = .ok (.fPush32 0x48544541) ∧
    decode (.write 32 0x0010 0x00000001) = .ok .sysReset ∧
    decode (.write 32 0x0140 0x03020100) = .ok (.cKeywr 0 0x03020100) ∧
    decode (.write 32 0x015C 0x1F1E1D1C) = .ok (.cKeywr 7 0x1F1E1D1C) := by decide

theorem test_decode_plain_accesses :
    decode (.read 32 0x0000) = .ok (.hostRd 0x0000) ∧ decode (.read 32 0x7FFC) = .ok (.hostRd 0x7FFC) ∧
    decode (.write 32 0x2000 0x676E6970) = .ok (.hostWr 0x2000 0x676E6970) ∧
    decode (.write 32 0x0010 0x00000003) = .ok (.hostWr 0x0010 0x00000003) := by decide

/-- R111: an unassigned opcode and a reserved field that is not 0 are no command (V-C04, V-C05, V-P16). -/
theorem test_decode_illegal_commands :
    decode (.write 32 0x0100 0x00000007) = .ok (.hostWr 0x0100 0x00000007) ∧
    decode (.write 32 0x0100 0x00000104) = .ok (.hostWr 0x0100 0x00000104) ∧
    decode (.write 32 0x0200 0x00000006) = .ok (.hostWr 0x0200 0x00000006) ∧
    decode (.write 32 0x0200 0x00000101) = .ok (.hostWr 0x0200 0x00000101) := by decide

/-- R82, by name (V-M07, V-M08, V-M09). -/
theorem test_decode_rejects :
    decode (.read 32 0x0102) = .error .misaligned ∧ decode (.read 8 0x0100) = .error .notWordAccess ∧
    decode (.write 16 0x0100 4) = .error .notWordAccess ∧ decode (.read 32 0x8000) = .error .outsideBlock := by decide

theorem test_decode_table_word :
    decodeTableWord 32 0x00000004 = some .cApply ∧ decodeTableWord 16 0x0104 = some (.hostRd 0x0104) := by decide

theorem test_with_fetch_word_runs_next :
    see (step (State.reset.withFetchWord 32 1)) (fun s => s.c.keyValid) = some true := by decide

/-! ### The operand checks: an ill-formed term for each -/

theorem test_ill_formed_misaligned_read : (Instr.hostRd 0x0102).wellFormed = false := by decide
theorem test_ill_formed_read_outside : (Instr.hostRd 0x8000).wellFormed = false := by decide
theorem test_ill_formed_misaligned_write : (Instr.hostWr 0x2002 0).wellFormed = false := by decide
theorem test_ill_formed_write_outside : (Instr.hostWr 0x8000 0).wellFormed = false := by decide
theorem test_ill_formed_cipher_command : (Instr.hostWr 0x0100 0x00000006).wellFormed = false := by decide
theorem test_ill_formed_framer_command : (Instr.hostWr 0x0200 0x00000005).wellFormed = false := by decide
theorem test_ill_formed_push8 : (Instr.hostWr 0x0214 0).wellFormed = false := by decide
theorem test_ill_formed_push32 : (Instr.hostWr 0x0218 0).wellFormed = false := by decide
theorem test_ill_formed_reset : (Instr.hostWr 0x0010 0x00000001).wellFormed = false := by decide
theorem test_ill_formed_key : (Instr.hostWr 0x015C 0).wellFormed = false := by decide

/-! ### Cipher unit -/

/-- V-C15: C.NOP keeps the result of a refused command. -/
theorem test_c_nop_keeps_result :
    see (exec .cNop (withC { CipherUnit.reset 0 with result := .noKey })) (fun s => s.c.result) = some .noKey := by decide

/-- V-C06. -/
theorem test_c_keyset_status : see (exec .cKeyset State.reset) (fun s => s.c.status) = some 0x00000002 := by decide

/-- V-C16: C.KEYCLR clears the seed and the flags and keeps the nonce. -/
theorem test_c_keyclr_clears :
    see (exec .cKeyclr (withC { pinging with x := 0x3FE690117184D784, seeded := true }))
      (fun s => (s.c.status, s.c.x, s.c.nonce, s.c.len)) = some (0, 0, nonceN1, 4) := by decide

/-- V-C02. -/
theorem test_c_seed_without_key :
    see (exec .cSeed State.reset) (fun s => (s.c.result.code, s.c.status)) = some (1, 0x00000100) := by decide

/-- V-C10: `C_MIX`, `C_SEED` and the flags of C.SEED. -/
theorem test_c_seed_v_c10 :
    see (exec .cSeed (withC pinging)) (fun s => (wordOf s.c.mix 0, wordOf s.c.mix 1, s.c.seed, s.c.status)) =
      some (0x279748B1, 0x0E2A60B2, 0x3FBC54C1644F2E91, 0x00000006) := by decide +kernel

/-- V-C01. -/
theorem test_c_apply_without_key :
    see (exec .cApply State.reset) (fun s => (s.c.result.code, s.c.status)) = some (1, 0x00000100) := by decide

/-- V-C20, under the test map: the operation C.APPLY runs. -/
theorem test_c_apply_v_c20 :
    (pinging.apply Params.default (keyedHash .hmacSha256) mapT).map (fun u => (u.windowWord 4096 0, u.x, u.count, u.status)) =
      some (0xD42D733F, 0x3FE690117184D784, 4, 0x00000006) := by decide +kernel

/-- V-C03. -/
theorem test_c_cont_without_seed :
    see (exec .cCont State.reset) (fun s => (s.c.result.code, s.c.status)) = some (3, 0x00000800) := by decide

/-- V-C30, under the test map: the operation C.CONT runs. -/
theorem test_c_cont_v_c30 :
    (({ pinging with x := 0x3FE690117184D784, count := 4, seeded := true, len := 2, cbuf := [(0, 0), (1, 0)] } :
        CipherUnit).continueFrom Params.default mapT).map (fun u => (u.byte 0, u.byte 1, u.x, u.count)) =
      some (0xA8, 0x40, 0x3FD03AE47831CA00, 6) := by decide +kernel

/-- V-C43: one unit in the last place below `SEED_MIN`. -/
theorem test_c_ksstart_below_seed_min :
    see (exec .cKsstart (withC { CipherUnit.reset 0 with seed := 0x3F1A36E2EB1C432C }))
      (fun s => (s.c.result.code, s.c.status)) = some (4, 0x00001000) := by decide

/-- V-C40, under the test map: the operation C.KSSTART runs. -/
theorem test_c_ksstart_v_c40 :
    (({ CipherUnit.reset 0 with seed := 0x3FE0000000000000, len := 3, cbuf := [(0, 0), (1, 0), (2, 0)] } :
        CipherUnit).start Params.default mapT).map (fun u => (u.byte 0, u.byte 1, u.byte 2, u.x, u.count, u.status)) =
      some (0xCF, 0xA3, 0x16, 0x3FB6A77CA7267E80, 3, 0x00000004) := by decide +kernel

/-- V-C09: a key write clears `KEY_VALID`; its lane 0 is byte 12 (R24). -/
theorem test_c_keywr :
    see (exec (.cKeywr 3 0x0F0E0D0C) (withC { CipherUnit.reset 0 with keyValid := true }))
      (fun s => (s.c.keyValid, byteAt s.c.key 12, byteAt s.c.key 15, byteAt s.c.key 16)) = some (false, 0x0C, 0x0F, 0) := by
  decide

/-! ### Keystream functions -/

/-- V-S02, V-S05, V-S09 and V-S13: the seed, without the fallback. -/
theorem test_seed_values :
    seedOf #v[0, 0, 0, 0, 0, 0, 0, 0x80] = (0x3FF0000000000000, false) ∧
    seedOf #v[0, 0, 0, 0, 0, 0, 0, 0x40] = (0x3FE0000000000000, false) ∧
    seedOf #v[0x01, 0x02, 0x03, 0x04, 0x05, 0x06, 0x07, 0x08] = (0x3FB00E0C0A080604, false) ∧
    seedOf #v[0x00, 0xFE, 0xFF, 0xFF, 0xFF, 0xFF, 0xFF, 0x7F] = (0x3FF0000000000000, false) := by decide +kernel

/-- V-S10 and V-S11: the largest fallback and the smallest seed that is none. -/
theorem test_seed_fallback_boundary :
    seedOf #v[0x65, 0x88, 0x63, 0x5D, 0xDC, 0x46, 0x03, 0x00] = (0x3FE0000000000000, true) ∧
    seedOf #v[0x66, 0x88, 0x63, 0x5D, 0xDC, 0x46, 0x03, 0x00] = (0x3F1A36E2EB1C4330, false) := by decide +kernel

/-- V-K01, V-K02, V-K04, V-K06, V-K08 and V-K09. -/
theorem test_key_bytes :
    [0x0000000000000000, 0x3FE0000000000000, 0x3F7010100E2D23D6, 0x3FEFDFDFDFDFDFE0, 0x3FEFFFFFFFFFFFFF,
      0x0000000000000001].map keyByte = [0, 127, 0, 254, 254, 0] := by decide +kernel

/-! ### Framer unit -/

/-- V-P17. -/
theorem test_f_nop_keeps_result :
    see (exec .fNop (withF { FramerUnit.reset with result := .needHeader })) (fun s => s.f.result) = some .needHeader := by
  decide

/-- V-P06. -/
theorem test_f_parse_empty :
    see (exec .fParse State.reset) (fun s => (s.f.result.code, s.f.need)) = some (2, 25) := by decide

/-- V-P07: a packet with an empty payload; V-E06's order is in the statements. -/
theorem test_f_parse_packet :
    see (exec .fParse (withF (holding (headerF01 ++ [0x3F, 0x73, 0x2D, 0xD4]))))
      (fun s => (s.f.result.code, s.f.status, s.f.total, s.f.asmLen)) = some (1, 0x00000006, 29, 29) := by decide

/-- V-P05. -/
theorem test_f_pop_without_packet :
    see (exec .fPop State.reset) (fun s => (s.f.result.code, s.f.status)) = some (7, 0x00000800) := by decide

/-- V-P18: the second packet moves to the head. -/
theorem test_f_pop_moves_head :
    see (exec .fPop (withF
        { holding (headerF01 ++ [0x3F, 0x73, 0x2D, 0xD4] ++ headerF01) with pktValid := true, hdrValid := true, total := 29 }))
      (fun s => (s.f.asmLen, s.f.windowWord 0)) = some (25, 0x48544541) := by decide

/-- V-F01. -/
theorem test_f_encode_v_f01 :
    see (exec .fEncode (withF { FramerUnit.reset with eType := 2, ePlen := 4, eNonce := nonceN1 }))
      (fun s => (List.range 7).map (wordOf s.f.enc)) =
      some [0x48544541, 0x00000002, 0xA2A1A004, 0xA6A5A4A3, 0xAAA9A8A7, 0xAEADACAB, 0x000000AF] := by decide

/-- V-F02. -/
theorem test_f_decode_v_f02 :
    see (exec .fDecode (withF { FramerUnit.reset with stg := hdrEncode 2 4 nonceN1, stgLen := 25 }))
      (fun s => (s.f.result.code, s.f.status, s.f.magic, s.f.plen, s.f.total, wordOf s.f.nonce 0)) =
      some (0, 0x00000004, 0x41455448, 4, 29, 0xA3A2A1A0) := by decide

/-- V-F11: a length of `-2^31`. -/
theorem test_f_decode_negative_length :
    see (exec .fDecode (withF { FramerUnit.reset with stg := hdrEncode 2 0x80000000 nonceN1, stgLen := 25 }))
      (fun s => (s.f.result.code, s.f.status, s.f.plen, s.f.total)) = some (5, 0x00000200, 0x80000000, 0) := by decide

/-- V-P19: the sticky bit stays, `FAILED` goes. -/
theorem test_f_reset_v_p19 :
    see (exec .fReset (withF
        { holding headerF01 with failed := true, errs := { FramerUnit.reset.errs with length := true } }))
      (fun s => (s.f.status, s.f.asmLen, s.f.result.code)) = some (0x00000200, 0, 0) := by decide

/-- V-M16: a pushed byte at the head of the window. -/
theorem test_f_push8 :
    see (exec (.fPush8 0xFFFFFF41) State.reset) (fun s => s.f.windowWord 0) = some 0x00000041 := by decide

/-- R225: lane 0 first. -/
theorem test_f_push32_order :
    see (exec (.fPush32 0x48544541) State.reset) (fun s => s.f.asm) = some [0x41, 0x45, 0x54, 0x48] := by decide

/-- V-P13: nothing of the word is appended. -/
theorem test_f_push32_overflow :
    see (exec (.fPush32 0)
        { State.reset with params := { Params.default with asmCap := 28 }, f := holding (List.replicate 26 0) })
      (fun s => (s.f.result.code, s.f.status, s.f.asmLen)) = some (9, 0x00001008, 26) := by decide

/-! ### System -/

/-- V-M19. -/
theorem test_sys_reset :
    see (exec .sysReset { State.reset with c := pinging, f := holding headerF01 })
      (fun s => (s.c.status, s.f.status, s.f.asmLen, s.c.result.code, s.c.len)) = some (0, 0, 0, 0, 0) := by decide

/-- V-M01. -/
theorem test_host_rd_id :
    see (step { State.reset with pending := [.read 32 0x0000] }) (fun s => s.response) = some (.data 0x41455448) := by decide

/-- V-M10: the secret reads 0. -/
theorem test_host_rd_key : see (exec (.hostRd 0x0140) (withC pinging)) (fun s => s.response) = some (.data 0) := by decide

/-- V-M17: the bytes of a window word, lane 0 first. -/
theorem test_host_wr_window :
    see (exec (.hostWr 0x2000 0x676E6970) State.reset) (fun s => s.c.cbuf) =
      some [(0, 0x70), (1, 0x69), (2, 0x6E), (3, 0x67)] := by decide

/-- V-M21: W1C clears bit 8 and leaves the read-only bits. -/
theorem test_host_wr_status :
    see (exec (.hostWr 0x0104 0x00000107) (withC
        { CipherUnit.reset 0 with
          keyValid := true, seeded := true, errs := { (CipherUnit.reset 0).errs with noKey := true } }))
      (fun s => s.c.status) = some 0x00000006 := by decide

/-- V-M07: a bus error is an answer, and the access is spent. -/
theorem test_bus_error :
    see (step { State.reset with pending := [.read 32 0x0102] }) (fun s => (s.response, s.pending)) = some (.busError, []) := by
  decide

/-! ### Witnesses: for each statement with hypotheses, states and operands that meet them -/

/-- A cipher unit that is busy, for the statements about R350. -/
def busyC : State := withC { CipherUnit.reset 0 with busy := true }

/-- A framer unit that is busy. -/
def busyF : State := withF { FramerUnit.reset with busy := true }

/-- A framer unit in the `FAILED` state. -/
def failedF : State := withF { FramerUnit.reset with failed := true }

/-- A header with the fourth magic byte changed (V-F09). -/
def badMagic : List Byte := [0x41, 0x45, 0x54, 0x49] ++ headerF01.drop 4

/-- A header with the length -1 (V-P11). -/
def badLength : List Byte := [0x41, 0x45, 0x54, 0x48, 0x02, 0xFF, 0xFF, 0xFF, 0xFF] ++ headerF01.drop 9

theorem witness_DecodeOfEncode :
    (Instr.hostWr 0x7FFC 0xFFFFFFFF).wellFormed = true ∧ (Instr.cKeywr 7 0xFFFFFFFF).wellFormed = true ∧
    (Instr.hostRd 0).wellFormed = true := by decide

theorem witness_EncodeOfDecode : decode (.write 32 0x0200 0x00000005) = .ok .fReset := by decide

theorem witness_StepRunsDecodedInstruction :
    ({ State.reset with pending := [.write 32 0x0100 0x00000001, .read 32 0x0104] } : State).pending =
      .write 32 0x0100 0x00000001 :: [.read 32 0x0104] ∧
    decode (.write 32 0x0100 0x00000001) = .ok .cKeyset ∧ State.reset.pending = [] := by decide

/-- Each way an access can be wrong, the other two right, at the edge of its range. -/
theorem witness_BusErrorChangesNothing :
    ((31 : Nat) ≠ 32 ∧ 0x7FFC % 4 = 0 ∧ ¬0x8000 ≤ 0x7FFC) ∧ (0x7FFD % 4 ≠ 0 ∧ ¬0x8000 ≤ 0x7FFD) ∧
    (0x8000 % 4 = 0 ∧ 0x8000 ≤ 0x8000) ∧
    ({ State.reset with pending := [.read 32 0x8000] } : State).pending = .read 32 0x8000 :: [] ∧
    ({ State.reset with pending := [.write 8 0x0000 0] } : State).pending = .write 8 0x0000 0 :: [] := by decide

theorem witness_HostWritePerformsTheCommand :
    (Instr.cApply.wellFormed = true ∧ encode .cApply = .write 32 0x0100 0x00000004) ∧
    ((Instr.cKeywr 7 0xFF).wellFormed = true ∧ encode (.cKeywr 7 0xFF) = .write 32 0x015C 0xFF) := by decide

theorem witness_ResetGivesResetValues : (0x00000000 : Word) ≠ 0x00000001 ∧ (0x00000003 : Word) ≠ 0x00000001 := by decide

theorem witness_ParametersNeverChange : ∃ t, step { State.reset with pending := [.write 32 0x0010 1] } = .next t := ⟨_, rfl⟩

/-- The two ways a read is allowed, idle units, the last result code of each unit, and a full assembly buffer. -/
theorem witness_ReadChangesNoState :
    ((withC { CipherUnit.reset 0 with result := .illegalCmd }).c.busy = false ∧
      (withC { CipherUnit.reset 0 with result := .illegalCmd }).c.result = .illegalCmd) ∧
    ((withF { FramerUnit.reset with result := .overflow }).f.busy = false ∧
      (withF { FramerUnit.reset with result := .overflow }).f.result = .overflow) ∧
    (({ State.reset with params := { Params.default with asmCap := 28 }, f := holding (List.replicate 28 0) } : State).f.asm.length
      ≤ 28) ∧
    (accepted 0x7FFC = true ∧ ownerBusy State.reset (regAt 0x7FFC) = false) ∧
    (accepted 0x0104 = true ∧ ownerBusy busyC (regAt 0x0104) = true ∧ (regAt 0x0104).readableWhileBusy = true) := by decide

/-- Both ends of each reserved range. -/
theorem witness_ReservedOffsetsReadZeroIgnoreWrites :
    ∀ off ∈ [0x0014, 0x00FC, 0x012C, 0x013C, 0x0170, 0x01FC, 0x0268, 0x026C, 0x029C, 0x1FFC],
      off % 4 = 0 ∧
      ((0x0014 ≤ off ∧ off ≤ 0x00FC) ∨ (0x012C ≤ off ∧ off ≤ 0x013C) ∨ (0x0170 ≤ off ∧ off ≤ 0x01FC) ∨
        (0x0268 ≤ off ∧ off ≤ 0x026C) ∨ (0x029C ≤ off ∧ off ≤ 0x1FFC)) := by decide

theorem witness_idle_units : State.reset.c.busy = false ∧ State.reset.f.busy = false := by decide

theorem witness_ReadOnlyIgnoresWritesWriteOnlyReadsZero :
    (State.reset.c.busy = false ∧ State.reset.f.busy = false) ∧ (0x4000 % 4 = 0 ∧ 0x4000 ≤ 0x4000 ∧ 0x4000 < 0x8000) ∧
    (0x7FFC % 4 = 0 ∧ 0x4000 ≤ 0x7FFC ∧ 0x7FFC < 0x8000) := by decide

theorem witness_RegisterWritesStoreOnly : (withC pinging).c.busy = false ∧ (withC pinging).f.busy = false := by decide

theorem witness_RegisterReadsBackLastWrite : (withF (holding headerF01)).c.busy = false ∧
    (withF (holding headerF01)).f.busy = false := by decide

/-- The last word inside the buffer, the first beyond it, and the last of the window. -/
theorem witness_CbufWindowStoresFourBytes :
    State.reset.c.busy = false ∧ (1023 < 0x800 ∧ 4 * 1023 < State.reset.params.cbufBytes) ∧
    (1024 < 0x800 ∧ State.reset.params.cbufBytes ≤ 4 * 1024) ∧ (2047 < 0x800 ∧ State.reset.params.cbufBytes ≤ 4 * 2047) := by
  decide

theorem witness_AssemblyWindowReadsFromHead :
    (withF (holding headerF01)).f.busy = false ∧ 6 < 0x1000 ∧ 4 * 6 + 0 < (withF (holding headerF01)).f.asm.length ∧
    ¬4 * 6 + 1 < (withF (holding headerF01)).f.asm.length ∧ 0xFFF < 0x1000 := by decide

theorem witness_SecretCannotBeReadBack : ∃ t, exec (.hostRd 0x0140) (withC pinging) = .next t := ⟨_, rfl⟩

theorem witness_StatusWriteClearsStickyBits : State.reset.c.busy = false ∧ State.reset.f.busy = false := witness_idle_units

/-- A refused C.APPLY in a state with another sticky bit set. -/
theorem witness_NoCommandClearsStickyBits :
    Instr.cApply.wellFormed = true ∧
    (∃ t, exec .cApply (withC { CipherUnit.reset 0 with errs := { (CipherUnit.reset 0).errs with seed := true } }) = .next t) ∧
    ({ CipherUnit.reset 0 with errs := { (CipherUnit.reset 0).errs with seed := true } } : CipherUnit).status.getLsbD 12 =
      true ∧
    (∃ t, exec .fPop (withF { FramerUnit.reset with errs := { FramerUnit.reset.errs with magic := true } }) = .next t) ∧
    ({ FramerUnit.reset with errs := { FramerUnit.reset.errs with magic := true } } : FramerUnit).status.getLsbD 8 = true :=
  ⟨rfl, ⟨_, rfl⟩, by decide, ⟨_, rfl⟩, by decide⟩

theorem witness_IllegalCommandsAreRefused :
    ((0x00000006 : Word) < 0x00000007 ∧ State.reset.c.busy = false) ∧
    ((0x00000005 : Word) < 0x00000006 ∧ State.reset.f.busy = false) ∧ (0x00000006 : Word) < 0xFFFFFFFF := by decide

/-- A busy unit, and offsets of its registers and its window. -/
theorem witness_AccessToBusyUnitFaults :
    busyC.c.busy = true ∧ busyF.f.busy = true ∧
    (∀ off ∈ [0x0100, 0x0128, 0x0140, 0x2000, 0x3FFC],
      accepted off = true ∧ (regAt off).owner = .cipher ∧ regAt off ≠ .cStatus) ∧
    (∀ off ∈ [0x0200, 0x0298, 0x0214, 0x4000, 0x7FFC],
      accepted off = true ∧ (regAt off).owner = .framer ∧ regAt off ≠ .fStatus) := by decide

theorem witness_NoStepMakesAUnitBusy :
    (step busyC = .next busyC ∧ busyC.c.busy = true) ∧ (step busyF = .next busyF ∧ busyF.f.busy = true) :=
  ⟨⟨rfl, rfl⟩, ⟨rfl, rfl⟩⟩

theorem witness_UnitsShareNoState :
    (∃ t, exec .cKeyset State.reset = .next t) ∧ (∃ t, exec (.cKeywr 7 1) State.reset = .next t) ∧
    (∃ t, exec .fPop State.reset = .next t) ∧ (∃ t, exec (.fPush8 1) State.reset = .next t) ∧
    (∃ t, exec (.fPush32 1) State.reset = .next t) := ⟨⟨_, rfl⟩, ⟨_, rfl⟩, ⟨_, rfl⟩, ⟨_, rfl⟩, ⟨_, rfl⟩⟩

theorem witness_NopsChangeNothing : State.reset.c.busy = false ∧ State.reset.f.busy = false := witness_idle_units

theorem witness_KeySetAndKeyClear : (withC pinging).c.busy = false := by decide

/-- The first and the last key register; the byte below and above the last one's are in the ranges of the frame. -/
theorem witness_KeyWriteStoresFourBytes :
    (withC pinging).c.busy = false ∧ (27 < 4 * (7 : Fin 8).val ∨ 4 * (7 : Fin 8).val + 4 ≤ 27) ∧
    (4 < 4 * (0 : Fin 8).val ∨ 4 * (0 : Fin 8).val + 4 ≤ 4) := by decide

theorem witness_KeyValidOnlyFromKeySet :
    (∃ t, exec .cKeyset State.reset = .next t ∧ t.c.keyValid = true) ∧
    (∃ t, exec .cNop (withC pinging) = .next t ∧ t.c.keyValid = true) := ⟨⟨_, rfl, rfl⟩, ⟨_, rfl, rfl⟩⟩

theorem witness_SeedDerivesFromKeyedHash :
    ((withC pinging).c.busy = false ∧ (withC pinging).c.keyValid = true) ∧
    (State.reset.c.busy = false ∧ State.reset.c.keyValid = false) := by decide

/-- The empty length and the whole buffer. -/
theorem witness_ApplyTransformsBuffer :
    ((withC { pinging with len := 0 }).c.busy = false ∧ (withC { pinging with len := 0 }).c.keyValid = true ∧
      (withC { pinging with len := 0 }).c.len.toNat ≤ (withC { pinging with len := 0 }).params.cbufBytes) ∧
    ((withC { pinging with len := 4096 }).c.busy = false ∧ (withC { pinging with len := 4096 }).c.keyValid = true ∧
      (withC { pinging with len := 4096 }).c.len.toNat ≤ (withC { pinging with len := 4096 }).params.cbufBytes) := by decide

theorem witness_ContContinuesKeystream :
    (withC seededOne).c.busy = false ∧ (withC seededOne).c.seeded = true ∧ F64.inClosedUnit (withC seededOne).c.x = true ∧
    (withC seededOne).c.len.toNat ≤ (withC seededOne).params.cbufBytes := by decide +kernel

/-- Both ends of the seed's range. -/
theorem witness_KsstartRunsFromHostSeed :
    (withC { pinging with seed := 0x3F1A36E2EB1C432D }).c.busy = false ∧
    (F64.le 0x3F1A36E2EB1C432D 0x3F1A36E2EB1C432D = true ∧ F64.le 0x3F1A36E2EB1C432D 0x3FF0000000000000 = true) ∧
    (F64.le 0x3F1A36E2EB1C432D 0x3FF0000000000000 = true ∧ F64.le 0x3FF0000000000000 0x3FF0000000000000 = true) ∧
    (withC { pinging with seed := 0x3F1A36E2EB1C432D }).c.len.toNat ≤
      (withC { pinging with seed := 0x3F1A36E2EB1C432D }).params.cbufBytes := by decide

/-- One state for each refusal: the length one above the buffer, and the seed just outside its range. -/
theorem witness_CipherRefusalsInOrder :
    (State.reset.c.busy = false ∧ State.reset.c.keyValid = false ∧ State.reset.c.seeded = false) ∧
    ((withC { pinging with len := 4097 }).c.keyValid = true ∧
      (withC { pinging with len := 4097 }).params.cbufBytes < (4097 : Word).toNat) ∧
    ((withC { seededOne with len := 4097 }).c.seeded = true) ∧
    ([0x3F1A36E2EB1C432C, 0x3FF0000000000001, 0x7FF8000000000000, 0x0000000000000000].map fun seed =>
      F64.le 0x3F1A36E2EB1C432D seed && F64.le seed 0x3FF0000000000000) = [false, false, false, false] ∧
    (F64.le 0x3F1A36E2EB1C432D 0x3FE0000000000000 = true ∧ F64.le 0x3FE0000000000000 0x3FF0000000000000 = true) := by decide

/-- A map that stays in the range, and one that leaves it at once. -/
theorem witness_KeystreamIsIteratedMap :
    (∀ i, i < 3 → F64.inUnit ((fun _ : F64 => (0x3FE0000000000000 : F64))^[i + 1] 0) = true) ∧
    (∃ i, i < 3 ∧ F64.inUnit ((fun _ : F64 => (0x3FF0000000000000 : F64))^[i + 1] 0) = false) := by decide +kernel

/-- Both ends of the range, and `-0.0`. -/
theorem witness_ChaosMapStaysInRange :
    ([0x0000000000000000, 0x3FF0000000000000, 0x8000000000000000].map fun x =>
      F64.le 0 x && F64.le x 0x3FF0000000000000) = [true, true, true] := by decide

/-- Both ends of the range, and `-0.0`. -/
theorem witness_KeyByteIsAtMost254 :
    [0x0000000000000000, 0x3FEFFFFFFFFFFFFF, 0x8000000000000000].map F64.inUnit = [true, true, true] := by decide

/-- V-S08, the end of the exact range, V-S15 at its far side, and V-S02 at the top. -/
theorem witness_SeedStaysInRange :
    ([(#v[0x00, 0x00, 0x00, 0x00, 0x00, 0x00, 0x04, 0x00], 50), (#v[0xFF, 0xFF, 0xFF, 0xFF, 0xFF, 0xFF, 0x1F, 0x00], 52),
      (#v[0x01, 0x00, 0x00, 0x00, 0x00, 0x00, 0x20, 0x00], 53), (#v[0x00, 0x00, 0x00, 0x00, 0x00, 0x00, 0x00, 0x80], 63)].all
      fun row : Vector Byte 8 × Nat => !seedReplaced row.1 && decide (2 ^ row.2 ≤ (sint64 (le64 row.1)).natAbs) &&
        decide ((sint64 (le64 row.1)).natAbs < 2 ^ (row.2 + 1))) = true := by decide +kernel

theorem witness_FallbackExactlyForSmallSeeds :
    seedReplaced #v[0x65, 0x88, 0x63, 0x5D, 0xDC, 0x46, 0x03, 0x00] = true := by decide +kernel

theorem witness_ApplyTwiceRestoresBuffer :
    (withC pinging).c.busy = false ∧ (withC pinging).c.keyValid = true ∧
    (withC pinging).c.len.toNat ≤ (withC pinging).params.cbufBytes := by decide

/-- Four bytes in two chunks of two (with a byte of the first chunk and one of the second), and in chunks of four and none. -/
theorem witness_ChunkedApplyEqualsWhole :
    (withC pinging).c.busy = false ∧ (withC pinging).c.keyValid = true ∧
    (withC pinging).c.len.toNat = (2 : Word).toNat + (2 : Word).toNat ∧ 1 < (2 : Word).toNat ∧
    (withC pinging).c.len.toNat = (4 : Word).toNat + (0 : Word).toNat ∧
    (withC pinging).c.len.toNat ≤ (withC pinging).params.cbufBytes := by decide

/-- The state between the two chunks: the next two bytes at the start of `CBUF`. -/
theorem witness_ChunkedApplyEqualsWhole_middle (first : CipherUnit) :
    ∃ mid : State, mid.params = (withC pinging).params ∧ mid.c = { first with len := 2, cbuf := mid.c.cbuf } ∧
      ∀ j, j < (2 : Word).toNat → mid.c.byte j = (withC pinging).c.byte ((2 : Word).toNat + j) := by
  refine ⟨withC { first with len := 2, cbuf := [(0, 0x6E), (1, 0x67)] }, rfl, rfl, fun j hj => ?_⟩
  have hj' : j = 0 ∨ j = 1 := by
    have : (2 : Word).toNat = 2 := rfl
    omega
  rcases hj' with rfl | rfl <;> rfl

/-- A push that fills the buffer exactly, and a push in the `FAILED` state. -/
theorem witness_PushesAppendOrAreDropped :
    pushedBytes (.fPush32 1) = some [1, 0, 0, 0] ∧ State.reset.f.busy = false ∧ State.reset.f.failed = false ∧
    ({ State.reset with params := { Params.default with asmCap := 28 }, f := holding (List.replicate 24 0) } : State).f.asm.length
      + 4 ≤ 28 ∧ failedF.f.failed = true ∧ failedF.f.busy = false := by decide

/-- One byte more than fits (V-P14). -/
theorem witness_OverflowIsFramingFailure :
    pushedBytes (.fPush8 1) = some [1] ∧ (withF (holding (List.replicate 28 0))).f.busy = false ∧
    (withF (holding (List.replicate 28 0))).f.failed = false ∧ 28 < (holding (List.replicate 28 0)).asm.length + 1 := by decide

theorem witness_EncodeWritesWireHeader : failedF.f.busy = false ∧ State.reset.f.busy = false := by decide

/-- The four outcomes: one byte short, a bad magic, the lowest negative length, and the largest length. -/
theorem witness_DecodeOutcomes :
    State.reset.f.busy = false ∧ (24 : Word).toNat < 25 ∧ 25 ≤ (25 : Word).toNat ∧
    (be32 0x41 0x45 0x54 0x49 ≠ 0x41455448) ∧ (be32 0x41 0x45 0x54 0x48 = 0x41455448) ∧
    (be32 0x80 0x00 0x00 0x00).toInt < 0 ∧ 0 ≤ (be32 0x7F 0xFF 0xFF 0xFF).toInt := by decide

/-- The two ends of the length's range, and a header with a wrong magic byte. -/
theorem witness_HeaderRoundTrip :
    0 ≤ (0x00000000 : Word).toInt ∧ 0 ≤ (0x7FFFFFFF : Word).toInt ∧
    ¬((Vector.replicate 25 (0x41 : Byte))[0] = 0x41 ∧ (Vector.replicate 25 (0x41 : Byte))[1] = 0x45 ∧
      (Vector.replicate 25 (0x41 : Byte))[2] = 0x54 ∧ (Vector.replicate 25 (0x41 : Byte))[3] = 0x48) := by decide

theorem witness_ParseWithoutHeader :
    (failedF.f.busy = false ∧ failedF.f.failed = true) ∧
    ((withF (holding (headerF01.take 24))).f.busy = false ∧ (withF (holding (headerF01.take 24))).f.failed = false ∧
      (withF (holding (headerF01.take 24))).f.asm.length < 25) := by decide

theorem witness_ParseBadHeaderFails :
    ((withF (holding badMagic)).f.busy = false ∧ (withF (holding badMagic)).f.failed = false ∧
      25 ≤ (withF (holding badMagic)).f.asm.length ∧ (Claims.headDecoded (holding badMagic)).magic ≠ 0x41455448) ∧
    ((withF (holding badLength)).f.busy = false ∧ (withF (holding badLength)).f.failed = false ∧
      25 ≤ (withF (holding badLength)).f.asm.length ∧ (Claims.headDecoded (holding badLength)).magic = 0x41455448 ∧
      (Claims.headDecoded (holding badLength)).plen.toInt < 0) := by decide

/-- One byte short of the packet, and the packet complete. -/
theorem witness_ParseValidHeader :
    (withF (holding headerF01)).f.busy = false ∧ (withF (holding headerF01)).f.failed = false ∧
    (Claims.headDecoded (holding headerF01)).magic = 0x41455448 ∧ 0 ≤ (Claims.headDecoded (holding headerF01)).plen.toInt ∧
    (25 ≤ (headerF01 ++ [1, 2, 3]).length ∧
      (headerF01 ++ [1, 2, 3]).length < 25 + (Claims.headDecoded (holding (headerF01 ++ [1, 2, 3]))).plen.toNat) ∧
    25 + (Claims.headDecoded (holding (headerF01 ++ [1, 2, 3, 4]))).plen.toNat ≤ (headerF01 ++ [1, 2, 3, 4]).length := by decide

theorem witness_PopRemovesOnePacket :
    ((withF { holding headerF01 with pktValid := true }).f.busy = false ∧
      (withF { holding headerF01 with pktValid := true }).f.failed = false ∧
      (withF { holding headerF01 with pktValid := true }).f.pktValid = true) ∧
    (failedF.f.busy = false ∧ failedF.f.failed = true) ∧ (State.reset.f.failed = false ∧ State.reset.f.pktValid = false) := by
  decide

theorem witness_FramerResetStartsNewConnection : failedF.f.busy = false := by decide

theorem witness_FailedLeftOnlyByReset :
    (∃ t, exec .fReset failedF = .next t ∧ failedF.f.failed = true ∧ t.f.failed = false) ∧
    (∃ t, exec .fParse (withF (holding badMagic)) = .next t ∧ (withF (holding badMagic)).f.failed = false ∧
      t.f.failed = true) := ⟨⟨_, rfl, rfl, rfl⟩, ⟨_, rfl, rfl, by decide⟩⟩

theorem witness_AssemblyBufferGrowsAndShrinksByRule :
    (∃ t, exec (.fPush8 1) State.reset = .next t) ∧ (∃ t, exec .fReset (withF (holding headerF01)) = .next t) :=
  ⟨⟨_, rfl⟩, ⟨_, rfl⟩⟩

/-- The header with 40 payload bytes, and with all 100. -/
theorem witness_PartialPayloadWaits :
    [(List.replicate 100 (1 : Byte)).take 40, List.replicate 100 (1 : Byte)].all (fun held =>
      !(withF (holding ((hdrEncode 2 100 nonceN1).toList ++ held))).f.busy &&
      !(withF (holding ((hdrEncode 2 100 nonceN1).toList ++ held))).f.failed &&
      decide ((withF (holding ((hdrEncode 2 100 nonceN1).toList ++ held))).f.asm =
        (hdrEncode 0x02 100 nonceN1).toList ++ held)) = true ∧
    (List.replicate 100 (1 : Byte)).length = 100 := by decide

/-- V-P10's first packet in two pushes, the second of which completes it. -/
theorem witness_ReassemblyYieldsThePackets :
    State.reset.params.legal = true ∧ State.reset.f.busy = false ∧ State.reset.f.failed = false ∧ State.reset.f.asm = [] ∧
    (∀ p ∈ [(⟨3, nonceN1, []⟩ : Packet)], p.valid = true) ∧
    ([0x48544541, 0x00000003, 0xA2A1A000, 0xA6A5A4A3, 0xAAA9A8A7, 0xAEADACAB].map Instr.fPush32 ++
        [Instr.fPush8 0xAF]).map pushedBytes =
      [[0x41, 0x45, 0x54, 0x48], [3, 0, 0, 0], [0, 0xA0, 0xA1, 0xA2], [0xA3, 0xA4, 0xA5, 0xA6], [0xA7, 0xA8, 0xA9, 0xAA],
        [0xAB, 0xAC, 0xAD, 0xAE], [(0xAF : Byte)]].map some ∧
    [[0x41, 0x45, 0x54, 0x48], [3, 0, 0, 0], [0, 0xA0, 0xA1, 0xA2], [0xA3, 0xA4, 0xA5, 0xA6], [0xA7, 0xA8, 0xA9, 0xAA],
        [0xAB, 0xAC, 0xAD, 0xAE], [(0xAF : Byte)]].flatten = ([(⟨3, nonceN1, []⟩ : Packet)].map Packet.bytes).flatten ∧
    25 ≤ State.reset.params.asmCap := by decide

theorem witness_StepKeepsInvariant :
    ({ State.reset with pending := [.write 32 0x0218 0x48544541] } : State).inv = true ∧
    ∃ t, step { State.reset with pending := [.write 32 0x0218 0x48544541] } = .next t := ⟨by decide, ⟨_, rfl⟩⟩

theorem witness_BlockNeverStops :
    ({ State.reset with pending := [.write 32 0x0100 0x00000004] } : State).inv = true := by decide

theorem witness_LoadKeyLoadsTheSecret : State.reset.c.busy = false ∧ State.reset.f.busy = false := witness_idle_units

theorem witness_PushBytesAppendsThem :
    State.reset.f.busy = false ∧ State.reset.f.failed = false ∧ [(1 : Byte), 2, 3, 4, 5] ≠ [] ∧
    State.reset.f.asm.length + [(1 : Byte), 2, 3, 4, 5].length ≤ State.reset.params.asmCap := by decide

end Sys2Proof.Tests
end

namespace Sys2Proof.Machine

/-! ### The step (00_scope.md R9, R10) -/

/-- Settles O5: both clauses are what `step_cons` and `step_nil` say of a step. -/
theorem stepRunsDecodedInstruction : Obligations.StepRunsDecodedInstruction := by
  refine ⟨fun s a rest i hpending hdecode => ?_, fun s => step_nil⟩
  rw [step_cons hpending, hdecode]

/-! ### The two units share no state (00_scope.md R3)

A cipher instruction is `runC` of an operation that is given the parameters and the cipher unit, and nothing else of the
state; a framer instruction is `runF` of one that is given the parameters and the framer unit. Independence of the other
unit is then a fact about `runC` and `runF`. -/

/-- The operation of a cipher command or key write sees the parameters and the cipher unit only. -/
theorem exec_eq_runC {i : Instr}
    (hi : i ∈ [Instr.cNop, .cKeyset, .cKeyclr, .cSeed, .cApply, .cCont, .cKsstart] ∨ ∃ k w, i = .cKeywr k w) :
    ∃ op : Params → CipherUnit → Option CipherUnit, ∀ s, exec i s = runC s (op s.params) := by
  simp only [List.mem_cons, List.not_mem_nil, or_false] at hi
  obtain (rfl | rfl | rfl | rfl | rfl | rfl | rfl) | ⟨k, w, rfl⟩ := hi
  · exact ⟨fun _ u => some u, fun _ => rfl⟩
  · exact ⟨fun _ u => some u.setKey, fun _ => rfl⟩
  · exact ⟨fun _ u => some u.clearKey, fun _ => rfl⟩
  · exact ⟨fun p u => some (u.deriveSeed (keyedHash p.keyedHash)), fun _ => rfl⟩
  · exact ⟨fun p u => u.apply p (keyedHash p.keyedHash) chaosMap, fun _ => rfl⟩
  · exact ⟨fun p u => u.continueFrom p chaosMap, fun _ => rfl⟩
  · exact ⟨fun p u => u.start p chaosMap, fun _ => rfl⟩
  · exact ⟨fun _ u => some (u.writeKey k.val w), fun _ => rfl⟩

/-- The operation of a framer command or push sees the parameters and the framer unit only. -/
theorem exec_eq_runF {i : Instr}
    (hi : i ∈ [Instr.fNop, .fParse, .fPop, .fEncode, .fDecode, .fReset] ∨ (∃ w, i = .fPush8 w) ∨ ∃ w, i = .fPush32 w) :
    ∃ op : Params → FramerUnit → FramerUnit, ∀ s, exec i s = runF s (op s.params) := by
  simp only [List.mem_cons, List.not_mem_nil, or_false] at hi
  obtain (rfl | rfl | rfl | rfl | rfl | rfl) | ⟨w, rfl⟩ | ⟨w, rfl⟩ := hi
  · exact ⟨fun _ u => u, fun _ => rfl⟩
  · exact ⟨fun p u => u.parse p.asmCap, fun _ => rfl⟩
  · exact ⟨fun _ u => u.pop, fun _ => rfl⟩
  · exact ⟨fun _ u => u.encodeHeader, fun _ => rfl⟩
  · exact ⟨fun _ u => u.decodeStaging, fun _ => rfl⟩
  · exact ⟨fun _ u => u.teardown, fun _ => rfl⟩
  · exact ⟨fun p u => u.push p.asmCap [lane w 0], fun _ => rfl⟩
  · exact ⟨fun p u => u.push p.asmCap [lane w 0, lane w 1, lane w 2, lane w 3], fun _ => rfl⟩

/-- An operation of the cipher unit keeps the framer unit, and answers the same with another one in its place. -/
theorem runC_framer_independent {s t : State} {op : CipherUnit → Option CipherUnit} (f : FramerUnit)
    (h : runC s op = .next t) : t.f = s.f ∧ runC { s with f := f } op = .next { t with f := f } := by
  obtain ⟨hidle, u, hop, rfl⟩ := runC_next h
  exact ⟨rfl, runC_of_some (s := { s with f := f }) hidle hop⟩

/-- An operation of the framer unit keeps the cipher unit, and answers the same with another one in its place. -/
theorem runF_cipher_independent {s t : State} {op : FramerUnit → FramerUnit} (c : CipherUnit)
    (h : runF s op = .next t) : t.c = s.c ∧ runF { s with c := c } op = .next { t with c := c } := by
  obtain ⟨hidle, rfl⟩ := runF_next h
  exact ⟨rfl, runF_idle (s := { s with c := c }) op hidle⟩

/-- Settles O25: each instruction is an operation of its own unit, which the other unit does not reach. -/
theorem unitsShareNoState : Obligations.UnitsShareNoState := by
  constructor
  · intro i s t f hi h
    obtain ⟨op, hop⟩ := exec_eq_runC hi
    rw [hop] at h ⊢
    exact runC_framer_independent f h
  · intro i s t c hi h
    obtain ⟨op, hop⟩ := exec_eq_runF hi
    rw [hop] at h ⊢
    exact runF_cipher_independent c h

end Sys2Proof.Machine

namespace Sys2Proof.Machine

/-! ### Every chaos state a command stores is in `[0, 1]` (10_state.md R45) -/

/-- A seed in the range of C.KSSTART is a chaos state (R179). -/
theorem inClosedUnit_of_seedInRange {s : F64} (h : seedInRange s = true) : F64.inClosedUnit s = true := by
  simp only [seedInRange, Bool.and_eq_true] at h
  obtain ⟨hmin, hone⟩ := h
  have hkeys : F64.orderKey Config.zero ≤ F64.orderKey Config.seedMin := by decide
  simp only [F64.le, F64.isNaN_seedMin, Bool.not_false, Bool.true_and, Bool.and_eq_true, decide_eq_true_eq] at hmin
  rw [F64.inClosedUnit, hone, Bool.and_true]
  simp [F64.le, F64.isNaN_zero, hmin.1, hkeys.trans hmin.2]

/-- The greatest magnitude of a seed integer, `2^63`, is normalised to 1.0 (R155). -/
theorem normalise_greatest : (normalise (2 ^ 63)).toNat = 0x3FF0000000000000 := by decide +kernel

/-- The seed of `SeedOf` is a chaos state (R155). -/
theorem inClosedUnit_seedValue (m8 : Vector Byte 8) : F64.inClosedUnit (seedValue m8) = true := by
  unfold seedValue
  split
  · decide
  · have hle := normalise_mono (seedInteger_natAbs_le m8)
    rw [normalise_greatest] at hle
    exact (F64.inClosedUnit_iff _).2 (.inr hle)

/-- A transform of a legal length from a chaos state ends in one, and keeps the byte store in canonical form and inside its
bounds (R159, R172). -/
theorem CipherUnit.transform_keeps_ok {u v : CipherUnit} {p : Params} {map : F64 → F64} {x : F64} {count : Word}
    (h : u.transform map x count = some v) (hlen : u.lenOk p = true) (hcells : u.cbufOk p = true)
    (hx : F64.inClosedUnit x = true) : v.cbufOk p = true ∧ F64.inClosedUnit v.x = true := by
  obtain ⟨k, xl, hk, rfl⟩ := transform_some h
  have hfits : 0 + k.length ≤ p.cbufBytes := by
    rw [keystream_length hk, Nat.zero_add]
    simpa [lenOk] using hlen
  exact ⟨cbufOk_xorFrom u p 0 k hfits hcells, keystream_final_inClosedUnit hk hx⟩

/-- The clause of R45 on `C_X` holds of a unit whose `C_X` is a chaos state. -/
theorem CipherUnit.chaosOk_of_inClosedUnit {u : CipherUnit} (h : F64.inClosedUnit u.x = true) : u.chaosOk = true := by
  simp [chaosOk, h]

/-- `C_X` of a seeded unit is a chaos state (R45). -/
theorem CipherUnit.inClosedUnit_of_chaosOk {u : CipherUnit} (h : u.chaosOk = true) (hs : u.seeded = true) :
    F64.inClosedUnit u.x = true := by
  simpa [chaosOk, hs] using h

/-- A plain write keeps the byte store in canonical form and inside its bounds: of the registers only a window word reaches
it (R88). -/
theorem CipherUnit.cbufOk_store {u : CipherUnit} {p : Params} (r : Reg) (w : Word) (h4 : p.cbufBytes % 4 = 0)
    (h : u.cbufOk p = true) : (u.store p.cbufBytes r w).cbufOk p = true := by
  cases r with
  | cbufWord i => exact cbufOk_setWindowWord u p i w h4 h
  | _ => exact h

/-- No cipher instruction breaks the canonical form of the byte store or the clause of R45 on `C_X`. -/
theorem CipherStep.keeps_ok {p : Params} {i : Instr} {u v : CipherUnit} (h : CipherStep p i u v)
    (h4 : p.cbufBytes % 4 = 0) (hcells : u.cbufOk p = true) (hchaos : u.chaosOk = true) :
    v.cbufOk p = true ∧ v.chaosOk = true := by
  cases h with
  | nop => exact ⟨hcells, hchaos⟩
  | keyset => exact ⟨hcells, hchaos⟩
  | keyclr => exact ⟨hcells, rfl⟩
  | seed =>
    rcases u.deriveSeed_cases (keyedHash p.keyedHash) with ⟨_, h⟩ | ⟨_, h⟩ <;> rw [h]
    · exact ⟨hcells, hchaos⟩
    · exact ⟨hcells, CipherUnit.chaosOk_of_inClosedUnit (inClosedUnit_seedValue _)⟩
  | apply _ _ h =>
    rcases CipherUnit.apply_cases h with ⟨_, rfl⟩ | ⟨_, _, rfl⟩ | ⟨_, hlen, t, ht, rfl⟩
    · exact ⟨hcells, hchaos⟩
    · exact ⟨hcells, hchaos⟩
    · obtain ⟨hcells', hx⟩ := CipherUnit.transform_keeps_ok ht hlen hcells (inClosedUnit_seedValue _)
      exact ⟨hcells', CipherUnit.chaosOk_of_inClosedUnit hx⟩
  | cont _ _ h =>
    rcases CipherUnit.continueFrom_cases h with ⟨_, rfl⟩ | ⟨_, _, rfl⟩ | ⟨hs, hlen, t, ht, rfl⟩
    · exact ⟨hcells, hchaos⟩
    · exact ⟨hcells, hchaos⟩
    · obtain ⟨hcells', hx⟩ := CipherUnit.transform_keeps_ok ht hlen hcells (CipherUnit.inClosedUnit_of_chaosOk hchaos hs)
      exact ⟨hcells', CipherUnit.chaosOk_of_inClosedUnit hx⟩
  | ksstart _ _ h =>
    rcases CipherUnit.start_cases h with ⟨_, rfl⟩ | ⟨_, _, rfl⟩ | ⟨hs, hlen, t, ht, rfl⟩
    · exact ⟨hcells, hchaos⟩
    · exact ⟨hcells, hchaos⟩
    · obtain ⟨hcells', hx⟩ := CipherUnit.transform_keeps_ok ht hlen hcells (inClosedUnit_of_seedInRange hs)
      exact ⟨hcells', CipherUnit.chaosOk_of_inClosedUnit hx⟩
  | keywr => exact ⟨by simpa [CipherUnit.cbufOk] using hcells, by simpa [CipherUnit.chaosOk] using hchaos⟩
  | illegal => exact ⟨hcells, hchaos⟩
  | store =>
    refine ⟨CipherUnit.cbufOk_store _ _ h4 hcells, ?_⟩
    rw [CipherUnit.chaosOk, CipherUnit.store_seeded, CipherUnit.store_x]
    exact hchaos

/-! ### The framer's clauses of the invariant (10_state.md R39, R45) -/

/-- The framer's clauses, as implications. -/
theorem FramerUnit.ok_iff (u : FramerUnit) (p : Params) :
    u.ok p = true ↔
      u.asmLen ≤ p.asmCap ∧
      (u.hdrValid = true → u.headerPassed = true ∧ u.total.toNat = u.totalSize) ∧
      (u.hdrValid = false → u.total = 0) ∧
      (u.pktValid = true →
        u.hdrValid = true ∧ u.failed = false ∧ u.total.toNat ≤ u.asmLen ∧ u.headerIs u.headBytes = true) ∧
      (u.oversize = true → u.hdrValid = true ∧ p.asmCap < u.total.toNat) := by
  simp only [ok, Bool.and_eq_true, Bool.or_eq_true, Bool.not_eq_true', decide_eq_true_eq]
  cases u.hdrValid <;> cases u.pktValid <;> cases u.oversize <;> simp [and_assoc]

/-- With no parse outcome, only the fill of `ASM` is asked for. -/
theorem FramerUnit.ok_of_noHeader {u : FramerUnit} {p : Params} (hasm : u.asmLen ≤ p.asmCap) (hpkt : u.pktValid = false)
    (hhdr : u.hdrValid = false) (hover : u.oversize = false) (htotal : u.total = 0) : u.ok p = true := by
  simp [ok, hasm, hpkt, hhdr, hover, htotal]

/-- The verdict `valid` is the magic check and the length check (R200). -/
theorem FramerUnit.headerPassed_of_valid {u : FramerUnit} (h : u.verdict = .valid) : u.headerPassed = true := by
  unfold verdict at h
  split at h
  · cases h
  · split at h
    · cases h
    · rename_i hmagic hlen
      simp only [headerPassed, Bool.and_eq_true, decide_eq_true_eq]
      exact ⟨not_not.1 hmagic, not_lt.1 hlen⟩

/-- `F_TOTAL` holds every `totalSize` exactly (R39). -/
theorem FramerUnit.totalSize_toNat (u : FramerUnit) : (BitVec.ofNat 32 u.totalSize).toNat = u.totalSize := by
  have hlt := BitVec.toInt_lt (x := u.plen)
  rw [BitVec.toNat_ofNat, Nat.mod_eq_of_lt]
  simp only [totalSize, Config.hdrSize, sint32]
  omega

/-- A total size counts the 25 bytes of the header. -/
theorem FramerUnit.le_totalSize (u : FramerUnit) : 25 ≤ u.totalSize := Nat.le_add_right ..

/-- The head of `ASM` does not change when bytes are appended after it. -/
theorem FramerUnit.headBytes_append (u : FramerUnit) (bytes : List Byte) (h : 25 ≤ u.asmLen) :
    ({ u with asm := u.asm ++ bytes } : FramerUnit).headBytes = u.headBytes := by
  apply Vector.ext
  intro i hi
  simp only [headBytes, Vector.getElem_ofFn]
  exact List.getD_append _ _ _ _ (Nat.lt_of_lt_of_le hi h)

/-- The header registers after staging are the head of `ASM` (R226). -/
theorem FramerUnit.headerIs_staged (u : FramerUnit) : u.staged.headerIs u.headBytes = true := by
  simp [headerIs]

/-- A push keeps the clauses: the head of `ASM` stays, and what does not fit clears the parse outcome (R224, R236). -/
theorem FramerUnit.ok_push {u : FramerUnit} {p : Params} (bytes : List Byte) (h : u.ok p = true) :
    (u.push p.asmCap bytes).ok p = true := by
  obtain ⟨hasm, hhdr, hno, hpkt, hover⟩ := (ok_iff u p).1 h
  rcases u.push_cases p.asmCap bytes with ⟨_, e⟩ | ⟨_, _, e⟩ | ⟨_, hfits, e⟩ <;> rw [e]
  · exact h
  · exact ok_of_noHeader hasm rfl rfl rfl rfl
  · refine (ok_iff _ p).2 ⟨?_, hhdr, hno, fun hv => ?_, hover⟩
    · simpa [asmLen] using hfits
    · obtain ⟨hv', hf, htotal, hhead⟩ := hpkt hv
      have h25 : 25 ≤ u.asmLen := by
        have := u.le_totalSize
        have := (hhdr hv').2
        omega
      refine ⟨hv', hf, ?_, ?_⟩
      · simp only [asmLen, List.length_append] at htotal ⊢
        omega
      · rw [headBytes_append u bytes h25]
        exact hhead

/-- The end of F.PARSE on a valid header meets the clauses (R226, R237). -/
theorem FramerUnit.ok_finishParse {u : FramerUnit} {p : Params} (hasm : u.asmLen ≤ p.asmCap) (hfailed : u.failed = false)
    (hvalid : u.staged.verdict = .valid) : (u.staged.finishParse p.asmCap).ok p = true := by
  have hpassed := headerPassed_of_valid hvalid
  have htotal := u.staged.totalSize_toNat
  unfold finishParse
  split
  · refine (ok_iff _ p).2 ⟨hasm, fun _ => ⟨hpassed, htotal⟩, nofun, nofun, fun hover => ⟨rfl, ?_⟩⟩
    rw [htotal]
    simpa using hover
  · rename_i hcomplete
    refine (ok_iff _ p).2 ⟨hasm, fun _ => ⟨hpassed, htotal⟩, nofun, fun _ => ⟨rfl, hfailed, ?_, u.headerIs_staged⟩, nofun⟩
    rw [htotal]
    exact not_lt.1 hcomplete

/-- F.PARSE keeps the clauses (R226). -/
theorem FramerUnit.ok_parse {u : FramerUnit} {p : Params} (h : u.ok p = true) : (u.parse p.asmCap).ok p = true := by
  have hasm := ((ok_iff u p).1 h).1
  rcases u.parse_cases p.asmCap with ⟨_, e⟩ | ⟨_, _, e⟩ | ⟨hf, _, ⟨_, e⟩ | ⟨_, e⟩ | ⟨hvalid, e⟩⟩ <;> rw [e]
  · exact h
  · exact ok_of_noHeader hasm rfl rfl rfl rfl
  · exact ok_of_noHeader hasm rfl rfl rfl rfl
  · exact ok_of_noHeader hasm rfl rfl rfl rfl
  · exact ok_finishParse hasm hf hvalid

/-- F.POP keeps the clauses: what it removes takes the parse outcome with it (R227). -/
theorem FramerUnit.ok_pop {u : FramerUnit} {p : Params} (h : u.ok p = true) : u.pop.ok p = true := by
  have hasm := ((ok_iff u p).1 h).1
  rcases u.pop_cases with ⟨_, e⟩ | ⟨_, _, e⟩ | ⟨_, _, e⟩ <;> rw [e]
  · exact h
  · exact h
  · refine ok_of_noHeader ?_ rfl rfl rfl rfl
    simp only [asmLen, List.length_drop] at hasm ⊢
    omega

/-- F.DECODE keeps the clauses: it leaves no packet, and a header only where the checks passed (R203). -/
theorem FramerUnit.ok_decodeStaging {u : FramerUnit} {p : Params} (h : u.ok p = true) : u.decodeStaging.ok p = true := by
  have hasm := ((ok_iff u p).1 h).1
  rcases u.decodeStaging_cases with ⟨_, e⟩ | ⟨_, ⟨_, e⟩ | ⟨_, e⟩ | ⟨hvalid, e⟩⟩ <;> rw [e]
  · exact ok_of_noHeader hasm rfl rfl rfl rfl
  · exact ok_of_noHeader hasm rfl rfl rfl rfl
  · exact ok_of_noHeader hasm rfl rfl rfl rfl
  · exact (ok_iff _ p).2
      ⟨hasm, fun _ => ⟨headerPassed_of_valid hvalid, totalSize_toNat _⟩, nofun, nofun, nofun⟩

/-- A plain write keeps the clauses: they read none of the registers it stores (R204). -/
theorem FramerUnit.ok_store {u : FramerUnit} {p : Params} (r : Reg) (w : Word) (h : u.ok p = true) :
    (u.store r w).ok p = true := by
  rw [store_frame]
  exact h

/-- No framer instruction breaks the framer's clauses of the invariant. -/
theorem FramerStep.keeps_ok {p : Params} {i : Instr} {u v : FramerUnit} (h : FramerStep p i u v) (hok : u.ok p = true) :
    v.ok p = true := by
  cases h with
  | nop => exact hok
  | parse => exact FramerUnit.ok_parse hok
  | pop => exact FramerUnit.ok_pop hok
  | encode => exact hok
  | decode => exact FramerUnit.ok_decodeStaging hok
  | teardown => exact FramerUnit.ok_of_noHeader (Nat.zero_le _) rfl rfl rfl rfl
  | push8 => exact FramerUnit.ok_push _ hok
  | push32 => exact FramerUnit.ok_push _ hok
  | illegal => exact hok
  | store => exact FramerUnit.ok_store _ _ hok

/-! ### The invariant of the machine -/

/-- The invariant, clause by clause. -/
theorem State.inv_iff (s : State) :
    s.inv = true ↔
      s.params.legal = true ∧ s.c.busy = false ∧ s.f.busy = false ∧ s.c.cbufOk s.params = true ∧ s.c.chaosOk = true ∧
      s.f.ok s.params = true := by
  simp [inv, and_assoc]

/-- A legal `CBUF_BYTES` is a whole number of words (R6). -/
theorem Params.cbufBytes_mod_four {p : Params} (h : p.legal = true) : p.cbufBytes % 4 = 0 := by
  simp only [legal, Bool.and_eq_true, decide_eq_true_eq] at h
  omega

/-- Both units after reset meet the invariant under any legal parameters (R46). -/
theorem State.inv_reset_units {s : State} (draw : Nat) (r : Response) (h : s.params.legal = true) :
    ({ s with c := CipherUnit.reset draw, f := FramerUnit.reset, response := r } : State).inv = true :=
  (inv_iff _).2 ⟨h, rfl, rfl, CipherUnit.cbufOk_reset draw s.params, rfl,
    FramerUnit.ok_of_noHeader (Nat.zero_le _) rfl rfl rfl rfl⟩

/-- No instruction breaks the invariant. -/
theorem Effect.keeps_inv {i : Instr} {s t : State} (h : Effect i s t) (hinv : s.inv = true) : t.inv = true := by
  obtain ⟨hlegal, hcidle, hfidle, hcells, hchaos, hframer⟩ := (State.inv_iff s).1 hinv
  cases h with
  | unchanged r _ ht =>
    subst ht
    exact hinv
  | cipher v _ hv ht =>
    subst ht
    obtain ⟨hcells', hchaos'⟩ := hv.keeps_ok (Params.cbufBytes_mod_four hlegal) hcells hchaos
    exact (State.inv_iff _).2 ⟨hlegal, hv.busy.trans hcidle, hfidle, hcells', hchaos', hframer⟩
  | framer v _ hv ht =>
    subst ht
    exact (State.inv_iff _).2 ⟨hlegal, hcidle, hv.busy.trans hfidle, hcells, hchaos, hv.keeps_ok hframer⟩
  | reset _ ht =>
    subst ht
    exact State.inv_reset_units _ _ hlegal

/-- Settles O57: a step waits, answers a bus error, or performs one instruction, and each keeps the invariant. -/
theorem stepKeepsInvariant : Obligations.StepKeepsInvariant := by
  intro s t hinv hstep
  rcases step_effect hstep with ⟨_, rfl⟩ | ⟨_, rest, i, _, _, _, heffect⟩ | ⟨_, rest, _, rfl⟩
  · exact hinv
  · exact heffect.keeps_inv hinv
  · exact hinv

/-- Settles O56: the default parameters are legal and both units are reset. -/
theorem resetMeetsInvariant : Obligations.ResetMeetsInvariant :=
  State.inv_reset_units (s := State.reset) 0 .idle (by decide)

/-! ### No step makes a unit busy (10_state.md R44) -/

/-- No instruction makes a unit busy. -/
theorem Effect.busy {i : Instr} {s t : State} (h : Effect i s t) :
    (t.c.busy = true → s.c.busy = true) ∧ (t.f.busy = true → s.f.busy = true) := by
  cases h with
  | unchanged r _ ht =>
    subst ht
    exact ⟨id, id⟩
  | cipher v _ hv ht =>
    subst ht
    exact ⟨hv.busy.symm.trans, id⟩
  | framer v _ hv ht =>
    subst ht
    exact ⟨id, hv.busy.symm.trans⟩
  | reset _ ht =>
    subst ht
    exact ⟨nofun, nofun⟩

/-- Settles O24: a step waits, answers a bus error, or performs one instruction, and none of them sets BUSY. -/
theorem noStepMakesAUnitBusy : Obligations.NoStepMakesAUnitBusy := by
  intro s t hstep
  rcases step_effect hstep with ⟨_, rfl⟩ | ⟨_, rest, i, _, _, _, heffect⟩ | ⟨_, rest, _, rfl⟩
  · exact ⟨id, id⟩
  · exact heffect.busy
  · exact ⟨id, id⟩

/-! ### Reset (10_state.md R46, 44_system.md R262) -/

/-- The cipher unit and the framer unit after reset hold the values of R46, whatever the draw of the `CBUF` bytes. -/
theorem resetBlock_reset (draw : Nat) : Claims.resetBlock (CipherUnit.reset draw) FramerUnit.reset := by
  have hcipher : (CipherUnit.reset draw).status = 0 := by
    simp [CipherUnit.status, CipherUnit.reset, bitAt]
  have hframer : FramerUnit.reset.status = 0 := by decide
  simp only [Claims.resetBlock, hcipher, hframer, CipherUnit.byte_reset]
  simp [CipherUnit.reset, FramerUnit.reset, Config.zero]

/-- A word other than 1 written to SYS_RESET changes nothing (R262). -/
theorem exec_hostWr_sysReset_ignored (s : State) {w : Word} (hw : w ≠ 0x00000001) :
    exec (.hostWr 0x0010 w) s = .next { s with response := .written } := by
  have hreg : regAt 0x0010 = .sysReset := by decide
  have haccepted : accepted 0x0010 = true := by decide
  simp only [exec, execHostWr, haccepted, hreg, if_neg hw, ignoredWrite_eq]
  rfl

/-- Settles O8: SYS.RESET puts both reset units in place, with the draw after the one in force. -/
theorem resetGivesResetValues : Obligations.ResetGivesResetValues :=
  ⟨resetBlock_reset 0,
    fun s => ⟨_, rfl, resetBlock_reset (s.c.draw + 1), Nat.succ_ne_self _, rfl, rfl, rfl⟩,
    fun s _ hw => exec_hostWr_sysReset_ignored s hw⟩

/-! ### Reads: the identity registers and the secret (10_state.md R21, R24) -/

/-- A read of a register of the block itself completes in every state. -/
theorem exec_hostRd_system {off : Nat} (s : State) (ha : accepted off = true) (ho : (regAt off).owner = .system) :
    exec (.hostRd off) s = .next { s with response := .data (readValue s (regAt off)) } :=
  exec_hostRd ha (.inl (by simp [ownerBusy, ho]))

/-- Settles O9: the four registers belong to no unit, so that no busy unit stops their reads. -/
theorem identityRegistersReadConstants : Obligations.IdentityRegistersReadConstants := fun s =>
  ⟨exec_hostRd_system (off := 0x0000) s rfl rfl, exec_hostRd_system (off := 0x0004) s rfl rfl,
    exec_hostRd_system (off := 0x0008) s rfl rfl, exec_hostRd_system (off := 0x000C) s rfl rfl⟩

/-- No register's read value depends on the secret: `C_KEY` reads 0 (R93). -/
theorem readValue_key_independent (s : State) (key : Vector Byte 32) (r : Reg) :
    readValue { s with c := { s.c with key := key } } r = readValue s r := by
  cases r <;> rfl

/-- Everything a read can do when it answers a next state: a bus error, or the value of a register whose owner allows it. -/
theorem exec_hostRd_next {s t : State} {off : Nat} (h : exec (.hostRd off) s = .next t) :
    (accepted off = false ∧ t = { s with response := .busError }) ∨
    (accepted off = true ∧ (ownerBusy s (regAt off) = false ∨ (regAt off).readableWhileBusy = true) ∧
      t = { s with response := .data (readValue s (regAt off)) }) := by
  simp only [exec, execHostRd] at h
  split at h
  · rename_i ha
    rw [busError_eq, Host.Outcome.next.injEq] at h
    exact .inl ⟨by simpa using ha, h.symm⟩
  · rename_i ha
    split at h
    · cases h
    · rename_i hb
      rw [Host.Outcome.next.injEq] at h
      simp only [Bool.and_eq_true, Bool.not_eq_true', not_and_or, Bool.not_eq_true, Bool.not_eq_false] at hb
      exact .inr ⟨by simpa using ha, hb, h.symm⟩

/-- A read at an offset that is not accepted is a bus error (R82). -/
theorem exec_hostRd_unaccepted {s : State} {off : Nat} (ha : accepted off = false) :
    exec (.hostRd off) s = .next { s with response := .busError } := by
  simp [exec, execHostRd, ha, busError_eq]

/-- Settles O18: neither whether a read completes nor what it answers looks at the secret. -/
theorem secretCannotBeReadBack : Obligations.SecretCannotBeReadBack := by
  intro s off key t h
  rcases exec_hostRd_next h with ⟨ha, rfl⟩ | ⟨ha, hb, rfl⟩
  · exact exec_hostRd_unaccepted ha
  · rw [exec_hostRd (s := { s with c := { s.c with key := key } }) ha hb, readValue_key_independent]

/-! ### The status registers (10_state.md R27, R28, R36) -/

/-- The bits of `C_STATUS` above the sticky bits are reserved and read 0 (R27). -/
theorem CipherUnit.status_getLsbD_reserved (u : CipherUnit) {i : Nat} (hi : ¬i < 13) : u.status.getLsbD i = false := by
  rw [status_getLsbD]
  simp only [Bool.or_eq_false_iff, Bool.and_eq_false_iff, decide_eq_false_iff_not]
  omega

/-- The bits of `F_STATUS` above the sticky bits are reserved and read 0 (R36). -/
theorem FramerUnit.status_getLsbD_reserved (u : FramerUnit) {i : Nat} (hi : ¬i < 13) : u.status.getLsbD i = false := by
  rw [status_getLsbD]
  simp only [Bool.or_eq_false_iff, Bool.and_eq_false_iff, decide_eq_false_iff_not]
  omega

/-- Settles O19: a status register is read whether or not its unit is busy, and its word is known bit by bit. -/
theorem statusRegisterLayout : Obligations.StatusRegisterLayout := by
  intro s
  refine ⟨exec_hostRd (off := 0x0104) rfl (.inr rfl), exec_hostRd (off := 0x0204) rfl (.inr rfl), fun i _ => ?_⟩
  by_cases hi : i < 13
  · rw [CipherUnit.status_getLsbD, FramerUnit.status_getLsbD]
    interval_cases i <;> simp
  · rw [CipherUnit.status_getLsbD_reserved _ hi, FramerUnit.status_getLsbD_reserved _ hi,
      List.getD_eq_default _ _ (by simpa using hi), List.getD_eq_default _ _ (by simpa using hi)]
    exact ⟨rfl, rfl⟩

/-- A write to `C_STATUS` clears in the word the sticky positions written with 1, and no other (R28). -/
theorem CipherUnit.status_writeStatus (u : CipherUnit) (w : Word) :
    (u.writeStatus w).status = u.status &&& ~~~(w &&& 0x00001F00) := by
  apply BitVec.eq_of_getLsbD_eq
  intro i _
  rw [BitVec.getLsbD_and]
  by_cases hi : i < 13
  · rw [status_getLsbD, status_getLsbD]
    interval_cases i <;> simp [CErrs.clear]
  · rw [status_getLsbD_reserved _ hi, status_getLsbD_reserved _ hi, Bool.false_and]

/-- A write to `F_STATUS` clears in the word the sticky positions written with 1, and no other (R28). -/
theorem FramerUnit.status_writeStatus (u : FramerUnit) (w : Word) :
    (u.writeStatus w).status = u.status &&& ~~~(w &&& 0x00001F00) := by
  apply BitVec.eq_of_getLsbD_eq
  intro i _
  rw [BitVec.getLsbD_and]
  by_cases hi : i < 13
  · rw [status_getLsbD, status_getLsbD]
    interval_cases i <;> simp [FErrs.clear]
  · rw [status_getLsbD_reserved _ hi, status_getLsbD_reserved _ hi, Bool.false_and]

/-- Settles O20: the write is `writeStatus` of the idle unit, which changes the sticky bits only. -/
theorem statusWriteClearsStickyBits : Obligations.StatusWriteClearsStickyBits := fun s w =>
  ⟨fun hidle => ⟨_, exec_hostWr_cipher (off := 0x0104) (r := .cStatus) rfl rfl rfl rfl hidle, rfl,
      CipherUnit.status_writeStatus s.c w⟩,
    fun hidle => ⟨_, exec_hostWr_framer (off := 0x0204) (r := .fStatus) rfl rfl rfl rfl hidle, rfl,
      FramerUnit.status_writeStatus s.f w⟩⟩

/-! ### Only a reset and a status write clear sticky bits (10_state.md R28) -/

/-- Every sticky bit of `C_STATUS` that is set in `e` is set in `e'`. -/
structure CErrs.KeptIn (e e' : CErrs) : Prop where
  noKey : e.noKey = true → e'.noKey = true
  len : e.len = true → e'.len = true
  cmd : e.cmd = true → e'.cmd = true
  noSeed : e.noSeed = true → e'.noSeed = true
  seed : e.seed = true → e'.seed = true

/-- Every sticky bit of `F_STATUS` that is set in `e` is set in `e'`. -/
structure FErrs.KeptIn (e e' : FErrs) : Prop where
  magic : e.magic = true → e'.magic = true
  length : e.length = true → e'.length = true
  cmd : e.cmd = true → e'.cmd = true
  noPkt : e.noPkt = true → e'.noPkt = true
  ovf : e.ovf = true → e'.ovf = true

namespace CErrs.KeptIn

theorem refl (e : CErrs) : e.KeptIn e := ⟨id, id, id, id, id⟩
theorem setNoKey (e : CErrs) : e.KeptIn e.setNoKey := ⟨fun _ => rfl, id, id, id, id⟩
theorem setLen (e : CErrs) : e.KeptIn e.setLen := ⟨id, fun _ => rfl, id, id, id⟩
theorem setCmd (e : CErrs) : e.KeptIn e.setCmd := ⟨id, id, fun _ => rfl, id, id⟩
theorem setNoSeed (e : CErrs) : e.KeptIn e.setNoSeed := ⟨id, id, id, fun _ => rfl, id⟩
theorem setSeed (e : CErrs) : e.KeptIn e.setSeed := ⟨id, id, id, id, fun _ => rfl⟩

/-- What is kept in the sticky bits is kept at their positions of `C_STATUS` (R27). -/
theorem status {u v : CipherUnit} (h : u.errs.KeptIn v.errs) {b : Nat} (h8 : 8 ≤ b) (h13 : b < 13)
    (hb : u.status.getLsbD b = true) : v.status.getLsbD b = true := by
  rw [CipherUnit.status_getLsbD] at hb ⊢
  interval_cases b
  · simpa using h.noKey (by simpa using hb)
  · simpa using h.len (by simpa using hb)
  · simpa using h.cmd (by simpa using hb)
  · simpa using h.noSeed (by simpa using hb)
  · simpa using h.seed (by simpa using hb)

end CErrs.KeptIn

namespace FErrs.KeptIn

theorem refl (e : FErrs) : e.KeptIn e := ⟨id, id, id, id, id⟩
theorem setMagic (e : FErrs) : e.KeptIn e.setMagic := ⟨fun _ => rfl, id, id, id, id⟩
theorem setLength (e : FErrs) : e.KeptIn e.setLength := ⟨id, fun _ => rfl, id, id, id⟩
theorem setCmd (e : FErrs) : e.KeptIn e.setCmd := ⟨id, id, fun _ => rfl, id, id⟩
theorem setNoPkt (e : FErrs) : e.KeptIn e.setNoPkt := ⟨id, id, id, fun _ => rfl, id⟩
theorem setOvf (e : FErrs) : e.KeptIn e.setOvf := ⟨id, id, id, id, fun _ => rfl⟩

/-- What is kept in the sticky bits is kept at their positions of `F_STATUS` (R36). -/
theorem status {u v : FramerUnit} (h : u.errs.KeptIn v.errs) {b : Nat} (h8 : 8 ≤ b) (h13 : b < 13)
    (hb : u.status.getLsbD b = true) : v.status.getLsbD b = true := by
  rw [FramerUnit.status_getLsbD] at hb ⊢
  interval_cases b
  · simpa using h.magic (by simpa using hb)
  · simpa using h.length (by simpa using hb)
  · simpa using h.cmd (by simpa using hb)
  · simpa using h.noPkt (by simpa using hb)
  · simpa using h.ovf (by simpa using hb)

end FErrs.KeptIn

/-- `v` holds the secret and KEY_VALID of `u`, and every sticky bit that is set in `u`: what C.SEED, C.APPLY, C.CONT and
C.KSSTART keep (R176 to R179). -/
structure CipherUnit.KeepsKeyAndErrs (u v : CipherUnit) : Prop where
  key : v.key = u.key
  keyValid : v.keyValid = u.keyValid
  errs : u.errs.KeptIn v.errs

theorem CipherUnit.refuse_keepsKeyAndErrs {u : CipherUnit} {b : CErrs → CErrs} (r : CResult) (h : u.errs.KeptIn (b u.errs)) :
    u.KeepsKeyAndErrs (u.refuse b r) := ⟨rfl, rfl, h⟩

theorem CipherUnit.takeSeed_keepsKeyAndErrs (u : CipherUnit)
    (hash : Vector Byte 32 → Vector Byte 16 → Config.MixedKey) : u.KeepsKeyAndErrs (u.takeSeed hash) :=
  ⟨by simp, by simp, by simpa using .refl u.errs⟩

theorem CipherUnit.transform_keepsKeyAndErrs {u v : CipherUnit} {map : F64 → F64} {x : F64} {count : Word}
    (h : u.transform map x count = some v) : u.KeepsKeyAndErrs v := by
  obtain ⟨_, _, _, rfl⟩ := transform_some h
  exact ⟨rfl, rfl, .refl _⟩

theorem CipherUnit.deriveSeed_keepsKeyAndErrs (u : CipherUnit)
    (hash : Vector Byte 32 → Vector Byte 16 → Config.MixedKey) : u.KeepsKeyAndErrs (u.deriveSeed hash) := by
  rcases u.deriveSeed_cases hash with ⟨_, e⟩ | ⟨_, e⟩ <;> rw [e]
  · exact refuse_keepsKeyAndErrs _ (.setNoKey _)
  · obtain ⟨hkey, hvalid, herrs⟩ := u.takeSeed_keepsKeyAndErrs hash
    exact ⟨hkey, hvalid, herrs⟩

theorem CipherUnit.apply_keepsKeyAndErrs {u v : CipherUnit} {p : Params}
    {hash : Vector Byte 32 → Vector Byte 16 → Config.MixedKey} {map : F64 → F64} (h : u.apply p hash map = some v) :
    u.KeepsKeyAndErrs v := by
  rcases apply_cases h with ⟨_, rfl⟩ | ⟨_, _, rfl⟩ | ⟨_, _, t, ht, rfl⟩
  · exact refuse_keepsKeyAndErrs _ (.setNoKey _)
  · exact refuse_keepsKeyAndErrs _ (.setLen _)
  · obtain ⟨hkey, hvalid, herrs⟩ := transform_keepsKeyAndErrs ht
    simp only [takeSeed_key, takeSeed_keyValid, takeSeed_errs] at hkey hvalid herrs
    exact ⟨hkey, hvalid, herrs⟩

theorem CipherUnit.continueFrom_keepsKeyAndErrs {u v : CipherUnit} {p : Params} {map : F64 → F64}
    (h : u.continueFrom p map = some v) : u.KeepsKeyAndErrs v := by
  rcases continueFrom_cases h with ⟨_, rfl⟩ | ⟨_, _, rfl⟩ | ⟨_, _, t, ht, rfl⟩
  · exact refuse_keepsKeyAndErrs _ (.setNoSeed _)
  · exact refuse_keepsKeyAndErrs _ (.setLen _)
  · obtain ⟨hkey, hvalid, herrs⟩ := transform_keepsKeyAndErrs ht
    exact ⟨hkey, hvalid, herrs⟩

theorem CipherUnit.start_keepsKeyAndErrs {u v : CipherUnit} {p : Params} {map : F64 → F64}
    (h : u.start p map = some v) : u.KeepsKeyAndErrs v := by
  rcases start_cases h with ⟨_, rfl⟩ | ⟨_, _, rfl⟩ | ⟨_, _, t, ht, rfl⟩
  · exact refuse_keepsKeyAndErrs _ (.setSeed _)
  · exact refuse_keepsKeyAndErrs _ (.setLen _)
  · obtain ⟨hkey, hvalid, herrs⟩ := transform_keepsKeyAndErrs ht
    exact ⟨hkey, hvalid, herrs⟩

theorem regAt_cStatus {off : Nat} (h : regAt off = .cStatus) : off = 0x0104 :=
  offset_of_single h (by simp) (by simp) (by simp) (by decide)

theorem regAt_fStatus {off : Nat} (h : regAt off = .fStatus) : off = 0x0204 :=
  offset_of_single h (by simp) (by simp) (by simp) (by decide)

/-- No cipher instruction but the write to `C_STATUS` clears a sticky bit. -/
theorem CipherStep.keeps_errs {p : Params} {i : Instr} {u v : CipherUnit} (h : CipherStep p i u v)
    (hi : ∀ w, i ≠ .hostWr 0x0104 w) : u.errs.KeptIn v.errs := by
  cases h with
  | nop => exact .refl _
  | keyset => exact .refl _
  | keyclr => exact .refl _
  | seed => exact (u.deriveSeed_keepsKeyAndErrs _).errs
  | apply _ _ h => exact (CipherUnit.apply_keepsKeyAndErrs h).errs
  | cont _ _ h => exact (CipherUnit.continueFrom_keepsKeyAndErrs h).errs
  | ksstart _ _ h => exact (CipherUnit.start_keepsKeyAndErrs h).errs
  | keywr =>
    rw [CipherUnit.writeKey_errs]
    exact .refl _
  | illegal => exact .setCmd _
  | store _ off w _ =>
    have hreg : regAt off ≠ .cStatus := fun hr => hi w (by rw [regAt_cStatus hr])
    rw [CipherUnit.store_errs _ _ _ _ hreg]
    exact .refl _

/-- F.PARSE clears no sticky bit (R226). -/
theorem FramerUnit.parse_keeps_errs (u : FramerUnit) (asmCap : Nat) : u.errs.KeptIn (u.parse asmCap).errs := by
  rcases u.parse_cases asmCap with ⟨_, e⟩ | ⟨_, _, e⟩ | ⟨_, _, ⟨_, e⟩ | ⟨_, e⟩ | ⟨_, e⟩⟩ <;> rw [e]
  · exact .refl _
  · exact .refl _
  · simpa using .setMagic u.errs
  · simpa using .setLength u.errs
  · unfold finishParse
    split <;> simpa using .refl u.errs

/-- F.POP clears no sticky bit (R227). -/
theorem FramerUnit.pop_keeps_errs (u : FramerUnit) : u.errs.KeptIn u.pop.errs := by
  rcases u.pop_cases with ⟨_, e⟩ | ⟨_, _, e⟩ | ⟨_, _, e⟩ <;> rw [e]
  · exact .refl _
  · exact .setNoPkt _
  · exact .refl _

/-- F.DECODE clears no sticky bit (R203). -/
theorem FramerUnit.decodeStaging_keeps_errs (u : FramerUnit) : u.errs.KeptIn u.decodeStaging.errs := by
  rcases u.decodeStaging_cases with ⟨_, e⟩ | ⟨_, ⟨_, e⟩ | ⟨_, e⟩ | ⟨_, e⟩⟩ <;> rw [e]
  · exact .refl _
  · simpa using .setMagic u.errs
  · simpa using .setLength u.errs
  · simpa using .refl u.errs

/-- A push clears no sticky bit (R224, R225, R236). -/
theorem FramerUnit.push_keeps_errs (u : FramerUnit) (asmCap : Nat) (bytes : List Byte) :
    u.errs.KeptIn (u.push asmCap bytes).errs := by
  rcases u.push_cases asmCap bytes with ⟨_, e⟩ | ⟨_, _, e⟩ | ⟨_, _, e⟩ <;> rw [e]
  · exact .refl _
  · exact .setOvf _
  · exact .refl _

/-- No framer instruction but the write to `F_STATUS` clears a sticky bit. -/
theorem FramerStep.keeps_errs {p : Params} {i : Instr} {u v : FramerUnit} (h : FramerStep p i u v)
    (hi : ∀ w, i ≠ .hostWr 0x0204 w) : u.errs.KeptIn v.errs := by
  cases h with
  | nop => exact .refl _
  | parse => exact u.parse_keeps_errs _
  | pop => exact u.pop_keeps_errs
  | encode => exact .refl _
  | decode => exact u.decodeStaging_keeps_errs
  | teardown => exact .refl _
  | push8 => exact u.push_keeps_errs _ _
  | push32 => exact u.push_keeps_errs _ _
  | illegal => exact .setCmd _
  | store _ off w _ =>
    have hreg : regAt off ≠ .fStatus := fun hr => hi w (by rw [regAt_fStatus hr])
    rw [FramerUnit.store_errs _ _ _ hreg]
    exact .refl _

/-- No instruction but a block reset and the two status writes clears a sticky bit of either unit. -/
theorem Effect.keeps_errs {i : Instr} {s t : State} (h : Effect i s t) (hreset : i ≠ .sysReset)
    (hc : ∀ w, i ≠ .hostWr 0x0104 w) (hf : ∀ w, i ≠ .hostWr 0x0204 w) :
    s.c.errs.KeptIn t.c.errs ∧ s.f.errs.KeptIn t.f.errs := by
  cases h with
  | unchanged r _ ht =>
    subst ht
    exact ⟨.refl _, .refl _⟩
  | cipher v _ hv ht =>
    subst ht
    exact ⟨hv.keeps_errs hc, .refl _⟩
  | framer v _ hv ht =>
    subst ht
    exact ⟨.refl _, hv.keeps_errs hf⟩
  | reset hi _ => exact absurd hi hreset

/-- Settles O21: the sticky bits are kept, so are their positions in the two status words. -/
theorem noCommandClearsStickyBits : Obligations.NoCommandClearsStickyBits := by
  intro i s t hwf h hreset hc hf b h8 h13
  obtain ⟨hcipher, hframer⟩ := (exec_next hwf h).keeps_errs hreset hc hf
  exact ⟨hcipher.status h8 h13, hframer.status h8 h13⟩

/-! ### KEY_VALID (10_state.md R25, R45) -/

/-- A cipher instruction after which KEY_VALID is 1 kept it and the secret, or is C.KEYSET. -/
theorem CipherStep.keyValid_cases {p : Params} {i : Instr} {u v : CipherUnit} (h : CipherStep p i u v)
    (hv : v.keyValid = true) : (u.keyValid = true ∧ v.key = u.key) ∨ i = .cKeyset := by
  cases h with
  | nop => exact .inl ⟨hv, rfl⟩
  | keyset => exact .inr rfl
  | keyclr => cases hv
  | seed =>
    obtain ⟨hkey, hvalid, _⟩ := u.deriveSeed_keepsKeyAndErrs (keyedHash p.keyedHash)
    exact .inl ⟨hvalid.symm.trans hv, hkey⟩
  | apply _ _ h =>
    obtain ⟨hkey, hvalid, _⟩ := CipherUnit.apply_keepsKeyAndErrs h
    exact .inl ⟨hvalid.symm.trans hv, hkey⟩
  | cont _ _ h =>
    obtain ⟨hkey, hvalid, _⟩ := CipherUnit.continueFrom_keepsKeyAndErrs h
    exact .inl ⟨hvalid.symm.trans hv, hkey⟩
  | ksstart _ _ h =>
    obtain ⟨hkey, hvalid, _⟩ := CipherUnit.start_keepsKeyAndErrs h
    exact .inl ⟨hvalid.symm.trans hv, hkey⟩
  | keywr =>
    rw [CipherUnit.writeKey_keyValid] at hv
    cases hv
  | illegal => exact .inl ⟨hv, rfl⟩
  | store =>
    rw [CipherUnit.store_keyValid] at hv
    exact .inl ⟨hv, CipherUnit.store_key ..⟩

/-- Settles O29: only a cipher instruction reaches KEY_VALID and the secret, and a reset clears KEY_VALID. -/
theorem keyValidOnlyFromKeySet : Obligations.KeyValidOnlyFromKeySet := by
  intro i s t hwf h hvalid
  cases exec_next hwf h with
  | unchanged r _ ht =>
    subst ht
    exact .inl ⟨hvalid, rfl⟩
  | cipher v _ hv ht =>
    subst ht
    exact hv.keyValid_cases hvalid
  | framer v _ _ ht =>
    subst ht
    exact .inl ⟨hvalid, rfl⟩
  | reset _ ht =>
    subst ht
    cases hvalid

/-! ### The assembly buffer (10_state.md R38) -/

/-- F.PARSE leaves `ASM` (R226). -/
@[simp] theorem FramerUnit.parse_asm (u : FramerUnit) (asmCap : Nat) : (u.parse asmCap).asm = u.asm := by
  rcases u.parse_cases asmCap with ⟨_, e⟩ | ⟨_, _, e⟩ | ⟨_, _, ⟨_, e⟩ | ⟨_, e⟩ | ⟨_, e⟩⟩ <;> rw [e]
  · simp
  · simp
  · unfold finishParse
    split <;> simp

/-- F.DECODE leaves `ASM` (R203). -/
@[simp] theorem FramerUnit.decodeStaging_asm (u : FramerUnit) : u.decodeStaging.asm = u.asm := by
  rcases u.decodeStaging_cases with ⟨_, e⟩ | ⟨_, ⟨_, e⟩ | ⟨_, e⟩ | ⟨_, e⟩⟩ <;> rw [e] <;> simp

/-- A push leaves `ASM`, or appends all of its bytes where they fit (R224, R225, R236). -/
theorem FramerUnit.push_asm_cases (u : FramerUnit) (asmCap : Nat) (bytes : List Byte) :
    (u.push asmCap bytes).asm = u.asm ∨
    ((u.push asmCap bytes).asm = u.asm ++ bytes ∧ (u.push asmCap bytes).asm.length ≤ asmCap) := by
  rcases u.push_cases asmCap bytes with ⟨_, e⟩ | ⟨_, _, e⟩ | ⟨_, hfits, e⟩ <;> rw [e]
  · exact .inl rfl
  · exact .inl rfl
  · exact .inr ⟨rfl, by simpa [asmLen] using hfits⟩

/-- Everything a framer instruction can do to `ASM`. -/
theorem FramerStep.asm_cases {p : Params} {i : Instr} {u v : FramerUnit} (h : FramerStep p i u v) :
    v.asm = u.asm ∨
    (∃ bytes, pushedBytes i = some bytes ∧ v.asm = u.asm ++ bytes ∧ v.asm.length ≤ p.asmCap) ∨
    (i = .fPop ∧ u.pktValid = true ∧ v.asm = u.asm.drop u.total.toNat) ∨
    (i = .fReset ∧ v.asm = []) := by
  cases h with
  | nop => exact .inl rfl
  | parse => exact .inl (u.parse_asm _)
  | pop =>
    rcases u.pop_cases with ⟨_, e⟩ | ⟨_, _, e⟩ | ⟨_, hpkt, e⟩ <;> rw [e]
    · exact .inl rfl
    · exact .inl rfl
    · exact .inr (.inr (.inl ⟨rfl, hpkt, rfl⟩))
  | encode => exact .inl rfl
  | decode => exact .inl u.decodeStaging_asm
  | teardown => exact .inr (.inr (.inr ⟨rfl, rfl⟩))
  | push8 => exact (u.push_asm_cases _ _).imp_right fun happend => .inl ⟨_, rfl, happend⟩
  | push32 => exact (u.push_asm_cases _ _).imp_right fun happend => .inl ⟨_, rfl, happend⟩
  | illegal => exact .inl rfl
  | store => exact .inl (FramerUnit.store_asm ..)

/-- Settles O53: only a framer instruction reaches `ASM`, and a block reset empties it. -/
theorem assemblyBufferGrowsAndShrinksByRule : Obligations.AssemblyBufferGrowsAndShrinksByRule := by
  intro i s t hwf h
  cases exec_next hwf h with
  | unchanged r _ ht =>
    subst ht
    exact .inl rfl
  | cipher v _ _ ht =>
    subst ht
    exact .inl rfl
  | framer v _ hv ht =>
    subst ht
    rcases hv.asm_cases with hsame | hpush | hpop | ⟨hi, hempty⟩
    · exact .inl hsame
    · exact .inr (.inl hpush)
    · exact .inr (.inr (.inl hpop))
    · exact .inr (.inr (.inr ⟨.inl hi, hempty⟩))
  | reset hi ht =>
    subst ht
    exact .inr (.inr (.inr ⟨.inr hi, rfl⟩))

end Sys2Proof.Machine

namespace Sys2Proof.Machine

/-! ### Bus errors (20_memory.md R82) -/

/-- An access that fails a check of R82 is not decoded. -/
theorem accessError_of_invalid {bits off : Nat} (h : bits ≠ 32 ∨ off % 4 ≠ 0 ∨ 0x8000 ≤ off) :
    ∃ e, accessError bits off = some e := by
  unfold accessError
  split
  · exact ⟨_, rfl⟩
  · split
    · exact ⟨_, rfl⟩
    · rw [if_pos (by omega)]
      exact ⟨_, rfl⟩

/-- The step on an access that is not decoded: a bus error, the access spent, and nothing else. -/
theorem step_rejected {s : State} {a : Access} {rest : List Access} {e : DecodeError} (hp : s.pending = a :: rest)
    (hd : decode a = .error e) : step s = .next { s with pending := rest, response := .busError } := by
  rw [step_cons hp, hd]

/-- Settles O6: the decoder names an error for the read and for the write, and the step on an error is a bus error. -/
theorem busErrorChangesNothing : Obligations.BusErrorChangesNothing := by
  intro s bits off w rest hinvalid
  obtain ⟨e, he⟩ := accessError_of_invalid hinvalid
  exact ⟨fun hp => step_rejected hp (e := e) (by rw [decode, he]),
    fun hp => step_rejected hp (e := e) (by rw [decode, he])⟩

/-! ### Where the indexed registers, the window words and the reserved ranges are (20_memory.md R88, R89, R92) -/

theorem accepted_of_lt {off : Nat} (h4 : off % 4 = 0) (h8 : off < 0x8000) : accepted off = true := by
  simp [accepted, h4, h8]

theorem regAt_fNonce : ∀ k : Fin 4, regAt (0x0230 + 4 * k.val) = .fNonce k := by decide

theorem regAt_fEnc : ∀ k : Fin 7, regAt (0x0280 + 4 * k.val) = .fEnc k := by decide

theorem regAt_cbufWord {i : Nat} (h : i < 0x800) : regAt (0x2000 + 4 * i) = .cbufWord i := by
  rw [regAt_cbuf (by omega) (by omega), show (0x2000 + 4 * i - 0x2000) / 4 = i by omega]

theorem regAt_fWinWord {i : Nat} (h : i < 0x1000) : regAt (0x4000 + 4 * i) = .fWinWord i := by
  rw [regAt_fwin (by omega) (by omega), show (0x4000 + 4 * i - 0x4000) / 4 = i by omega]

/-- The ranges that R92 lists as reserved. -/
abbrev InReservedRange (off : Nat) : Prop :=
  (0x0014 ≤ off ∧ off ≤ 0x00FC) ∨ (0x012C ≤ off ∧ off ≤ 0x013C) ∨ (0x0170 ≤ off ∧ off ≤ 0x01FC) ∨
    (0x0268 ≤ off ∧ off ≤ 0x026C) ∨ (0x029C ≤ off ∧ off ≤ 0x1FFC)

/-- No register row of R92 lies in a reserved range. -/
theorem registerMap_not_inReservedRange : ∀ row ∈ registerMap, ¬InReservedRange row.1 := by decide

/-- A reserved range names nothing. -/
theorem regAt_of_inReservedRange {off : Nat} (h : InReservedRange off) : regAt off = .reserved := by
  rw [regAt_register (by omega)]
  cases hl : registerMap.lookup off with
  | none => rfl
  | some r => exact absurd h (registerMap_not_inReservedRange _ (lookup_mem hl))

/-- Settles O12: a reserved offset belongs to no unit, so that its read and its write complete in every state. -/
theorem reservedOffsetsReadZeroIgnoreWrites : Obligations.ReservedOffsetsReadZeroIgnoreWrites := by
  intro s off w h4 hrange
  have hreg := regAt_of_inReservedRange hrange
  have haccepted := accepted_of_lt h4 (show off < 0x8000 by omega)
  constructor
  · rw [exec_hostRd_system s haccepted (by rw [hreg]; rfl), hreg]
    rfl
  · exact exec_hostWr_system haccepted hreg rfl rfl

/-! ### What a read answers (20_memory.md R84, R85, 44_system.md R260) -/

/-- A read of a register of an idle cipher unit. -/
theorem reads_cipher {s : State} {off : Nat} {r : Reg} (hidle : s.c.busy = false) (ha : accepted off = true)
    (hr : regAt off = r) (ho : r.owner = .cipher) : Claims.reads s off (readValue s r) := by
  subst hr
  exact exec_hostRd ha (.inl (by rw [ownerBusy, ho]; exact hidle))

/-- A read of a register of an idle framer unit. -/
theorem reads_framer {s : State} {off : Nat} {r : Reg} (hidle : s.f.busy = false) (ha : accepted off = true)
    (hr : regAt off = r) (ho : r.owner = .framer) : Claims.reads s off (readValue s r) := by
  subst hr
  exact exec_hostRd ha (.inl (by rw [ownerBusy, ho]; exact hidle))

/-- A byte read as a word is in lane 0, and the other lanes are 0. -/
theorem lane_setWidth (b : Byte) {j : Nat} (hj : j < 4) : lane (b.setWidth 32) j = if j = 0 then b else 0 := by
  apply BitVec.eq_of_getLsbD_eq
  intro i hi
  rw [lane_getLsbD, BitVec.getLsbD_setWidth]
  split
  · subst j
    simp [hi, show i < 32 by omega]
  · rw [BitVec.getLsbD_of_ge b _ (by omega)]
    simp

/-- `C_RESULT` answers the code of the stored outcome (R29). -/
theorem reads_cResult {s : State} {r : CResult} (hidle : s.c.busy = false) (hr : s.c.result = r) :
    Claims.reads s 0x0108 (r.code.setWidth 32) := by
  subst hr
  exact reads_cipher (r := .cResult) hidle rfl rfl rfl

/-- `F_RESULT` answers the code of the stored outcome (R37). -/
theorem reads_fResult {s : State} {r : FResult} (hidle : s.f.busy = false) (hr : s.f.result = r) :
    Claims.reads s 0x0208 (r.code.setWidth 32) := by
  subst hr
  exact reads_framer (r := .fResult) hidle rfl rfl rfl

/-- `C_MIX_LO` and `C_MIX_HI` answer the mixed key byte by byte (R33). -/
theorem reads_cMix {s : State} (hidle : s.c.busy = false) (k : Fin 2) :
    ∃ d, Claims.reads s (0x0120 + 4 * k.val) d ∧ ∀ j, j < 4 → lane d j = byteAt s.c.mix (4 * k.val + j) := by
  revert k
  rw [Fin.forall_fin_two]
  exact ⟨⟨_, reads_cipher (r := .cMixLo) hidle rfl rfl rfl, fun _ => lane_wordOf s.c.mix 0⟩,
    ⟨_, reads_cipher (r := .cMixHi) hidle rfl rfl rfl, fun _ => lane_wordOf s.c.mix 1⟩⟩

/-- `F_NONCEk` answers the nonce of the header byte by byte (R40). -/
theorem reads_fNonce {s : State} (hidle : s.f.busy = false) (k : Fin 4) :
    ∃ d, Claims.reads s (0x0230 + 4 * k.val) d ∧ ∀ j, j < 4 → lane d j = byteAt s.f.nonce (4 * k.val + j) :=
  ⟨_, reads_framer hidle (accepted_of_lt (by omega) (by omega)) (regAt_fNonce k) rfl,
    fun _ => lane_wordOf s.f.nonce k.val⟩

/-- `F_ENCk` answers the encoded header byte by byte, and 0 beyond its 25 bytes (R43). -/
theorem reads_fEnc {s : State} (hidle : s.f.busy = false) (k : Fin 7) :
    ∃ d, Claims.reads s (0x0280 + 4 * k.val) d ∧
      ∀ j, j < 4 → lane d j = if 4 * k.val + j < 25 then byteAt s.f.enc (4 * k.val + j) else 0 := by
  refine ⟨_, reads_framer hidle (accepted_of_lt (by omega) (by omega)) (regAt_fEnc k) rfl, fun j hj => ?_⟩
  rw [readValue, lane_wordOf _ _ hj]
  split
  · rfl
  · exact byteAt_of_ge _ (by omega)

/-- Settles O11: a read completes wherever R350 allows it, and each register's value is the one `readValue` gives. -/
theorem readChangesNoState : Obligations.ReadChangesNoState := by
  refine ⟨fun s off => exec_hostRd, fun s hidle => ⟨fun row hrow => ?_, ?_⟩, fun s hidle => ⟨fun row hrow => ?_, ?_⟩⟩
  · have hcode : row.1.code.setWidth 32 = row.2 := by
      revert row
      decide
    exact hcode ▸ reads_cResult hidle
  · exact ⟨reads_cipher (r := .cXLo) hidle rfl rfl rfl, reads_cipher (r := .cXHi) hidle rfl rfl rfl, reads_cMix hidle,
      reads_cipher (r := .cCount) hidle rfl rfl rfl⟩
  · have hcode : row.1.code.setWidth 32 = row.2 := by
      revert row
      decide
    exact hcode ▸ reads_fResult hidle
  · exact ⟨reads_framer (r := .fAsmLen) hidle rfl rfl rfl, fun _ => reads_framer (r := .fFree) hidle rfl rfl rfl,
      reads_framer (r := .fNeed) hidle rfl rfl rfl,
      ⟨_, reads_framer (r := .fType) hidle rfl rfl rfl, fun _ => lane_setWidth s.f.ptype⟩,
      reads_framer (r := .fPlen) hidle rfl rfl rfl, reads_framer (r := .fTotal) hidle rfl rfl rfl,
      reads_framer (r := .fMagic) hidle rfl rfl rfl, reads_fNonce hidle, reads_fEnc hidle⟩

/-! ### Read-only and write-only registers (20_memory.md R84, R89) -/

/-- The registers and the window that R92 marks RO. -/
def Reg.readOnly : Reg → Bool
  | .id | .version | .cbufSize | .asmSize => true
  | .cResult | .cXLo | .cXHi | .cMixLo | .cMixHi | .cCount => true
  | .fResult | .fAsmLen | .fFree | .fNeed | .fType | .fPlen | .fTotal | .fMagic | .fNonce _ | .fEnc _ | .fWinWord _ => true
  | _ => false

theorem Reg.startsOperation_of_readOnly {r : Reg} (h : r.readOnly = true) : r.startsOperation = false := by
  cases r with
  | cCmd | fCmd | fPush8 | fPush32 | sysReset | cKey => cases h
  | _ => rfl

/-- The cipher unit stores nothing of a write to a read-only register. -/
theorem CipherUnit.store_readOnly (u : CipherUnit) (n : Nat) {r : Reg} (w : Word) (h : r.readOnly = true) :
    u.store n r w = u := by
  cases r with
  | cStatus | cLen | cSeedLo | cSeedHi | cNonce | cbufWord => cases h
  | _ => rfl

/-- The framer unit stores nothing of a write to a read-only register. -/
theorem FramerUnit.store_readOnly (u : FramerUnit) {r : Reg} (w : Word) (h : r.readOnly = true) : u.store r w = u := by
  cases r with
  | fStatus | fStg | fStgLen | eType | ePlen | eNonce => cases h
  | _ => rfl

/-- A write to a read-only register changes nothing while neither unit is busy. -/
theorem exec_hostWr_readOnly {s : State} {off : Nat} {w : Word} (hc : s.c.busy = false) (hf : s.f.busy = false)
    (ha : accepted off = true) (hro : (regAt off).readOnly = true) :
    exec (.hostWr off w) s = .next { s with response := .written } := by
  have hplain := Reg.startsOperation_of_readOnly hro
  cases ho : (regAt off).owner with
  | system => exact exec_hostWr_system ha rfl hplain ho
  | cipher => rw [exec_hostWr_cipher ha rfl hplain ho hc, CipherUnit.store_readOnly _ _ _ hro]
  | framer => rw [exec_hostWr_framer ha rfl hplain ho hf, FramerUnit.store_readOnly _ _ hro]

/-- The registers whose write starts an operation are write-only: they read 0. -/
theorem readValue_of_startsOperation (s : State) {r : Reg} (h : r.startsOperation = true) : readValue s r = 0 := by
  cases r with
  | cCmd | fCmd | fPush8 | fPush32 | sysReset | cKey => rfl
  | _ => cases h

/-- Settles O13: no unit stores a read-only register, and a write-only register has no value to read. -/
theorem readOnlyIgnoresWritesWriteOnlyReadsZero : Obligations.ReadOnlyIgnoresWritesWriteOnlyReadsZero := by
  intro s w hc hf
  refine ⟨fun off hoff => ?_, fun off h4 hlow hhigh => ?_, fun off hoff => ?_⟩
  · obtain ⟨ha, hro⟩ : accepted off = true ∧ (regAt off).readOnly = true := by
      revert off
      decide
    exact exec_hostWr_readOnly hc hf ha hro
  · exact exec_hostWr_readOnly hc hf (accepted_of_lt h4 hhigh) (by rw [regAt_fwin hlow hhigh]; rfl)
  · obtain ⟨ha, hwo⟩ : accepted off = true ∧ (regAt off).startsOperation = true := by
      revert off
      decide
    rw [exec_hostRd ha (.inl (ownerBusy_idle hc hf _)), readValue_of_startsOperation s hwo]

/-! ### Read-write registers (20_memory.md R84, 10_state.md R26, R30, R31, R41, R42) -/

/-- The registers outside the window that R92 marks RW. -/
def Reg.readWrite : Reg → Bool
  | .cLen | .cSeedLo | .cSeedHi | .cNonce _ | .fStg _ | .fStgLen | .eType | .ePlen | .eNonce _ => true
  | _ => false

/-- The bits of a read-write register that are not reserved: `F_STG6` and `E_TYPE` hold one byte. -/
def Reg.storedBits : Reg → Word
  | .eType => 0x000000FF
  | .fStg k => if k.val = 6 then 0x000000FF else 0xFFFFFFFF
  | _ => 0xFFFFFFFF

/-- Lane 0 of a word, read back as a word, is the word without its upper 24 bits. -/
theorem setWidth_lane_zero (w : Word) : (lane w 0).setWidth 32 = w &&& 0x000000FF := by
  apply BitVec.eq_of_toNat_eq
  simp [lane, Nat.and_two_pow_sub_one_eq_mod w.toNat 8, show w.toNat % 256 < 4294967296 by omega]

/-- The last word of an array that ends with its lane 0 reads back that lane (R41). -/
theorem wordOf_setWord_last {n : Nat} (v : Vector Byte n) (k : Nat) (w : Word) (h : n = 4 * k + 1) :
    wordOf (setWord v k w) k = (lane w 0).setWidth 32 :=
  word_ext fun j hj => by
    rw [lane_wordOf _ _ hj, lane_setWidth _ hj]
    split
    · rw [byteAt_setWord, if_pos (by omega)]
      congr 1
      omega
    · exact byteAt_of_ge _ (by omega)

/-- A word of the staging area reads back with the bits it stores: `STG` ends with lane 0 of `F_STG6`. -/
theorem wordOf_setWord_stg (v : Vector Byte 25) (k : Fin 7) (w : Word) :
    wordOf (setWord v k.val w) k.val = w &&& (Reg.fStg k).storedBits := by
  simp only [Reg.storedBits]
  by_cases hk : k.val = 6
  · rw [if_pos hk, wordOf_setWord_last v _ w (by omega), setWidth_lane_zero]
  · rw [if_neg hk]
    exact (wordOf_setWord_same v _ w (by omega)).trans BitVec.and_allOnes.symm

/-- A read-write register of the cipher unit holds the word stored in it. -/
theorem readValue_store_cipher (s : State) (n : Nat) {r : Reg} (a : Response) (w : Word) (hrw : r.readWrite = true)
    (ho : r.owner = .cipher) :
    readValue { s with c := s.c.store n r w, response := a } r = w &&& r.storedBits := by
  cases r with
  | cLen => exact BitVec.and_allOnes.symm
  | cSeedLo => exact (lowWord_ofWords _ w).trans BitVec.and_allOnes.symm
  | cSeedHi => exact (highWord_ofWords w _).trans BitVec.and_allOnes.symm
  | cNonce k => exact (wordOf_setWord_same s.c.nonce k.val w (by omega)).trans BitVec.and_allOnes.symm
  | fStg | fStgLen | eType | ePlen | eNonce => cases ho
  | _ => cases hrw

/-- A read-write register of the framer unit holds the word stored in it, its reserved bits 0. -/
theorem readValue_store_framer (s : State) {r : Reg} (a : Response) (w : Word) (hrw : r.readWrite = true)
    (ho : r.owner = .framer) :
    readValue { s with f := s.f.store r w, response := a } r = w &&& r.storedBits := by
  cases r with
  | fStg k => exact wordOf_setWord_stg s.f.stg k w
  | fStgLen | ePlen => exact BitVec.and_allOnes.symm
  | eType => exact setWidth_lane_zero w
  | eNonce k => exact (wordOf_setWord_same s.f.eNonce k.val w (by omega)).trans BitVec.and_allOnes.symm
  | cLen | cSeedLo | cSeedHi | cNonce => cases ho
  | _ => cases hrw

theorem Reg.startsOperation_of_readWrite {r : Reg} (h : r.readWrite = true) : r.startsOperation = false := by
  cases r with
  | cCmd | fCmd | fPush8 | fPush32 | sysReset | cKey => cases h
  | _ => rfl

/-- A read-write register belongs to one of the two units. -/
theorem Reg.owner_of_readWrite {r : Reg} (h : r.readWrite = true) : r.owner = .cipher ∨ r.owner = .framer := by
  cases r with
  | cLen | cSeedLo | cSeedHi | cNonce => exact .inl rfl
  | fStg | fStgLen | eType | ePlen | eNonce => exact .inr rfl
  | _ => cases h

/-- A write to a read-write register completes, and a read after it answers the word with the bits stored. -/
theorem exec_hostWr_hostRd {s : State} {off : Nat} (w : Word) (hc : s.c.busy = false) (hf : s.f.busy = false)
    (ha : accepted off = true) (hrw : (regAt off).readWrite = true) :
    ∃ t, exec (.hostWr off w) s = .next t ∧
      exec (.hostRd off) t = .next { t with response := .data (w &&& (regAt off).storedBits) } := by
  have hplain := Reg.startsOperation_of_readWrite hrw
  rcases Reg.owner_of_readWrite hrw with ho | ho
  · refine ⟨_, exec_hostWr_cipher ha rfl hplain ho hc, ?_⟩
    rw [← readValue_store_cipher s s.params.cbufBytes .written w hrw ho]
    exact reads_cipher (by simpa using hc) ha rfl ho
  · refine ⟨_, exec_hostWr_framer ha rfl hplain ho hf, ?_⟩
    rw [← readValue_store_framer s .written w hrw ho]
    exact reads_framer (by simpa using hf) ha rfl ho

/-- Settles O15: each offset is a read-write register, and storing is what its unit does with the write. -/
theorem registerReadsBackLastWrite : Obligations.RegisterReadsBackLastWrite := by
  intro s w hc hf off hoff
  obtain ⟨ha, hrw, hbits⟩ :
      accepted off = true ∧ (regAt off).readWrite = true ∧ (regAt off).storedBits = Claims.storedBits off := by
    revert off
    decide
  rw [← hbits]
  exact exec_hostWr_hostRd w hc hf ha hrw

/-! ### The windows (20_memory.md R88, R89) -/

/-- A window word below `CBUF_BYTES` reads back as it was written (R88). -/
theorem CipherUnit.windowWord_setWindowWord (u : CipherUnit) {n i : Nat} (w : Word) (h : 4 * i < n) :
    (u.setWindowWord n i w).windowWord n i = w :=
  word_ext fun j hj => by
    rw [windowWord, if_pos h, lane_ofLanes_seq (u.setWindowWord n i w).byte (4 * i) hj,
      byte_setWindowWord_inside _ _ _ _ h hj]

/-- A window write at or above `CBUF_BYTES` is ignored (R88). -/
theorem CipherUnit.setWindowWord_beyond (u : CipherUnit) {n i : Nat} (w : Word) (h : n ≤ 4 * i) :
    u.setWindowWord n i w = u := if_neg (by omega)

/-- A window word at or above `CBUF_BYTES` reads 0 (R88). -/
theorem CipherUnit.windowWord_beyond (u : CipherUnit) {n i : Nat} (h : n ≤ 4 * i) : u.windowWord n i = 0 :=
  if_neg (by omega)

/-- A write of a `CBUF` window word while the cipher unit is idle. -/
theorem exec_hostWr_cbufWord {s : State} {i : Nat} (w : Word) (hidle : s.c.busy = false) (hi : i < 0x800) :
    exec (.hostWr (0x2000 + 4 * i) w) s =
      .next { s with c := s.c.setWindowWord s.params.cbufBytes i w, response := .written } :=
  exec_hostWr_cipher (accepted_of_lt (by omega) (by omega)) (regAt_cbufWord hi) rfl rfl hidle

/-- A read of a `CBUF` window word while the cipher unit is idle. -/
theorem reads_cbufWord {s : State} {i : Nat} (hidle : s.c.busy = false) (hi : i < 0x800) :
    Claims.reads s (0x2000 + 4 * i) (s.c.windowWord s.params.cbufBytes i) :=
  reads_cipher hidle (accepted_of_lt (by omega) (by omega)) (regAt_cbufWord hi) rfl

/-- Settles O16: below `CBUF_BYTES` the window write is four byte writes, above it none. -/
theorem cbufWindowStoresFourBytes : Obligations.CbufWindowStoresFourBytes := by
  intro s i w hidle hi
  constructor
  · intro hinside
    refine ⟨_, exec_hostWr_cbufWord w hidle hi, ?_, fun j => CipherUnit.byte_setWindowWord_inside s.c _ i w hinside,
      fun a => CipherUnit.byte_setWindowWord_outside s.c _ i w, ?_⟩
    · exact congrArg (fun c => { s with c := c, response := .written }) (CipherUnit.setWindowWord_eq s.c _ i w)
    · have hread := reads_cbufWord (s := { s with c := s.c.setWindowWord s.params.cbufBytes i w, response := .written })
        (by rw [CipherUnit.setWindowWord_eq]; exact hidle) hi
      rwa [CipherUnit.windowWord_setWindowWord s.c w hinside] at hread
  · intro hbeyond
    constructor
    · rw [exec_hostWr_cbufWord w hidle hi, CipherUnit.setWindowWord_beyond s.c w hbeyond]
    · rw [← CipherUnit.windowWord_beyond s.c hbeyond]
      exact reads_cbufWord hidle hi

/-- Settles O17: the window word is made of four consecutive bytes of `ASM`, which reads 0 beyond its end. -/
theorem assemblyWindowReadsFromHead : Obligations.AssemblyWindowReadsFromHead := by
  intro s i hidle hi
  refine ⟨_, reads_framer hidle (accepted_of_lt (by omega) (by omega)) (regAt_fWinWord hi) rfl, fun j hj => ?_⟩
  have hlane : lane (s.f.windowWord i) j = s.f.asm.getD (4 * i + j) 0 := lane_ofLanes_seq (s.f.asm.getD · 0) (4 * i) hj
  rw [readValue, hlane]
  split
  · rfl
  · exact List.getD_eq_default _ _ (by omega)

end Sys2Proof.Machine

namespace Sys2Proof

open Sys2Proof.Machine

/-! ### The decoder on accepted accesses (20_memory.md R82, 30_encoding.md R115) -/

/-- The accesses that pass every check of R82. -/
theorem accessError_eq_none_iff {bits off : Nat} :
    accessError bits off = none ↔ bits = 32 ∧ accepted off = true := by
  simp only [accessError, accepted, Bool.and_eq_true, decide_eq_true_eq]
  split_ifs
  all_goals simp only [true_iff, false_iff]; omega

theorem decode_read {off : Nat} (h : accepted off = true) : decode (.read 32 off) = .ok (.hostRd off) := by
  rw [decode, accessError_eq_none_iff.mpr ⟨rfl, h⟩]

theorem decode_write {off : Nat} (w : Word) (h : accepted off = true) :
    decode (.write 32 off w) = .ok (decodeWrite off w) := by
  rw [decode, accessError_eq_none_iff.mpr ⟨rfl, h⟩]

/-- Everything the decoder can answer: the access is accepted, and it is a plain read or what `decodeWrite` says. -/
theorem decode_ok {a : Access} {i : Instr} (h : decode a = .ok i) :
    ∃ off, accepted off = true ∧
      ((a = .read 32 off ∧ i = .hostRd off) ∨ ∃ w, a = .write 32 off w ∧ i = decodeWrite off w) := by
  cases a with
  | read bits off =>
    rw [decode] at h
    split at h
    · cases h
    · next hnone =>
      obtain ⟨rfl, ha⟩ := accessError_eq_none_iff.mp hnone
      cases h
      exact ⟨off, ha, .inl ⟨rfl, rfl⟩⟩
  | write bits off w =>
    rw [decode] at h
    split at h
    · cases h
    · next hnone =>
      obtain ⟨rfl, ha⟩ := accessError_eq_none_iff.mp hnone
      cases h
      exact ⟨off, ha, .inr ⟨w, rfl, rfl⟩⟩

/-- The offset of a key register (R92). -/
theorem regAt_cKey {off : Nat} {k : Fin 8} (h : regAt off = .cKey k) : off = 0x0140 + 4 * k.val :=
  offset_of_single h (by simp) (by simp) (by simp)
    ((by decide : ∀ k : Fin 8, ∀ row ∈ registerMap, row.2 = .cKey k → row.1 = 0x0140 + 4 * k.val) k)

theorem regAt_cNonce : ∀ k : Fin 4, regAt (0x0160 + 4 * k.val) = .cNonce k := by decide

/-- A write to a register that starts nothing is the plain write (R115). -/
theorem decodeWrite_plain {off : Nat} (w : Word) (h : (regAt off).startsOperation = false) :
    decodeWrite off w = .hostWr off w := by
  unfold decodeWrite
  split
  case h_7 => rfl
  all_goals next hr => rw [hr] at h; cases h

/-- A write that no other row of the opcode table names is the plain write, also where its register starts an operation:
an illegal command word, or a word other than the reset word (R111, R114). -/
theorem decodeWrite_of_not_claimed {off : Nat} {w : Word} (h : claimedWrite off w = false) :
    decodeWrite off w = .hostWr off w := by
  simp only [claimedWrite, Bool.or_eq_false_iff, Bool.and_eq_false_iff, decide_eq_false_iff_not] at h
  obtain ⟨⟨⟨⟨⟨hcCmd, hfCmd⟩, hpush8⟩, hpush32⟩, hreset⟩, hkey⟩ := h
  unfold decodeWrite
  split
  · next hr =>
    have hoff := regAt_cCmd hr
    rw [cipherOp_of_gt (by omega)]
    rfl
  · next hr =>
    have hoff := regAt_fCmd hr
    rw [framerOp_of_gt (by omega)]
    rfl
  · next hr => exact absurd (regAt_fPush8 hr) hpush8
  · next hr => exact absurd (regAt_fPush32 hr) hpush32
  · next hr => exact if_neg (hreset.resolve_left (not_not_intro (regAt_sysReset hr)))
  · next hr =>
    have hoff := regAt_key_range hr
    omega
  · rfl

/-- Settles O3: a command, push, key or reset access names its register, and a well-formed plain write is not claimed. -/
theorem decodeOfEncode : Obligations.DecodeOfEncode := by
  intro i hwf
  cases i with
  | cNop | cKeyset | cKeyclr | cSeed | cApply | cCont | cKsstart => rfl
  | fNop | fParse | fPop | fEncode | fDecode | fReset => rfl
  | fPush8 w | fPush32 w | sysReset => rfl
  | cKeywr k w =>
    have haccepted : accepted (0x0140 + 4 * k.val) = true := (Laws.EncodeAccepted.cKeywr k w hwf).2
    rw [encode, decode_write w haccepted, decodeWrite, regAt_key]
  | hostRd off => exact decode_read hwf
  | hostWr off w =>
    simp only [Instr.wellFormed, Bool.and_eq_true, Bool.not_eq_true'] at hwf
    obtain ⟨haccepted, hclaimed⟩ := hwf
    rw [encode, decode_write w haccepted, decodeWrite_of_not_claimed hclaimed]

/-! ### The opcode maps (30_encoding.md R111 to R113) -/

/-- R112 as a function of the whole word. -/
theorem cipherOp_eq (w : Word) :
    cipherOp w =
      if w = 0 then some .nop else if w = 1 then some .keyset else if w = 2 then some .keyclr
      else if w = 3 then some .seed else if w = 4 then some .apply else if w = 5 then some .cont
      else if w = 6 then some .ksstart else none := by
  by_cases hw : w.toNat ≤ 6
  · rcases word_le_six hw with rfl | rfl | rfl | rfl | rfl | rfl | rfl <;> rfl
  · have hne : ∀ v : Word, v.toNat ≤ 6 → w ≠ v := fun v hv hwv => hw (hwv ▸ hv)
    rw [cipherOp_of_gt (by omega)]
    simp [hne]

/-- R113 as a function of the whole word. -/
theorem framerOp_eq (w : Word) :
    framerOp w =
      if w = 0 then some .nop else if w = 1 then some .parse else if w = 2 then some .pop
      else if w = 3 then some .encode else if w = 4 then some .decode else if w = 5 then some .reset else none := by
  by_cases hw : w.toNat ≤ 5
  · rcases word_le_five hw with rfl | rfl | rfl | rfl | rfl | rfl <;> rfl
  · have hne : ∀ v : Word, v.toNat ≤ 5 → w ≠ v := fun v hv hwv => hw (hwv ▸ hv)
    rw [framerOp_of_gt (by omega)]
    simp [hne]

theorem decodeWrite_cCmd (w : Word) :
    decodeWrite 0x0100 w = ((cipherOp w).map COp.instr).getD (.hostWr 0x0100 w) := rfl

theorem decodeWrite_fCmd (w : Word) :
    decodeWrite 0x0200 w = ((framerOp w).map FOp.instr).getD (.hostWr 0x0200 w) := rfl

/-- Settles O2: the decoder at a command register is the opcode map of its unit. -/
theorem opcodeMapsAreComplete : Obligations.OpcodeMapsAreComplete := by
  intro w
  constructor
  · rw [decode_write w (by decide), decodeWrite_cCmd, cipherOp_eq]
    simp only [apply_ite (Option.map COp.instr), apply_ite (Option.getD · (Instr.hostWr 0x0100 w))]
    rfl
  · rw [decode_write w (by decide), decodeWrite_fCmd, framerOp_eq]
    simp only [apply_ite (Option.map FOp.instr), apply_ite (Option.getD · (Instr.hostWr 0x0200 w))]
    rfl

/-! ### The encoder on what the decoder answers (30_encoding.md R110 to R115) -/

/-- A legal cipher word is the one the encoder writes for its command (R112). -/
theorem encode_of_cipherOp {w : Word} {op : COp} (h : cipherOp w = some op) : encode op.instr = .write 32 0x0100 w := by
  by_cases hw : w.toNat ≤ 6
  · rcases word_le_six hw with rfl | rfl | rfl | rfl | rfl | rfl | rfl <;> cases h <;> rfl
  · rw [cipherOp_of_gt (by omega)] at h
    cases h

/-- A legal framer word is the one the encoder writes for its command (R113). -/
theorem encode_of_framerOp {w : Word} {op : FOp} (h : framerOp w = some op) : encode op.instr = .write 32 0x0200 w := by
  by_cases hw : w.toNat ≤ 5
  · rcases word_le_five hw with rfl | rfl | rfl | rfl | rfl | rfl <;> cases h <;> rfl
  · rw [framerOp_of_gt (by omega)] at h
    cases h

/-- Whatever a write decodes to, the encoder gives the write back: the offset, and every bit of the word. -/
theorem encode_decodeWrite (off : Nat) (w : Word) : encode (decodeWrite off w) = .write 32 off w := by
  unfold decodeWrite
  split
  · next hr =>
    rw [regAt_cCmd hr]
    cases hop : cipherOp w with
    | none => rfl
    | some op => exact encode_of_cipherOp hop
  · next hr =>
    rw [regAt_fCmd hr]
    cases hop : framerOp w with
    | none => rfl
    | some op => exact encode_of_framerOp hop
  · next hr => rw [regAt_fPush8 hr, encode]
  · next hr => rw [regAt_fPush32 hr, encode]
  · next hr =>
    split
    · next hw => rw [regAt_sysReset hr, hw, encode]
    · rfl
  · next hr => rw [regAt_cKey hr, encode]
  · rfl

/-- Settles O4: a read keeps its offset, and a write is what `encode_decodeWrite` gives back. -/
theorem encodeOfDecode : Obligations.EncodeOfDecode := by
  intro a i h
  obtain ⟨off, _, ⟨rfl, rfl⟩ | ⟨w, rfl, rfl⟩⟩ := decode_ok h
  · rfl
  · exact encode_decodeWrite off w

/-- Settles O1: nine of the accesses are the encodings of their instructions, and the last word is not in the opcode map. -/
theorem writtenOutWordsDecode : Obligations.WrittenOutWordsDecode :=
  ⟨decodeOfEncode .cApply rfl, decodeOfEncode .cKsstart rfl, decodeOfEncode .fPop rfl, decodeOfEncode .fDecode rfl,
    decodeOfEncode (.fPush8 0xABCDEF41) rfl, decodeOfEncode (.fPush32 0x48544541) rfl, decodeOfEncode .sysReset rfl,
    decodeOfEncode (.cKeywr 3 0x0F0E0D0C) rfl, decodeOfEncode (.hostRd 0x7FFC) rfl,
    (opcodeMapsAreComplete 0x00000104).1⟩

end Sys2Proof

namespace Sys2Proof.Machine

/-! ### Scripts of writes (30_encoding.md R121)

Each access of a pseudo-operation is a write of an idle unit. `Writes` says what a whole script does to the block, and a
script's proof adds one access at a time. -/

/-- The host's accesses `as`, one step for each, take the block from `s` to `t`, whatever the answer to the access before
them; each is answered as a write accepted. -/
def Writes (as : List Access) (s t : State) : Prop :=
  ∀ r : Response, steps as.length { s with pending := as, response := r } =
    .next { t with pending := [], response := if as = [] then r else .written }

theorem Writes.nil (s : State) : Writes [] s s := fun _ => rfl

/-- One access before a script: it decodes to an instruction, which takes `s` to `t` and is answered as a write. -/
theorem Writes.cons {a : Access} {i : Instr} {as : List Access} {s t u : State} (hd : decode a = .ok i)
    (he : ∀ r, exec i { s with pending := as, response := r } = .next { t with pending := as, response := .written })
    (h : Writes as t u) : Writes (a :: as) s u := fun r => by
  have hrest := h .written
  rw [ite_self] at hrest
  exact (steps_succ (s := { s with response := r }) hd (he r)).trans hrest

/-- A script that is not empty, run from the state that holds it. -/
theorem Writes.steps_eq {as : List Access} {s t : State} (h : Writes as s t) (hne : as ≠ []) :
    steps as.length { s with pending := as } = .next { t with pending := [], response := .written } := by
  have hrun := h s.response
  rwa [if_neg hne] at hrun

/-! ### Byte arrays written word by word (20_memory.md R85) -/

/-- `dst` after the words `ks` of `src` are written to it, in that order. -/
def copyWords {n m : Nat} (src : Vector Byte n) (ks : List (Fin m)) (dst : Vector Byte n) : Vector Byte n :=
  ks.foldl (fun v k => setWord v k.val (wordOf src k.val)) dst

theorem copyWords_cons {n m : Nat} (src : Vector Byte n) (k : Fin m) (ks : List (Fin m)) (dst : Vector Byte n) :
    copyWords src (k :: ks) dst = copyWords src ks (setWord dst k.val (wordOf src k.val)) := rfl

/-- A byte that is already the source's stays so, and one in a word that is written becomes so. -/
theorem byteAt_copyWords {n m : Nat} (src : Vector Byte n) (ks : List (Fin m)) (dst : Vector Byte n) {i : Nat} (hi : i < n)
    (h : byteAt dst i = byteAt src i ∨ ∃ k ∈ ks, k.val = i / 4) : byteAt (copyWords src ks dst) i = byteAt src i := by
  induction ks generalizing dst with
  | nil => simpa [copyWords] using h
  | cons k ks ih =>
    rw [copyWords_cons]
    apply ih
    rw [byteAt_setWord]
    by_cases hk : i / 4 = k.val
    · rw [if_pos ⟨hk, hi⟩, lane_wordOf _ _ (by omega), show 4 * k.val + i % 4 = i by omega]
      exact .inl rfl
    · rw [if_neg (fun hw => hk hw.1)]
      refine h.imp_right fun ⟨l, hl, hli⟩ => ⟨l, ?_, hli⟩
      exact (List.mem_cons.mp hl).resolve_left fun hlk => hk (hlk ▸ hli.symm)

/-- Writing every word of an array copies it. -/
theorem copyWords_finRange {n m : Nat} (src dst : Vector Byte n) (h : n ≤ 4 * m) :
    copyWords src (List.finRange m) dst = src :=
  vector_ext_byteAt fun i hi =>
    byteAt_copyWords src _ dst hi (.inr ⟨⟨i / 4, by omega⟩, List.mem_finRange _, rfl⟩)

/-! ### C.LOADKEY and C.LOADNONCE -/

theorem exec_cKeyset {s : State} (hidle : s.c.busy = false) :
    exec .cKeyset s = .next { s with c := s.c.setKey, response := .written } := by
  rw [exec, execCKeyset]
  exact runC_of_some hidle rfl

theorem exec_cKeywr {s : State} (hidle : s.c.busy = false) (k : Fin 8) (w : Word) :
    exec (.cKeywr k w) s =
      .next { s with c := { s.c with key := setWord s.c.key k.val w, keyValid := false }, response := .written } := by
  rw [exec, execCKeywr]
  exact runC_of_some hidle (by rw [CipherUnit.writeKey])

/-- Key words, then C.KEYSET: the words are stored and the secret is valid (R171, R174). -/
theorem writes_keywr_keyset (key : Vector Byte 32) (ks : List (Fin 8)) {s : State} (hidle : s.c.busy = false) :
    Writes (ks.map (fun k => encode (.cKeywr k (wordOf key k.val))) ++ [encode .cKeyset]) s
      { s with c := { s.c with key := copyWords key ks s.c.key, keyValid := true, result := .ok } } := by
  induction ks generalizing s with
  | nil =>
    exact .cons (decodeOfEncode .cKeyset rfl)
      (fun r => exec_cKeyset (s := { s with pending := _, response := r }) hidle) (.nil _)
  | cons k ks ih =>
    rw [List.map_cons, List.cons_append, copyWords_cons]
    exact .cons
      (t := { s with c := { s.c with key := setWord s.c.key k.val (wordOf key k.val), keyValid := false } })
      (decodeOfEncode (.cKeywr k _) rfl) (fun r => exec_cKeywr (s := { s with pending := _, response := r }) hidle k _)
      (ih hidle)

/-- A write to `C_NONCEk` decodes to the plain write. -/
theorem decode_cNonce (k : Fin 4) (w : Word) :
    decode (.write 32 (0x0160 + 4 * k.val) w) = .ok (.hostWr (0x0160 + 4 * k.val) w) := by
  rw [decode_write w (accepted_of_lt (by omega) (by omega)), decodeWrite_plain w (by rw [regAt_cNonce]; rfl)]

/-- A write to `C_NONCEk` of an idle cipher unit stores the word (R181). -/
theorem exec_hostWr_cNonce {s : State} (hidle : s.c.busy = false) (k : Fin 4) (w : Word) :
    exec (.hostWr (0x0160 + 4 * k.val) w) s =
      .next { s with c := { s.c with nonce := setWord s.c.nonce k.val w }, response := .written } :=
  exec_hostWr_cipher (accepted_of_lt (by omega) (by omega)) (regAt_cNonce k) rfl rfl hidle

/-- Nonce words: each is stored (R181). -/
theorem writes_nonce (nonce : Vector Byte 16) (ks : List (Fin 4)) {s : State} (hidle : s.c.busy = false) :
    Writes (ks.map fun k => .write 32 (0x0160 + 4 * k.val) (wordOf nonce k.val)) s
      { s with c := { s.c with nonce := copyWords nonce ks s.c.nonce } } := by
  induction ks generalizing s with
  | nil => exact .nil _
  | cons k ks ih =>
    exact .cons (t := { s with c := { s.c with nonce := setWord s.c.nonce k.val (wordOf nonce k.val) } })
      (decode_cNonce k _) (fun r => exec_hostWr_cNonce (s := { s with pending := _, response := r }) hidle k _) (ih hidle)

theorem loadKey_writes (key : Vector Byte 32) {s : State} (hidle : s.c.busy = false) :
    Writes (loadKey key) s { s with c := { s.c with key := key, keyValid := true, result := .ok } } := by
  have h := writes_keywr_keyset key (List.finRange 8) hidle
  rwa [copyWords_finRange _ _ (by omega)] at h

theorem loadNonce_writes (nonce : Vector Byte 16) {s : State} (hidle : s.c.busy = false) :
    Writes (loadNonce nonce) s { s with c := { s.c with nonce := nonce } } := by
  have h := writes_nonce nonce (List.finRange 4) hidle
  rwa [copyWords_finRange _ _ (by omega)] at h

/-! ### C.CLRERR and F.CLRERR -/

/-- The word of C.CLRERR has every sticky bit (R27, R28). -/
theorem CErrs.clear_all (e : CErrs) :
    e.clear 0x00001F00 = { noKey := false, len := false, cmd := false, noSeed := false, seed := false } := by
  simp [clear]

/-- The word of F.CLRERR has every sticky bit (R36, R28). -/
theorem FErrs.clear_all (e : FErrs) :
    e.clear 0x00001F00 = { magic := false, length := false, cmd := false, noPkt := false, ovf := false } := by
  simp [clear]

theorem clearCipherErrors_writes {s : State} (hidle : s.c.busy = false) :
    Writes clearCipherErrors s { s with c := s.c.writeStatus 0x00001F00 } :=
  .cons (i := .hostWr 0x0104 0x00001F00) rfl
    (fun r => exec_hostWr_cipher (s := { s with pending := _, response := r }) (r := .cStatus) rfl rfl rfl rfl hidle)
    (.nil _)

theorem clearFramerErrors_writes {s : State} (hidle : s.f.busy = false) :
    Writes clearFramerErrors s { s with f := s.f.writeStatus 0x00001F00 } :=
  .cons (i := .hostWr 0x0204 0x00001F00) rfl
    (fun r => exec_hostWr_framer (s := { s with pending := _, response := r }) (r := .fStatus) rfl rfl rfl rfl hidle)
    (.nil _)

/-- Settles O59: each pseudo-operation is a script of writes of an idle unit. -/
theorem loadKeyLoadsTheSecret : Obligations.LoadKeyLoadsTheSecret := by
  refine ⟨fun s key hidle => (loadKey_writes key hidle).steps_eq (by simp [loadKey]),
    fun s nonce hidle => (loadNonce_writes nonce hidle).steps_eq (by simp [loadNonce]), fun s hidle => ?_,
    fun s hidle => ?_⟩
  · rw [← s.c.errs.clear_all]
    exact (clearCipherErrors_writes hidle).steps_eq (by simp [clearCipherErrors])
  · rw [← s.f.errs.clear_all]
    exact (clearFramerErrors_writes hidle).steps_eq (by simp [clearFramerErrors])

/-! ### F.PUSHBYTES -/

/-- A push that fits appends its bytes (R224, R225). -/
theorem FramerUnit.push_of_fits {u : FramerUnit} {asmCap : Nat} {bytes : List Byte} (hfailed : u.failed = false)
    (hfits : u.asm.length + bytes.length ≤ asmCap) : u.push asmCap bytes = { u with asm := u.asm ++ bytes } := by
  rcases u.push_cases asmCap bytes with ⟨hf, _⟩ | ⟨_, hover, _⟩ | ⟨_, _, happend⟩
  · rw [hfailed] at hf
    cases hf
  · exact absurd hover (Nat.not_lt.mpr hfits)
  · exact happend

/-- The framer unit takes `n` more bytes: it is idle and not failed, and they fit. -/
structure TakesBytes (s : State) (n : Nat) : Prop where
  idle : s.f.busy = false
  notFailed : s.f.failed = false
  fits : s.f.asm.length + n ≤ s.params.asmCap

/-- The state with bytes appended to `ASM`. -/
def State.appendAsm (s : State) (bytes : List Byte) : State := { s with f := { s.f with asm := s.f.asm ++ bytes } }

@[simp] theorem State.appendAsm_nil (s : State) : s.appendAsm [] = s := by simp [appendAsm]

theorem State.appendAsm_appendAsm (s : State) (b c : List Byte) : (s.appendAsm b).appendAsm c = s.appendAsm (b ++ c) := by
  simp [appendAsm]

theorem TakesBytes.left {s : State} {b c : List Byte} (h : TakesBytes s (b ++ c).length) : TakesBytes s b.length where
  idle := h.idle
  notFailed := h.notFailed
  fits := by
    have hfits := h.fits
    rw [List.length_append] at hfits
    omega

/-- Once some bytes are appended, the unit takes those after them. -/
theorem TakesBytes.appendAsm {s : State} {b c : List Byte} (h : TakesBytes s (b ++ c).length) :
    TakesBytes (s.appendAsm b) c.length where
  idle := h.idle
  notFailed := h.notFailed
  fits := by
    have hfits := h.fits
    simp only [State.appendAsm, List.length_append] at *
    omega

/-- A push of bytes that the unit takes appends them and changes nothing else (R224, R225). -/
theorem runF_push {s : State} {bytes : List Byte} (h : TakesBytes s bytes.length) :
    (runF s fun u => u.push s.params.asmCap bytes) = .next { s.appendAsm bytes with response := .written } := by
  rw [runF_idle _ h.idle, FramerUnit.push_of_fits h.notFailed h.fits]
  rfl

/-- F.PUSH8 of a byte (R224). -/
theorem exec_fPush8_setWidth {s : State} (b : Byte) (h : TakesBytes s 1) :
    exec (.fPush8 (b.setWidth 32)) s = .next { s.appendAsm [b] with response := .written } := by
  rw [exec, execFPush8, lane_setWidth b (by omega), if_pos rfl]
  exact runF_push h

/-- F.PUSH32 of a word made of four bytes (R225). -/
theorem exec_fPush32_ofLanes {s : State} (b0 b1 b2 b3 : Byte) (h : TakesBytes s 4) :
    exec (.fPush32 (ofLanes b0 b1 b2 b3)) s = .next { s.appendAsm [b0, b1, b2, b3] with response := .written } := by
  rw [exec, execFPush32, lane_ofLanes_zero, lane_ofLanes_one, lane_ofLanes_two, lane_ofLanes_three]
  exact runF_push h

/-- An access that appends the bytes `b`, before a script that appends those after them. -/
theorem Writes.push {i : Instr} {as : List Access} {s : State} {b c : List Byte} (hi : i.wellFormed = true)
    (he : ∀ s', TakesBytes s' b.length → exec i s' = .next { s'.appendAsm b with response := .written })
    (h : TakesBytes s (b ++ c).length) (hrest : Writes as (s.appendAsm b) ((s.appendAsm b).appendAsm c)) :
    Writes (encode i :: as) s (s.appendAsm (b ++ c)) := by
  rw [State.appendAsm_appendAsm] at hrest
  exact .cons (decodeOfEncode i hi)
    (fun r => he { s with pending := as, response := r } ⟨h.idle, h.notFailed, h.left.fits⟩) hrest

/-- Bytes pushed one by one. -/
theorem writes_fPush8 (b : List Byte) {s : State} (h : TakesBytes s b.length) :
    Writes (b.map fun x => encode (.fPush8 (x.setWidth 32))) s (s.appendAsm b) := by
  induction b generalizing s with
  | nil =>
    rw [State.appendAsm_nil]
    exact .nil s
  | cons x b ih =>
    exact .push (i := .fPush8 _) (b := [x]) rfl (fun _ => exec_fPush8_setWidth x) h (ih h.appendAsm)

/-- F.PUSHBYTES appends its bytes: four at a time, and the rest one by one. -/
theorem pushBytes_writes (b : List Byte) {s : State} (h : TakesBytes s b.length) :
    Writes (pushBytes b) s (s.appendAsm b) := by
  induction b using pushBytes.induct generalizing s with
  | case1 b0 b1 b2 b3 rest ih =>
    exact .push (i := .fPush32 _) (b := [b0, b1, b2, b3]) rfl (fun _ => exec_fPush32_ofLanes b0 b1 b2 b3) h (ih h.appendAsm)
  | case2 rest hshort =>
    rw [pushBytes.eq_2 rest hshort]
    exact writes_fPush8 rest h

theorem pushBytes_ne_nil {b : List Byte} (h : b ≠ []) : pushBytes b ≠ [] := by
  unfold pushBytes
  split
  · exact List.cons_ne_nil _ _
  · simpa using h

/-- Settles O60: the script of F.PUSHBYTES appends the bytes of an idle framer unit that takes them. -/
theorem pushBytesAppendsThem : Obligations.PushBytesAppendsThem := fun _ b hidle hnotFailed hne hfits =>
  (pushBytes_writes b ⟨hidle, hnotFailed, hfits⟩).steps_eq (pushBytes_ne_nil hne)

end Sys2Proof.Machine

namespace Sys2Proof.Machine

/-! ### The keystream (40_keystream.md R157, R352) -/

/-- A keystream whose first value is in `[0, 1)`. -/
theorem keystream_succ_of_inUnit {map : F64 → F64} {x : F64} (n : Nat) (h : F64.inUnit (map x) = true) :
    keystream map x (n + 1) = (keystream map (map x) n).map fun r => (keyByte (map x) :: r.1, r.2) := if_pos h

/-- A keystream whose first value is outside `[0, 1)` does not exist. -/
theorem keystream_succ_of_not_inUnit {map : F64 → F64} {x : F64} (n : Nat) (h : F64.inUnit (map x) = false) :
    keystream map x (n + 1) = none := if_neg (by simp [h])

/-- Where every value is in `[0, 1)`, the keystream is that of the iterates of the map. -/
theorem keystream_eq_iterates {map : F64 → F64} {x : F64} {n : Nat}
    (h : ∀ i, i < n → F64.inUnit (map^[i + 1] x) = true) :
    keystream map x n = some ((List.range n).map fun i => keyByte (map^[i + 1] x), map^[n] x) := by
  induction n generalizing x with
  | zero => rfl
  | succ n ih =>
    have hrest : ∀ i, i < n → F64.inUnit (map^[i + 1] (map x)) = true := fun i hi => h (i + 1) (by omega)
    rw [keystream_succ_of_inUnit (map := map) (x := x) n (h 0 (by omega)), ih hrest, List.range_succ_eq_map]
    simp [Function.comp_def]

/-- Where some value is outside `[0, 1)`, there is no keystream. -/
theorem keystream_eq_none {map : F64 → F64} {x : F64} {n i : Nat} (hi : i < n) (h : F64.inUnit (map^[i + 1] x) = false) :
    keystream map x n = none := by
  induction n generalizing x i with
  | zero => omega
  | succ n ih =>
    cases hfirst : F64.inUnit (map x) with
    | false => exact keystream_succ_of_not_inUnit n hfirst
    | true =>
      cases i with
      | zero => exact absurd (hfirst.symm.trans h) (by decide)
      | succ i => rw [keystream_succ_of_inUnit n hfirst, ih (Nat.lt_of_succ_lt_succ hi) h, Option.map_none]

/-- Settles O35: by induction on the length, the head of the keystream being the first iterate. -/
theorem keystreamIsIteratedMap : Obligations.KeystreamIsIteratedMap :=
  fun _ _ _ => ⟨keystream_eq_iterates, fun ⟨_, hi, h⟩ => keystream_eq_none hi h⟩

end Sys2Proof.Machine

namespace Sys2Proof.Machine

/-! ### The chaotic map and the key byte (R153, R158) -/

/-- Every result the type of the map admits is in `[0, 1)`. -/
theorem inUnit_unitPattern (v : Config.UnitValue) : F64.inUnit (unitPattern v) = true := by
  cases v with
  | pos k =>
    have hk : (unitPattern (.pos k)).toNat = k.val := by
      rw [unitPattern, BitVec.toNat_ofNat, Nat.mod_eq_of_lt (by omega)]
    exact (F64.inUnit_iff _).2 (.inr (by omega))
  | negZero => exact (F64.inUnit_iff _).2 (.inl rfl)

/-- The chaotic map takes a chaos state to a value in `[0, 1)` (R153). -/
theorem inUnit_chaosMap {x : F64} (h : F64.inClosedUnit x = true) : F64.inUnit (chaosMap x) = true := by
  rw [chaosMap, if_pos h]
  exact inUnit_unitPattern _

/-- Settles O36: the range law is in the type of the map's results. -/
theorem chaosMapStaysInRange : Obligations.ChaosMapStaysInRange := by
  intro x hzero hone
  have hunit := inUnit_chaosMap (x := x) (Bool.and_eq_true_iff.2 ⟨hzero, hone⟩)
  exact Bool.and_eq_true_iff.1 hunit

/-- The key byte before the cast. Product and magnitude are monotone, so the greatest value below 1.0, of pattern
`0x3FEFFFFFFFFFFFFF`, gives the bound. -/
theorem floor_mul_keyScale {x : F64} (h : F64.inUnit x = true) :
    ∃ m : Nat, m ≤ 254 ∧ F64.floor (F64.mul x Config.keyScale) = (m : Int) := by
  rcases (F64.inUnit_iff x).1 h with rfl | hx
  · exact ⟨0, by omega, by decide +kernel⟩
  · have hscale : Config.keyScale.toNat < 2 ^ 63 := by decide
    have hmono : (F64.mul x Config.keyScale).toNat ≤ (F64.mul 0x3FEFFFFFFFFFFFFF Config.keyScale).toNat :=
      F64.mul_mono (by decide) hscale (Nat.le_of_lt_succ hx)
    have hmax : (F64.mul 0x3FEFFFFFFFFFFFFF Config.keyScale).toNat < 2 ^ 63 := by decide +kernel
    have hfloor : F64.magnitude (F64.mul 0x3FEFFFFFFFFFFFFF Config.keyScale) / F64.unitsPerOne = 254 := by decide +kernel
    refine ⟨_, ?_, F64.floor_of_lt (hmono.trans_lt hmax)⟩
    exact hfloor ▸ Nat.div_le_div_right (F64.magnitude_mono hmax hmono)

/-- Settles O37: the floor of the product is at most 254, so it fits 8 bits. -/
theorem keyByteIsAtMost254 : Obligations.KeyByteIsAtMost254 := by
  intro x hx
  obtain ⟨m, hm, hfloor⟩ := floor_mul_keyScale hx
  have hbyte : (keyByte x).toNat = m := by
    rw [keyByte, hfloor, BitVec.ofInt_natCast, BitVec.toNat_ofNat, Nat.mod_eq_of_lt (by omega)]
  exact ⟨hbyte ▸ hm, hbyte ▸ hfloor⟩

end Sys2Proof.Machine

namespace Sys2Proof.Machine

/-! ### The seed (R154 to R156) -/

/-- The fallback is taken exactly when the normalised seed is below the pattern of `SEED_MIN`. -/
theorem seedReplaced_iff (m8 : Vector Byte 8) :
    seedReplaced m8 = true ↔ (normalise (seedInteger m8).natAbs).toNat < Config.seedMin.toNat :=
  F64.lt_iff (normalise_le_infinity _) (by decide)

/-- The last magnitude whose seed is below `SEED_MIN`. -/
theorem normalise_lastReplaced : (normalise 922337203685477).toNat < Config.seedMin.toNat := by decide +kernel

/-- The first magnitude whose seed is not below `SEED_MIN`. -/
theorem normalise_firstKept : Config.seedMin.toNat ≤ (normalise 922337203685478).toNat := by decide +kernel

/-- The threshold of R156. -/
theorem normalise_lt_seedMin_iff (a : Nat) : (normalise a).toNat < Config.seedMin.toNat ↔ a ≤ 922337203685477 := by
  constructor
  · intro h
    by_contra hgt
    have hmono := normalise_mono (a := 922337203685478) (b := a) (by omega)
    exact absurd h (Nat.not_lt.2 (normalise_firstKept.trans hmono))
  · intro h
    exact (normalise_mono h).trans_lt normalise_lastReplaced

/-- The fallback flag, on the magnitude of the seed integer (R156). -/
theorem seedReplaced_iff_natAbs (m8 : Vector Byte 8) :
    seedReplaced m8 = true ↔ (seedInteger m8).natAbs ≤ 922337203685477 :=
  (seedReplaced_iff m8).trans (normalise_lt_seedMin_iff _)

theorem seedValue_of_replaced {m8 : Vector Byte 8} (h : seedReplaced m8 = true) :
    seedValue m8 = Config.seedFallback := if_pos h

theorem seedValue_of_kept {m8 : Vector Byte 8} (h : seedReplaced m8 = false) :
    seedValue m8 = normalise (seedInteger m8).natAbs := if_neg (by simp [h])

/-- Settles O38: the threshold is where the monotone normalisation passes `SEED_MIN`. -/
theorem fallbackExactlyForSmallSeeds : Obligations.FallbackExactlyForSmallSeeds :=
  fun m8 => ⟨seedReplaced_iff_natAbs m8, seedValue_of_replaced⟩

/-- `SEED_MIN` is the least seed (R156). -/
theorem seedMin_le_seedValue (m8 : Vector Byte 8) : Config.seedMin.toNat ≤ (seedValue m8).toNat := by
  cases h : seedReplaced m8 with
  | true =>
    rw [seedValue_of_replaced h]
    decide
  | false =>
    rw [seedValue_of_kept h]
    exact Nat.le_of_not_lt fun hlt => by simp [(seedReplaced_iff m8).2 hlt] at h

/-- 1.0 is the greatest seed (R156). -/
theorem seedValue_le_one (m8 : Vector Byte 8) : (seedValue m8).toNat ≤ Config.one.toNat := by
  cases h : seedReplaced m8 with
  | true =>
    rw [seedValue_of_replaced h]
    decide
  | false =>
    rw [seedValue_of_kept h]
    exact (normalise_mono (seedInteger_natAbs_le m8)).trans_eq normalise_greatest

/-- The first magnitude that is normalised to 1.0. -/
theorem normalise_firstOne : (normalise (2 ^ 63 - 2 ^ 9)).toNat = Config.one.toNat := by decide +kernel

/-- The last magnitude that is normalised to less. -/
theorem normalise_lastBelowOne : (normalise (2 ^ 63 - 2 ^ 9 - 1)).toNat < Config.one.toNat := by decide +kernel

/-- The upper threshold of R156. -/
theorem one_le_normalise_iff (a : Nat) : Config.one.toNat ≤ (normalise a).toNat ↔ 2 ^ 63 - 2 ^ 9 ≤ a := by
  constructor
  · intro h
    by_contra hlt
    have hmono := normalise_mono (a := a) (b := 2 ^ 63 - 2 ^ 9 - 1) (by omega)
    exact absurd (hmono.trans_lt normalise_lastBelowOne) (Nat.not_lt.2 h)
  · intro h
    exact normalise_firstOne.symm.trans_le (normalise_mono h)

/-- The seed is 1.0 exactly from `2^63 - 2^9` on (R156). -/
theorem seedValue_eq_one_iff (m8 : Vector Byte 8) :
    seedValue m8 = Config.one ↔ 2 ^ 63 - 2 ^ 9 ≤ (seedInteger m8).natAbs := by
  cases h : seedReplaced m8 with
  | true =>
    have hsmall := (seedReplaced_iff_natAbs m8).1 h
    rw [seedValue_of_replaced h]
    exact iff_of_false (by decide) (by omega)
  | false =>
    rw [← one_le_normalise_iff, ← seedValue_of_kept h]
    exact ⟨fun heq => (congrArg BitVec.toNat heq).ge,
      fun hle => BitVec.eq_of_toNat_eq (Nat.le_antisymm (seedValue_le_one m8) hle)⟩

end Sys2Proof.Machine

namespace Sys2Proof.Machine

/-! ### The pattern of the seed (R155, R156)

`toF64(a)` has a significand of 53 bits, `a` scaled or rounded to them; the divisor `toF64(2^63 - 1)` is `2^63`, so the
division only moves the exponent. -/

namespace F64

/-- A value that is a significand of 53 bits times a power of two of units is not rounded; a significand of `2 ^ 53` carries
into the exponent. -/
theorem rne_toNat_of_significand {r d k : Nat} (hd : 0 < d) (hk : k < 2045) (h1 : 2 ^ 52 ≤ r) (h2 : r ≤ 2 ^ 53) :
    (rne (r * 2 ^ k * d) d).toNat = k * 2 ^ 52 + r := by
  have hinf : infinity = 2047 * 2 ^ 52 := by decide
  have hq : r * 2 ^ k * d / d = r * 2 ^ k := Nat.mul_div_cancel _ hd
  rcases Nat.eq_or_lt_of_le h2 with rfl | hlt
  · have hround : roundQuotient (2 ^ 53 * 2 ^ k * d) (d * 2 ^ (k + 1)) = 2 ^ 52 := by
      rw [show 2 ^ 53 * 2 ^ k * d = 2 ^ 52 * (d * 2 ^ (k + 1)) by ring]
      exact roundQuotient_mul _ (Nat.mul_pos hd (Nat.two_pow_pos _))
    rw [rne_toNat_of_log (k := k + 1), hround]
    · omega
    · rw [hq, ← Nat.pow_add]
      exact Nat.pow_le_pow_right (by decide) (by omega)
    · rw [hq, ← Nat.pow_add]
      exact Nat.pow_lt_pow_right (by decide) (by omega)
    · omega
  · have hround : roundQuotient (r * 2 ^ k * d) (d * 2 ^ k) = r := by
      rw [show r * 2 ^ k * d = r * (d * 2 ^ k) by ring]
      exact roundQuotient_mul _ (Nat.mul_pos hd (Nat.two_pow_pos _))
    rw [rne_toNat_of_log (k := k), hround]
    · rw [hq, Nat.pow_add]
      exact Nat.mul_le_mul_right _ h1
    · rw [hq, Nat.pow_add]
      exact Nat.mul_lt_mul_of_pos_right hlt (Nat.two_pow_pos _)
    · omega

/-- The significand of `toF64(a)` for `a` in `[2^n, 2^(n+1))`: `a` as a multiple of `2^(n-52)`, rounded. -/
def significand (a n : Nat) : Nat := roundQuotient (a * 2 ^ 52) (2 ^ n)

theorem significand_bounds {a n : Nat} (h1 : 2 ^ n ≤ a) (h2 : a < 2 ^ (n + 1)) :
    2 ^ 52 ≤ significand a n ∧ significand a n ≤ 2 ^ 53 := by
  have hlow : 2 ^ 52 ≤ a * 2 ^ 52 / 2 ^ n := by
    rw [Nat.le_div_iff_mul_le (Nat.two_pow_pos n), Nat.mul_comm]
    exact Nat.mul_le_mul_right _ h1
  have hhigh : a * 2 ^ 52 / 2 ^ n < 2 ^ 53 := by
    rw [Nat.div_lt_iff_lt_mul (Nat.two_pow_pos n), show 2 ^ 53 * 2 ^ n = 2 ^ (n + 1) * 2 ^ 52 by ring]
    exact Nat.mul_lt_mul_of_pos_right h2 (Nat.two_pow_pos _)
  obtain ⟨hge, hle⟩ := roundQuotient_bounds (a * 2 ^ 52) (2 ^ n)
  exact ⟨hlow.trans hge, hle.trans hhigh⟩

/-- Up to 53 bits the significand is `a` itself, shifted. -/
theorem significand_of_le {a n : Nat} (hn : n ≤ 52) : significand a n = a * 2 ^ (52 - n) := by
  rw [significand, show a * 2 ^ 52 = a * 2 ^ (52 - n) * 2 ^ n by rw [Nat.mul_assoc, ← Nat.pow_add, Nat.sub_add_cancel hn]]
  exact roundQuotient_mul _ (Nat.two_pow_pos n)

/-- Above 53 bits it is `a` rounded to them. -/
theorem significand_of_gt {a n : Nat} (hn : 52 < n) : significand a n = roundQuotient a (2 ^ (n - 52)) := by
  have h : 2 ^ n = 2 ^ (n - 52) * 2 ^ 52 := by rw [← Nat.pow_add, Nat.sub_add_cancel (by omega)]
  rw [significand, h, roundQuotient_scale _ _ (Nat.two_pow_pos 52)]

theorem unitsPerOne_pos : 0 < unitsPerOne := by decide +kernel

theorem unitsPerOne_eq_mul : unitsPerOne = 2 ^ 52 * 2 ^ 1022 := by decide +kernel

theorem two_pow_mul_unitsPerOne (m : Nat) : 2 ^ m * unitsPerOne = 2 ^ (m + 1074) := by
  rw [unitsPerOne, ← Nat.pow_add]

/-- `toF64(a)` has the exponent `n` over the significand of `a` (R12). -/
theorem ofNat_toNat {a n : Nat} (hn : n ≤ 1000) (h1 : 2 ^ n ≤ a) (h2 : a < 2 ^ (n + 1)) :
    (ofNat a).toNat = (n + 1022) * 2 ^ 52 + significand a n := by
  have hinf : infinity = 2047 * 2 ^ 52 := by decide
  have hround : roundQuotient (a * unitsPerOne) (1 * 2 ^ (n + 1022)) = significand a n := by
    rw [unitsPerOne_eq_mul, Nat.one_mul, Nat.pow_add, ← Nat.mul_assoc, roundQuotient_scale _ _ (Nat.two_pow_pos 1022),
      significand]
  have hq := significand_bounds h1 h2
  rw [ofNat_eq_rne, rne_toNat_of_log (k := n + 1022), hround]
  · rw [Nat.div_one, show 52 + (n + 1022) = n + 1074 by omega, ← two_pow_mul_unitsPerOne]
    exact Nat.mul_le_mul_right _ h1
  · rw [Nat.div_one, show 53 + (n + 1022) = n + 1 + 1074 by omega, ← two_pow_mul_unitsPerOne]
    exact Nat.mul_lt_mul_of_pos_right h2 unitsPerOne_pos
  · omega

/-- `toF64(2^63 - 1)` is `2^63` (R156). -/
theorem magnitude_ofNat_greatest : magnitude (ofNat (2 ^ 63 - 1)) = 2 ^ 63 * unitsPerOne := by decide +kernel

end F64

/-- The normalised seed has the exponent `n - 63` over the significand of `a` (R156). -/
theorem normalise_toNat {a n : Nat} (hn : n ≤ 63) (h1 : 2 ^ n ≤ a) (h2 : a < 2 ^ (n + 1)) :
    (normalise a).toNat = (n + 959) * 2 ^ 52 + F64.significand a n := by
  obtain ⟨hlow, hhigh⟩ := F64.significand_bounds h1 h2
  have hmag := F64.magnitude_of_toNat (by omega) hlow hhigh (F64.ofNat_toNat (by omega) h1 h2)
  have hfinite := fun m => Nat.lt_of_le_of_lt (F64.ofNat_le_infinity m) (by decide : 0x7FF0000000000000 < 2 ^ 63)
  have hscale : F64.significand a n * 2 ^ (n + 1022) * F64.unitsPerOne =
      F64.significand a n * 2 ^ (n + 959) * (2 ^ 63 * F64.unitsPerOne) := by
    rw [show n + 1022 = n + 959 + 63 by omega, Nat.pow_add, ← Nat.mul_assoc, Nat.mul_assoc]
  rw [normalise, F64.div_of_lt (hfinite _) (hfinite _), hmag, F64.magnitude_ofNat_greatest, hscale]
  exact F64.rne_toNat_of_significand (Nat.mul_pos (by decide) F64.unitsPerOne_pos) (by omega) hlow hhigh

/-- A seed that is kept, as a pattern (R156). -/
theorem seedValue_toNat {m8 : Vector Byte 8} {n : Nat} (hkept : seedReplaced m8 = false)
    (h1 : 2 ^ n ≤ (seedInteger m8).natAbs) (h2 : (seedInteger m8).natAbs < 2 ^ (n + 1)) :
    (seedValue m8).toNat = (n + 959) * 2 ^ 52 + F64.significand (seedInteger m8).natAbs n := by
  have hn : n ≤ 63 := (Nat.pow_le_pow_iff_right (by decide)).1 (h1.trans (seedInteger_natAbs_le m8))
  rw [seedValue_of_kept hkept, normalise_toNat hn h1 h2]

/-- Settles O39: the bounds and the upper threshold by monotonicity, the pattern by the significand of `toF64(a)`. -/
theorem seedStaysInRange : Obligations.SeedStaysInRange := by
  intro m8
  rw [show sint64 (le64 m8) = seedInteger m8 from rfl]
  have hmin := seedMin_le_seedValue m8
  have hone := seedValue_le_one m8
  have hinf : Config.one.toNat ≤ 0x7FF0000000000000 := by decide
  refine ⟨⟨(F64.le_iff (by decide) (hone.trans hinf)).2 hmin, (F64.le_iff (hone.trans hinf) hinf).2 hone,
    seedValue_eq_one_iff m8⟩, ?_⟩
  rintro _ n hkept rfl h1 h2
  have hpattern := seedValue_toNat hkept h1 h2
  constructor
  · intro hn
    have hshift : 2 ^ n * 2 ^ (52 - n) = 2 ^ 52 := by rw [← Nat.pow_add, Nat.add_sub_cancel' hn]
    have hle := Nat.mul_le_mul_right (2 ^ (52 - n)) h1
    rw [hpattern, F64.significand_of_le hn, Nat.sub_mul]
    omega
  · intro hn
    refine ⟨_, F64.roundQuotient_nearest _ (Nat.two_pow_pos (n - 52)), ?_⟩
    rw [hpattern, F64.significand_of_gt hn]
    omega

end Sys2Proof.Machine

namespace Sys2Proof.Machine

/-! ### The transform of the buffer (R159, R160, R177, R178) -/

/-- The transform of the first bytes, for every byte: those without a key byte are XORed with 0. -/
theorem CipherUnit.byte_xorFrom_zero (u : CipherUnit) (ks : List Byte) (i : Nat) :
    (u.xorFrom 0 ks).byte i = u.byte i ^^^ ks.getD i 0 := by
  rcases Nat.lt_or_ge i ks.length with h | h
  · have hinside := u.byte_xorFrom_inside 0 i ks h
    rw [Nat.zero_add] at hinside
    rw [hinside, List.getD_eq_getElem _ _ h]
  · rw [u.byte_xorFrom_after 0 i ks (by omega), List.getD_eq_default _ _ h]
    exact BitVec.xor_zero.symm

/-- The unit after a successful C.APPLY or C.CONT: `CBUF` XORed with a keystream, the final state in `C_X`, a count in
`C_COUNT` (R177, R178). -/
def CipherUnit.transformed (u : CipherUnit) (ks : List Byte) (xl : F64) (count : Word) : CipherUnit :=
  { u with cbuf := (u.xorFrom 0 ks).cbuf, x := xl, count := count, result := .ok }

theorem CipherUnit.byte_takeSeed (u : CipherUnit) (hash : Vector Byte 32 → Vector Byte 16 → Config.MixedKey) (i : Nat) :
    (u.takeSeed hash).byte i = u.byte i := rfl

theorem CipherUnit.byte_transformed (u : CipherUnit) (ks : List Byte) (xl : F64) (count : Word) (i : Nat) :
    (u.transformed ks xl count).byte i = u.byte i ^^^ ks.getD i 0 := by
  rw [← byte_xorFrom_zero, xorFrom_eq]
  rfl

/-- A transform where the keystream exists (R159). -/
theorem CipherUnit.transform_of_keystream {u : CipherUnit} {map : F64 → F64} {x xl : F64} {ks : List Byte} (count : Word)
    (h : keystream map x u.len.toNat = some (ks, xl)) :
    ((u.transform map x count).map fun t => { t with result := .ok }) = some (u.transformed ks xl (count + u.len)) := by
  rw [transform, h]
  change some { u.xorFrom 0 ks with x := xl, count := count + u.len, result := .ok } = _
  rw [xorFrom_eq]
  rfl

/-- The seed that C.APPLY takes (R151, R155). -/
def State.applySeed (s : State) : F64 := seedValue (keyedHash s.params.keyedHash s.c.key s.c.nonce).head

/-- C.APPLY of an idle unit with a key and a legal length, by its keystream (R177). -/
theorem exec_cApply {s : State} {ks : List Byte} {xl : F64} (hidle : s.c.busy = false) (hkey : s.c.keyValid = true)
    (hlen : s.c.len.toNat ≤ s.params.cbufBytes)
    (hks : keystream chaosMap s.applySeed s.c.len.toNat = some (ks, xl)) :
    exec .cApply s = .next
      { s with c := (s.c.takeSeed (keyedHash s.params.keyedHash)).transformed ks xl s.c.len, response := .written } := by
  rw [exec, execCApply, ← BitVec.zero_add s.c.len]
  refine runC_of_some hidle ?_
  have hok : s.c.lenOk s.params = true := decide_eq_true hlen
  simp only [CipherUnit.apply, hkey, hok, Bool.not_true, Bool.false_eq_true, if_false]
  exact CipherUnit.transform_of_keystream (u := s.c.takeSeed _) 0 hks

/-- C.CONT of an idle and seeded unit with a legal length, by its keystream (R178). -/
theorem exec_cCont {s : State} {ks : List Byte} {xl : F64} (hidle : s.c.busy = false) (hseeded : s.c.seeded = true)
    (hlen : s.c.len.toNat ≤ s.params.cbufBytes) (hks : keystream chaosMap s.c.x s.c.len.toNat = some (ks, xl)) :
    exec .cCont s = .next { s with c := s.c.transformed ks xl (s.c.count + s.c.len), response := .written } := by
  rw [exec, execCCont]
  refine runC_of_some hidle ?_
  have hok : s.c.lenOk s.params = true := decide_eq_true hlen
  simp only [CipherUnit.continueFrom, hseeded, hok, Bool.not_true, Bool.false_eq_true, if_false]
  exact CipherUnit.transform_of_keystream s.c.count hks

/-- The keystream of C.APPLY exists for every length (R153). -/
theorem keystream_applySeed_exists (s : State) (n : Nat) : ∃ ks xl, keystream chaosMap s.applySeed n = some (ks, xl) :=
  keystream_exists (fun _ => inUnit_chaosMap) (inClosedUnit_seedValue _) n

/-- Settles O40: the second C.APPLY takes the same seed, so it XORs the same keystream. -/
theorem applyTwiceRestoresBuffer : Obligations.ApplyTwiceRestoresBuffer := by
  intro s hidle hkey hlen
  obtain ⟨ks, xl, hks⟩ := keystream_applySeed_exists s s.c.len.toNat
  refine ⟨_, _, exec_cApply hidle hkey hlen hks, exec_cApply hidle hkey hlen hks, fun i => ?_⟩
  simp only [CipherUnit.byte_transformed, CipherUnit.byte_takeSeed]
  rw [BitVec.xor_assoc, BitVec.xor_self, BitVec.xor_zero]

/-- A keystream of two chunks is the first chunk's and, from its final state, the second's (R160). -/
theorem keystream_chunks {map : F64 → F64} {x xl : F64} {m n : Nat} {ks : List Byte}
    (h : keystream map x (m + n) = some (ks, xl)) :
    ∃ ks1 x1 ks2, keystream map x m = some (ks1, x1) ∧ keystream map x1 n = some (ks2, xl) ∧ ks = ks1 ++ ks2 := by
  rw [keystream_add] at h
  obtain ⟨⟨ks1, x1⟩, h1, h⟩ := Option.bind_eq_some_iff.1 h
  obtain ⟨⟨ks2, x2⟩, h2, h⟩ := Option.map_eq_some_iff.1 h
  obtain ⟨rfl, rfl⟩ := Prod.mk.inj h
  exact ⟨ks1, x1, ks2, h1, h2, rfl⟩

/-- Settles O41: the keystream of the whole is that of the first chunk, then that of the second from its final state. -/
theorem chunkedApplyEqualsWhole : Obligations.ChunkedApplyEqualsWhole := by
  intro s l1 l2 hidle hkey hsum hlen
  obtain ⟨ks, xl, hks⟩ := keystream_applySeed_exists s (l1.toNat + l2.toNat)
  obtain ⟨ks1, x1, ks2, hks1, hks2, rfl⟩ := keystream_chunks hks
  have hlength := keystream_length hks1
  have hwhole := exec_cApply hidle hkey hlen (hsum ▸ hks)
  have hlen1 : l1.toNat ≤ s.params.cbufBytes := by omega
  have hfirst := exec_cApply (s := { s with c := { s.c with len := l1 } }) hidle hkey hlen1 hks1
  refine ⟨_, _, hwhole, hfirst, fun j hj => ?_, fun mid hparams hmid hbytes => ?_⟩
  · simp only [CipherUnit.byte_transformed, CipherUnit.byte_takeSeed]
    rw [List.getD_append _ _ _ _ (by omega)]
    rfl
  · have hmidIdle : mid.c.busy = false := by rw [hmid]; exact hidle
    have hmidSeeded : mid.c.seeded = true := by rw [hmid]; rfl
    have hmidLen : mid.c.len = l2 := by rw [hmid]
    have hmidX : mid.c.x = x1 := by rw [hmid]; rfl
    have hmidCount : mid.c.count = l1 := by rw [hmid]; rfl
    have hcount : l1 + l2 = s.c.len := by
      apply BitVec.eq_of_toNat_eq
      rw [BitVec.toNat_add, ← hsum, Nat.mod_eq_of_lt s.c.len.isLt]
    refine ⟨_, exec_cCont (xl := xl) (ks := ks2) hmidIdle hmidSeeded ?_ ?_, fun j hj => ?_, rfl, ?_⟩
    · rw [hmidLen, hparams]
      omega
    · rw [hmidLen, hmidX, hks2]
    · simp only [CipherUnit.byte_transformed, CipherUnit.byte_takeSeed]
      rw [hbytes j hj, List.getD_append_right _ _ _ _ (by omega), hlength, Nat.add_sub_cancel_left]
    · show mid.c.count + mid.c.len = s.c.len
      rw [hmidLen, hmidCount, hcount]

end Sys2Proof.Machine

namespace Sys2Proof.Machine

/-! ### The commands without a keystream (41_cipher.md R173 to R176, 43_framer.md R223) -/

/-- Settles O26: the operation of each NOP gives back its unit. -/
theorem nopsChangeNothing : Obligations.NopsChangeNothing := by
  intro s
  constructor
  · intro hidle
    rw [exec, execCNop]
    exact runC_of_some hidle rfl
  · intro hidle
    rw [exec, execFNop]
    exact runF_idle _ hidle

theorem exec_cKeyclr {s : State} (hidle : s.c.busy = false) :
    exec .cKeyclr s = .next { s with c := s.c.clearKey, response := .written } := by
  rw [exec, execCKeyclr]
  exact runC_of_some hidle rfl

/-- Settles O27: each command is one operation of the unit, which always has a result. -/
theorem keySetAndKeyClear : Obligations.KeySetAndKeyClear :=
  fun _ hidle => ⟨exec_cKeyset hidle, exec_cKeyclr hidle⟩

theorem exec_cSeed {s : State} (hidle : s.c.busy = false) :
    exec .cSeed s = .next { s with c := s.c.deriveSeed (keyedHash s.params.keyedHash), response := .written } := by
  rw [exec, execCSeed]
  exact runC_of_some hidle rfl

/-- Settles O30: with a key the unit takes the seed, without one it refuses. -/
theorem seedDerivesFromKeyedHash : Obligations.SeedDerivesFromKeyedHash := by
  intro s hidle
  rw [exec_cSeed hidle]
  rcases s.c.deriveSeed_cases (keyedHash s.params.keyedHash) with ⟨hkey, hrefuse⟩ | ⟨hkey, htake⟩
  · rw [hrefuse]
    exact ⟨fun h => absurd (hkey.symm.trans h) (by decide), fun _ => rfl⟩
  · rw [htake]
    exact ⟨fun _ => rfl, fun h => absurd (hkey.symm.trans h) (by decide)⟩

/-! ### Illegal command words (41_cipher.md R180, 43_framer.md R229) -/

/-- Settles O22: a word above the last command of its map names none, and the unit takes the refusal. -/
theorem illegalCommandsAreRefused : Obligations.IllegalCommandsAreRefused := by
  intro s w
  constructor
  · intro hillegal hidle
    have hnone : cipherOp w = none := cipherOp_of_gt hillegal
    have hcmd : exec (.hostWr 0x0100 w) s = writeCipherCommand w s := rfl
    rw [hcmd, writeCipherCommand, hnone]
    exact runC_of_some hidle rfl
  · intro hillegal hidle
    have hnone : framerOp w = none := framerOp_of_gt hillegal
    have hcmd : exec (.hostWr 0x0200 w) s = writeFramerCommand w s := rfl
    rw [hcmd, writeFramerCommand, hnone]
    exact runF_idle _ hidle

/-! ### Stored words (41_cipher.md R171, R181, 42_codec.md R204) -/

/-- A word written to a byte array in registers stores its lanes and leaves the other bytes (R85). -/
theorem wordStored_setWord {n : Nat} (v : Vector Byte n) (k : Nat) (w : Word) :
    Claims.wordStored v (setWord v k w) k w := by
  constructor
  · intro j hj hn
    rw [byteAt_setWord, if_pos (by omega), Nat.mul_add_mod, Nat.mod_eq_of_lt hj]
  · intro i hi
    rw [byteAt_setWord, if_neg (by omega)]

/-- Settles O28: all four lanes of a key word are in the array of 32 bytes. -/
theorem keyWriteStoresFourBytes : Obligations.KeyWriteStoresFourBytes := by
  intro s k w hidle
  obtain ⟨hinside, houtside⟩ := wordStored_setWord s.c.key k.val w
  exact ⟨_, exec_cKeywr hidle k w, rfl, fun j hj => hinside j hj (by omega), houtside⟩

theorem regAt_fStg : ∀ k : Fin 7, regAt (0x0240 + 4 * k.val) = .fStg k := by decide

theorem regAt_eNonce : ∀ k : Fin 4, regAt (0x0270 + 4 * k.val) = .eNonce k := by decide

/-- A write to `F_STGk` of an idle framer unit stores the word (R204). -/
theorem exec_hostWr_fStg {s : State} (hidle : s.f.busy = false) (k : Fin 7) (w : Word) :
    exec (.hostWr (0x0240 + 4 * k.val) w) s =
      .next { s with f := { s.f with stg := setWord s.f.stg k.val w }, response := .written } :=
  exec_hostWr_framer (accepted_of_lt (by omega) (by omega)) (regAt_fStg k) rfl rfl hidle

/-- A write to `E_NONCEk` of an idle framer unit stores the word (R204). -/
theorem exec_hostWr_eNonce {s : State} (hidle : s.f.busy = false) (k : Fin 4) (w : Word) :
    exec (.hostWr (0x0270 + 4 * k.val) w) s =
      .next { s with f := { s.f with eNonce := setWord s.f.eNonce k.val w }, response := .written } :=
  exec_hostWr_framer (accepted_of_lt (by omega) (by omega)) (regAt_eNonce k) rfl rfl hidle

/-- Settles O14: each offset names a register that its idle unit stores. -/
theorem registerWritesStoreOnly : Obligations.RegisterWritesStoreOnly := fun s w hc hf =>
  ⟨exec_hostWr_cipher (r := .cLen) rfl rfl rfl rfl hc,
    exec_hostWr_cipher (r := .cSeedLo) rfl rfl rfl rfl hc,
    exec_hostWr_cipher (r := .cSeedHi) rfl rfl rfl rfl hc,
    fun k => ⟨_, exec_hostWr_cNonce hc k w, rfl, wordStored_setWord s.c.nonce k.val w⟩,
    fun k => ⟨_, exec_hostWr_fStg hf k w, rfl, wordStored_setWord s.f.stg k.val w⟩,
    exec_hostWr_framer (r := .fStgLen) rfl rfl rfl rfl hf,
    exec_hostWr_framer (r := .eType) rfl rfl rfl rfl hf,
    exec_hostWr_framer (r := .ePlen) rfl rfl rfl rfl hf,
    fun k => ⟨_, exec_hostWr_eNonce hf k w, rfl, wordStored_setWord s.f.eNonce k.val w⟩⟩

/-! ### The commands with a keystream (41_cipher.md R177 to R179) -/

/-- A transform XORs its keystream into `CBUF` (R159). -/
theorem CipherUnit.xoredWith_transformed (u : CipherUnit) (ks : List Byte) (xl : F64) (count : Word) :
    Claims.xoredWith u (u.transformed ks xl count) ks := by
  constructor
  · intro i _
    exact u.byte_transformed ks xl count i
  · intro i hi
    rw [byte_transformed, List.getD_eq_default _ _ hi]
    exact BitVec.xor_zero

/-- Settles O31: the derived seed is a chaos state, so its keystream exists; taking the seed leaves `CBUF`. -/
theorem applyTransformsBuffer : Obligations.ApplyTransformsBuffer := by
  intro s hidle hkey hlen
  obtain ⟨ks, xl, hks⟩ := keystream_applySeed_exists s s.c.len.toNat
  exact ⟨_, ks, xl, exec_cApply hidle hkey hlen hks, hks, keystream_length hks,
    (s.c.takeSeed (keyedHash s.params.keyedHash)).xoredWith_transformed ks xl s.c.len, rfl⟩

/-- Settles O32: `C_X` is a chaos state, so its keystream exists. -/
theorem contContinuesKeystream : Obligations.ContContinuesKeystream := by
  intro s hidle hseeded hx hlen
  obtain ⟨ks, xl, hks⟩ := keystream_exists (fun _ => inUnit_chaosMap) hx s.c.len.toNat
  exact ⟨_, ks, xl, exec_cCont hidle hseeded hlen hks, hks, keystream_length hks, s.c.xoredWith_transformed ks xl _, rfl⟩

/-- C.KSSTART of an idle unit with a host seed in range and a legal length, by its keystream (R179). -/
theorem exec_cKsstart {s : State} {ks : List Byte} {xl : F64} (hidle : s.c.busy = false)
    (hseed : seedInRange s.c.seed = true) (hlen : s.c.len.toNat ≤ s.params.cbufBytes)
    (hks : keystream chaosMap s.c.seed s.c.len.toNat = some (ks, xl)) :
    exec .cKsstart s = .next
      { s with
        c := { s.c.transformed ks xl s.c.len with seeded := true, fallback := false }
        response := .written } := by
  rw [exec, execCKsstart, ← BitVec.zero_add s.c.len]
  refine runC_of_some hidle ?_
  have hok : s.c.lenOk s.params = true := decide_eq_true hlen
  simp only [CipherUnit.start, hseed, hok, Bool.not_true, Bool.false_eq_true, if_false]
  have h := congrArg (Option.map fun t => { t with seeded := true, fallback := false })
    (CipherUnit.transform_of_keystream 0 hks)
  rw [Option.map_map] at h
  exact h

/-- Settles O33: a seed in the host's range is a chaos state, so its keystream exists. -/
theorem ksstartRunsFromHostSeed : Obligations.KsstartRunsFromHostSeed := by
  intro s hidle hmin hone hlen
  have hseed : seedInRange s.c.seed = true := Bool.and_eq_true_iff.2 ⟨hmin, hone⟩
  obtain ⟨ks, xl, hks⟩ :=
    keystream_exists (fun _ => inUnit_chaosMap) (inClosedUnit_of_seedInRange hseed) s.c.len.toNat
  exact ⟨_, ks, xl, exec_cKsstart hidle hseed hlen hks, hks, keystream_length hks,
    s.c.xoredWith_transformed ks xl s.c.len, rfl⟩

end Sys2Proof.Machine

namespace Sys2Proof.Machine

/-! ### The wire header (30_encoding.md R116, 42_codec.md R200, R201) -/

/-- The big-endian integer of a word's lanes, the last lane first, is the word (R86). -/
theorem be32_lanes (w : Word) : be32 (lane w 3) (lane w 2) (lane w 1) (lane w 0) = w := ofLanes_lanes w

/-- Four bytes are the magic exactly when they are `41 45 54 48`: they are the lanes of their big-endian integer. -/
theorem be32_eq_magic_iff (b0 b1 b2 b3 : Byte) :
    be32 b0 b1 b2 b3 = Config.magic ↔ b0 = 0x41 ∧ b1 = 0x45 ∧ b2 = 0x54 ∧ b3 = 0x48 := by
  constructor
  · intro h
    have hlane (j : Nat) : lane (ofLanes b3 b2 b1 b0) j = lane Config.magic j := congrArg (lane · j) h
    exact ⟨(lane_ofLanes_three ..).symm.trans (hlane 3), (lane_ofLanes_two ..).symm.trans (hlane 2),
      (lane_ofLanes_one ..).symm.trans (hlane 1), (lane_ofLanes_zero ..).symm.trans (hlane 0)⟩
  · rintro ⟨rfl, rfl, rfl, rfl⟩
    rfl

/-- The nonce is at bytes 9 to 24 of an encoded header (R201). -/
theorem getElem_hdrEncode_nonce (t : Byte) (p : Word) (n : Vector Byte 16) (i : Nat) (hi : i < 16) :
    (hdrEncode t p n)[9 + i] = n[i] := by
  simp only [hdrEncode, Vector.getElem_ofFn, Nat.add_comm 9 i]
  exact byteAt_of_lt n hi

/-- The 25 bytes of an encoded header, in order (R201). -/
theorem toList_hdrEncode (t : Byte) (p : Word) (n : Vector Byte 16) :
    (hdrEncode t p n).toList =
      [0x41, 0x45, 0x54, 0x48, t, lane p 3, lane p 2, lane p 1, lane p 0] ++ n.toList := by
  apply List.ext_getElem
  · simp
  · intro i hi _
    rw [Vector.length_toList] at hi
    rw [Vector.getElem_toList]
    rcases Nat.lt_or_ge i 9 with hhead | hnonce
    · interval_cases i <;> simp [hdrEncode]
    · obtain ⟨j, rfl⟩ := Nat.exists_eq_add_of_le hnonce
      rw [getElem_hdrEncode_nonce t p n j (by omega), List.getElem_append_right (Nat.le_add_right 9 j)]
      simp

/-- The header decoder on an encoded header: the magic and the fields that were encoded. -/
theorem FramerUnit.loadHeader_hdrEncode (u : FramerUnit) (t : Byte) (p : Word) (n : Vector Byte 16) :
    u.loadHeader (hdrEncode t p n) = { u with magic := Config.magic, ptype := t, plen := p, nonce := n } := by
  have hmagic :
      be32 (hdrEncode t p n)[0] (hdrEncode t p n)[1] (hdrEncode t p n)[2] (hdrEncode t p n)[3] = Config.magic := by
    simp [hdrEncode, be32_eq_magic_iff]
  have htype : (hdrEncode t p n)[4] = t := by simp [hdrEncode]
  have hplen : be32 (hdrEncode t p n)[5] (hdrEncode t p n)[6] (hdrEncode t p n)[7] (hdrEncode t p n)[8] = p := by
    simp [hdrEncode, be32_lanes]
  have hnonce : (Vector.ofFn fun i : Fin 16 => (hdrEncode t p n)[9 + i.val]) = n :=
    Vector.ext fun i hi => by rw [Vector.getElem_ofFn, getElem_hdrEncode_nonce t p n i hi]
  rw [loadHeader, hmagic, htype, hplen, hnonce]

/-! ### The verdict (42_codec.md R200) -/

theorem FramerUnit.verdict_of_wrongMagic {u : FramerUnit} (h : u.magic ≠ Config.magic) : u.verdict = .invalidMagic :=
  if_pos h

theorem FramerUnit.verdict_of_negative {u : FramerUnit} (hmagic : u.magic = Config.magic) (hlen : u.plen.toInt < 0) :
    u.verdict = .invalidLength :=
  (if_neg (not_not.2 hmagic)).trans (if_pos hlen)

theorem FramerUnit.verdict_of_nonneg {u : FramerUnit} (hmagic : u.magic = Config.magic) (hlen : 0 ≤ u.plen.toInt) :
    u.verdict = .valid :=
  (if_neg (not_not.2 hmagic)).trans (if_neg (not_lt.2 hlen))

/-- Settles O46: the decoder loads the fields that were encoded, and the first four bytes are the lanes of the magic. -/
theorem headerRoundTrip : Obligations.HeaderRoundTrip := by
  constructor
  · intro u t p n hlen
    rw [u.loadHeader_hdrEncode]
    exact ⟨FramerUnit.verdict_of_nonneg rfl hlen, rfl, rfl, rfl⟩
  · intro u h hbytes
    apply FramerUnit.verdict_of_wrongMagic
    rw [FramerUnit.loadHeader_magic]
    exact fun hmagic => hbytes ((be32_eq_magic_iff ..).1 hmagic)

/-! ### F.ENCODE and F.DECODE (42_codec.md R202, R203) -/

/-- Settles O44: the operation of F.ENCODE writes `ENC` and the result. -/
theorem encodeWritesWireHeader : Obligations.EncodeWritesWireHeader :=
  fun s hidle => ⟨_, runF_idle FramerUnit.encodeHeader hidle, rfl, toList_hdrEncode s.f.eType s.f.ePlen s.f.eNonce⟩

/-- The total size of a packet with a valid length, in the 32 bits of `F_TOTAL` (R39). -/
theorem FramerUnit.ofNat_totalSize {u : FramerUnit} (h : 0 ≤ u.plen.toInt) :
    BitVec.ofNat 32 u.totalSize = 25 + u.plen := by
  have hplen : BitVec.ofNat 32 u.plen.toInt.toNat = u.plen := by
    rw [← BitVec.ofInt_natCast, Int.toNat_of_nonneg h, BitVec.ofInt_toInt]
  calc BitVec.ofNat 32 u.totalSize = BitVec.ofNat 32 25 + BitVec.ofNat 32 u.plen.toInt.toNat := BitVec.ofNat_add ..
    _ = 25 + u.plen := by rw [hplen]; rfl

/-- F.DECODE of a staging area with fewer than 25 bytes (R203). -/
theorem FramerUnit.decodeStaging_of_short {u : FramerUnit} (hshort : u.stgLen.toNat < 25) :
    u.decodeStaging = { u.clearParse with result := .needHeader } := by
  simpa [hshort, Nat.not_le.2 hshort] using u.decodeStaging_cases

/-- F.DECODE of a staging area that holds a header, by the verdict on it (R203). -/
theorem FramerUnit.decodeStaging_of_invalidMagic {u : FramerUnit} (hfull : 25 ≤ u.stgLen.toNat)
    (hverdict : (u.clearParse.loadHeader u.stg).verdict = .invalidMagic) :
    u.decodeStaging = (u.clearParse.loadHeader u.stg).refuse FErrs.setMagic .invalidMagic := by
  simpa [hfull, Nat.not_lt.2 hfull, hverdict] using u.decodeStaging_cases

theorem FramerUnit.decodeStaging_of_invalidLength {u : FramerUnit} (hfull : 25 ≤ u.stgLen.toNat)
    (hverdict : (u.clearParse.loadHeader u.stg).verdict = .invalidLength) :
    u.decodeStaging = (u.clearParse.loadHeader u.stg).refuse FErrs.setLength .invalidLength := by
  simpa [hfull, Nat.not_lt.2 hfull, hverdict] using u.decodeStaging_cases

theorem FramerUnit.decodeStaging_of_valid {u : FramerUnit} (hfull : 25 ≤ u.stgLen.toNat)
    (hverdict : (u.clearParse.loadHeader u.stg).verdict = .valid) :
    u.decodeStaging =
      { u.clearParse.loadHeader u.stg with
        hdrValid := true, total := BitVec.ofNat 32 (u.clearParse.loadHeader u.stg).totalSize, result := .ok } := by
  simpa [hfull, Nat.not_lt.2 hfull, hverdict] using u.decodeStaging_cases

theorem exec_fDecode {s : State} (hidle : s.f.busy = false) :
    exec .fDecode s = .next { s with f := s.f.decodeStaging, response := .written } :=
  runF_idle FramerUnit.decodeStaging hidle

/-- Settles O45: the unit given in the statement is `clearParse`, its header the one the decoder loads; each clause is the
outcome of its verdict. -/
theorem decodeOutcomes : Obligations.DecodeOutcomes := by
  intro s u v hidle hu hv
  obtain rfl : u = s.f.clearParse := hu
  obtain rfl : v = s.f.clearParse.loadHeader s.f.stg := hv
  rw [exec_fDecode hidle]
  refine ⟨fun hshort => ?_, fun hfull hmagic => ?_, fun hfull hmagic hlen => ?_, fun hfull hmagic hlen => ?_⟩
  · rw [FramerUnit.decodeStaging_of_short hshort]
  · rw [FramerUnit.decodeStaging_of_invalidMagic hfull (FramerUnit.verdict_of_wrongMagic hmagic)]
    rfl
  · rw [FramerUnit.decodeStaging_of_invalidLength hfull (FramerUnit.verdict_of_negative hmagic hlen)]
    rfl
  · rw [FramerUnit.decodeStaging_of_valid hfull (FramerUnit.verdict_of_nonneg hmagic hlen),
      FramerUnit.ofNat_totalSize hlen]

end Sys2Proof.Machine

namespace Sys2Proof.Machine

/-! ### Pushes (43_framer.md R224, R225, R236) -/

/-- A push runs the push of its bytes on an idle framer unit. -/
theorem exec_push {i : Instr} {bytes : List Byte} {s : State} (hi : pushedBytes i = some bytes) (hidle : s.f.busy = false) :
    exec i s = .next { s with f := s.f.push s.params.asmCap bytes, response := .written } := by
  cases i with
  | fPush8 w =>
    cases hi
    exact runF_idle (·.push s.params.asmCap _) hidle
  | fPush32 w =>
    cases hi
    exact runF_idle (·.push s.params.asmCap _) hidle
  | _ => cases hi

theorem FramerUnit.push_of_failed {u : FramerUnit} (asmCap : Nat) (bytes : List Byte) (hfailed : u.failed = true) :
    u.push asmCap bytes = u :=
  if_pos hfailed

theorem FramerUnit.push_of_overflow {u : FramerUnit} {asmCap : Nat} {bytes : List Byte} (hfailed : u.failed = false)
    (hover : asmCap < u.asm.length + bytes.length) : u.push asmCap bytes = u.overflow :=
  (if_neg (ne_true_of_eq_false hfailed)).trans (if_pos hover)

/-- Settles O42: the push of the bytes appends them where they fit, and is the identity in the `FAILED` state. -/
theorem pushesAppendOrAreDropped : Obligations.PushesAppendOrAreDropped := by
  intro i bytes s hi hidle
  rw [exec_push hi hidle]
  constructor
  · intro hfailed hfits
    rw [FramerUnit.push_of_fits hfailed hfits]
  · intro hfailed
    rw [FramerUnit.push_of_failed _ _ hfailed]

/-- Settles O43: the unit given in the statement is `overflow`, written out. -/
theorem overflowIsFramingFailure : Obligations.OverflowIsFramingFailure := by
  intro i bytes s hi hidle hfailed hover
  rw [exec_push hi hidle, FramerUnit.push_of_overflow hfailed hover]
  rfl

/-! ### F.PARSE (43_framer.md R226, R237) -/

theorem exec_fParse {s : State} (hidle : s.f.busy = false) :
    exec .fParse s = .next { s with f := s.f.parse s.params.asmCap, response := .written } :=
  runF_idle (·.parse s.params.asmCap) hidle

theorem FramerUnit.parse_of_failed {u : FramerUnit} (asmCap : Nat) (hfailed : u.failed = true) :
    u.parse asmCap = { u with result := .failed } := by
  simpa [hfailed] using u.parse_cases asmCap

theorem FramerUnit.parse_of_short {u : FramerUnit} (asmCap : Nat) (hfailed : u.failed = false)
    (hshort : u.asm.length < 25) :
    u.parse asmCap =
      { u with
        pktValid := false, hdrValid := false, oversize := false, total := 0,
        need := BitVec.ofNat 32 (25 - u.asm.length), result := .needHeader } := by
  simpa [hfailed, asmLen, hshort, Nat.not_le.2 hshort] using u.parse_cases asmCap

/-- F.PARSE of an `ASM` that holds a header, by the verdict on it. -/
theorem FramerUnit.parse_of_invalidMagic {u : FramerUnit} (asmCap : Nat) (hfailed : u.failed = false)
    (hfull : 25 ≤ u.asm.length) (hverdict : u.staged.verdict = .invalidMagic) :
    u.parse asmCap = u.staged.fail FErrs.setMagic .invalidMagic := by
  simpa [hfailed, asmLen, hfull, Nat.not_lt.2 hfull, hverdict] using u.parse_cases asmCap

theorem FramerUnit.parse_of_invalidLength {u : FramerUnit} (asmCap : Nat) (hfailed : u.failed = false)
    (hfull : 25 ≤ u.asm.length) (hverdict : u.staged.verdict = .invalidLength) :
    u.parse asmCap = u.staged.fail FErrs.setLength .invalidLength := by
  simpa [hfailed, asmLen, hfull, Nat.not_lt.2 hfull, hverdict] using u.parse_cases asmCap

theorem FramerUnit.parse_of_valid {u : FramerUnit} (asmCap : Nat) (hfailed : u.failed = false)
    (hfull : 25 ≤ u.asm.length) (hverdict : u.staged.verdict = .valid) :
    u.parse asmCap = u.staged.finishParse asmCap := by
  simpa [hfailed, asmLen, hfull, Nat.not_lt.2 hfull, hverdict] using u.parse_cases asmCap

/-- The total size of a packet whose length is not negative: the length's sign bit is 0, so it is its own value. -/
theorem FramerUnit.totalSize_of_nonneg {u : FramerUnit} (hlen : 0 ≤ u.plen.toInt) : u.totalSize = 25 + u.plen.toNat := by
  rw [totalSize, Config.hdrSize, sint32, BitVec.toInt_eq_toNat_of_lt (BitVec.toInt_pos_iff.1 hlen),
    Int.toNat_natCast]

/-- The end of F.PARSE on a header whose payload is not there yet, or is. -/
theorem FramerUnit.finishParse_of_incomplete {u : FramerUnit} (asmCap : Nat) (hlen : 0 ≤ u.plen.toInt)
    (hpart : u.asm.length < 25 + u.plen.toNat) :
    u.finishParse asmCap =
      { u with
        hdrValid := true, total := BitVec.ofNat 32 (25 + u.plen.toNat),
        need := BitVec.ofNat 32 (25 + u.plen.toNat - u.asm.length),
        oversize := decide (asmCap < 25 + u.plen.toNat), result := .needPayload } := by
  rw [← totalSize_of_nonneg hlen] at hpart ⊢
  exact if_pos hpart

theorem FramerUnit.finishParse_of_complete {u : FramerUnit} (asmCap : Nat) (hlen : 0 ≤ u.plen.toInt)
    (hwhole : 25 + u.plen.toNat ≤ u.asm.length) :
    u.finishParse asmCap =
      { u with
        hdrValid := true, total := BitVec.ofNat 32 (25 + u.plen.toNat), pktValid := true, need := 0,
        result := .packet } := by
  rw [← totalSize_of_nonneg hlen] at hwhole ⊢
  exact if_neg (Nat.not_lt.2 hwhole)

/-- Settles O47: the two outcomes of F.PARSE that read no header. -/
theorem parseWithoutHeader : Obligations.ParseWithoutHeader := by
  intro s hidle
  rw [exec_fParse hidle]
  constructor
  · intro hfailed
    rw [FramerUnit.parse_of_failed _ hfailed]
  · intro hfailed hshort
    rw [FramerUnit.parse_of_short _ hfailed hshort]

/-- Settles O48: the unit given in the statement is `staged`, and each clause is the failure of its verdict. -/
theorem parseBadHeaderFails : Obligations.ParseBadHeaderFails := by
  intro s v hidle hfailed hfull hv
  obtain rfl : v = s.f.staged := hv
  rw [exec_fParse hidle]
  constructor
  · intro hmagic
    rw [FramerUnit.parse_of_invalidMagic _ hfailed hfull (FramerUnit.verdict_of_wrongMagic hmagic)]
    rfl
  · intro hmagic hlen
    rw [FramerUnit.parse_of_invalidLength _ hfailed hfull (FramerUnit.verdict_of_negative hmagic hlen)]
    rfl

/-- Settles O49: on a valid verdict F.PARSE is `finishParse` of the staged unit, which keeps `ASM`. -/
theorem parseValidHeader : Obligations.ParseValidHeader := by
  intro s v hidle hfailed hfull hv hmagic hlen
  obtain rfl : v = s.f.staged := hv
  rw [exec_fParse hidle, FramerUnit.parse_of_valid _ hfailed hfull (FramerUnit.verdict_of_nonneg hmagic hlen)]
  rw [← s.f.staged_asm]
  constructor
  · intro hpart
    rw [FramerUnit.finishParse_of_incomplete _ hlen hpart]
  · intro hwhole
    rw [FramerUnit.finishParse_of_complete _ hlen hwhole]

/-! ### F.POP and F.RESET (43_framer.md R227, R228) -/

theorem exec_fPop {s : State} (hidle : s.f.busy = false) :
    exec .fPop s = .next { s with f := s.f.pop, response := .written } :=
  runF_idle FramerUnit.pop hidle

theorem FramerUnit.pop_of_failed {u : FramerUnit} (hfailed : u.failed = true) : u.pop = { u with result := .failed } :=
  if_pos hfailed

theorem FramerUnit.pop_of_noPacket {u : FramerUnit} (hfailed : u.failed = false) (hpkt : u.pktValid = false) :
    u.pop = u.refuse FErrs.setNoPkt .noPacket := by
  simpa [hfailed, hpkt] using u.pop_cases

theorem FramerUnit.pop_of_packet {u : FramerUnit} (hfailed : u.failed = false) (hpkt : u.pktValid = true) :
    u.pop = { u.clearParse with asm := u.asm.drop u.total.toNat, result := .ok } := by
  simpa [hfailed, hpkt] using u.pop_cases

/-- Settles O50: the three outcomes of F.POP. -/
theorem popRemovesOnePacket : Obligations.PopRemovesOnePacket := by
  intro s hidle
  rw [exec_fPop hidle]
  refine ⟨fun hfailed hpkt => ?_, fun hfailed => ?_, fun hfailed hpkt => ?_⟩
  · rw [FramerUnit.pop_of_packet hfailed hpkt]
    rfl
  · rw [FramerUnit.pop_of_failed hfailed]
  · rw [FramerUnit.pop_of_noPacket hfailed hpkt]
    rfl

/-- Settles O51: the unit given in the statement is `teardown`, written out. -/
theorem framerResetStartsNewConnection : Obligations.FramerResetStartsNewConnection :=
  fun _ hidle => runF_idle FramerUnit.teardown hidle

/-! ### The FAILED state (43_framer.md R240) -/

theorem FramerUnit.decodeStaging_failed (u : FramerUnit) : u.decodeStaging.failed = u.failed := by
  rcases u.decodeStaging_cases with ⟨_, e⟩ | ⟨_, ⟨_, e⟩ | ⟨_, e⟩ | ⟨_, e⟩⟩ <;> rw [e] <;> simp

theorem FramerUnit.pop_failed (u : FramerUnit) : u.pop.failed = u.failed := by
  rcases u.pop_cases with ⟨_, e⟩ | ⟨_, _, e⟩ | ⟨_, _, e⟩ <;> rw [e] <;> rfl

/-- Everything a framer instruction can do to `FAILED`: keep it, enter it from a state that is not failed, or clear it. -/
theorem FramerStep.failed_cases {p : Params} {i : Instr} {u v : FramerUnit} (h : FramerStep p i u v) :
    v.failed = u.failed ∨ (u.failed = false ∧ (i = .fParse ∨ (pushedBytes i).isSome = true)) ∨
    (i = .fReset ∧ v.failed = false) := by
  cases h with
  | nop => exact .inl rfl
  | parse =>
    cases hfailed : u.failed
    · exact .inr (.inl ⟨rfl, .inl rfl⟩)
    · exact .inl (by rw [FramerUnit.parse_of_failed _ hfailed, hfailed])
  | pop => exact .inl u.pop_failed
  | encode => exact .inl rfl
  | decode => exact .inl u.decodeStaging_failed
  | teardown => exact .inr (.inr ⟨rfl, rfl⟩)
  | push8 | push32 =>
    cases hfailed : u.failed
    · exact .inr (.inl ⟨rfl, .inr rfl⟩)
    · exact .inl (by rw [FramerUnit.push_of_failed _ _ hfailed, hfailed])
  | illegal => exact .inl rfl
  | store => exact .inl (FramerUnit.store_failed ..)

/-- Everything an instruction can do to `FAILED`: only a framer instruction reaches it, and a block reset clears it. -/
theorem Effect.failed_cases {i : Instr} {s t : State} (h : Effect i s t) :
    t.f.failed = s.f.failed ∨ (s.f.failed = false ∧ (i = .fParse ∨ (pushedBytes i).isSome = true)) ∨
    ((i = .fReset ∨ i = .sysReset) ∧ t.f.failed = false) := by
  cases h with
  | unchanged r _ ht =>
    subst ht
    exact .inl rfl
  | cipher v _ _ ht =>
    subst ht
    exact .inl rfl
  | framer v _ hv ht =>
    subst ht
    exact hv.failed_cases.imp_right (.imp_right (.imp_left .inl))
  | reset hi ht =>
    subst ht
    exact .inr (.inr ⟨.inr hi, rfl⟩)

/-- Settles O52: an instruction that changes `FAILED` is one that can enter or one that can clear it. -/
theorem failedLeftOnlyByReset : Obligations.FailedLeftOnlyByReset := by
  intro i s t hwf h
  rcases (exec_next hwf h).failed_cases with hsame | ⟨hclear, hi⟩ | ⟨hi, hclear⟩
  · rw [hsame]
    exact ⟨fun hset hclear => absurd (hset.symm.trans hclear) (by decide),
      fun hclear hset => absurd (hset.symm.trans hclear) (by decide)⟩
  · exact ⟨fun hset => absurd (hset.symm.trans hclear) (by decide), fun _ _ => hi⟩
  · exact ⟨fun _ _ => hi, fun _ hset => absurd (hset.symm.trans hclear) (by decide)⟩

/-! ### A packet at the head of `ASM` (43_framer.md R226, R239) -/

/-- The bytes at the head of `ASM` that F.PARSE copies (R226). -/
theorem FramerUnit.headBytes_of_append {u : FramerUnit} {h : Vector Byte 25} {rest : List Byte}
    (hasm : u.asm = h.toList ++ rest) : u.headBytes = h := by
  apply Vector.ext
  intro i hi
  rw [headBytes, Vector.getElem_ofFn, hasm, List.getD_append _ _ _ _ (by simpa using hi)]
  simp [hi]

/-- Decoding an encoded header at the head of `ASM` loads the fields that were encoded (R200, R226). -/
theorem FramerUnit.staged_of_header {u : FramerUnit} {t : Byte} {p : Word} {n : Vector Byte 16} {rest : List Byte}
    (hasm : u.asm = (hdrEncode t p n).toList ++ rest) :
    u.staged =
      { u with
        pktValid := false, hdrValid := false, oversize := false, total := 0, stg := hdrEncode t p n, stgLen := 25,
        magic := Config.magic, ptype := t, plen := p, nonce := n } := by
  rw [staged, headBytes_of_append hasm, loadHeader_hdrEncode]

/-- F.PARSE on an encoded header: the magic passes, and so does a length that is not negative (R200, R226). -/
theorem FramerUnit.parse_of_header {u : FramerUnit} {t : Byte} {p : Word} {n : Vector Byte 16} {rest : List Byte}
    (asmCap : Nat) (hfailed : u.failed = false) (hlen : 0 ≤ p.toInt) (hasm : u.asm = (hdrEncode t p n).toList ++ rest) :
    u.parse asmCap = u.staged.finishParse asmCap := by
  have hfull : 25 ≤ u.asm.length := by simp [hasm]
  have hverdict : u.staged.verdict = .valid := by
    rw [staged_of_header hasm]
    exact verdict_of_nonneg rfl hlen
  exact parse_of_valid asmCap hfailed hfull hverdict

/-- F.PARSE on an encoded header whose payload is not there yet (R226, R237). -/
theorem FramerUnit.parse_of_partial {u : FramerUnit} {t : Byte} {p : Word} {n : Vector Byte 16} {rest : List Byte}
    (asmCap : Nat) (hfailed : u.failed = false) (hlen : 0 ≤ p.toInt) (hasm : u.asm = (hdrEncode t p n).toList ++ rest)
    (hpart : rest.length < p.toNat) :
    u.parse asmCap =
      { u with
        pktValid := false, hdrValid := true, stg := hdrEncode t p n, stgLen := 25, magic := Config.magic, ptype := t,
        plen := p, nonce := n, total := BitVec.ofNat 32 (25 + p.toNat),
        need := BitVec.ofNat 32 (p.toNat - rest.length), oversize := decide (asmCap < 25 + p.toNat),
        result := .needPayload } := by
  have hlength : u.asm.length = 25 + rest.length := by simp [hasm]
  rw [parse_of_header asmCap hfailed hlen hasm, staged_of_header hasm, finishParse_of_incomplete asmCap hlen, hlength,
    Nat.add_sub_add_left]
  rw [hlength]
  exact Nat.add_lt_add_left hpart 25

/-- F.PARSE on an encoded header whose payload is there (R226). -/
theorem FramerUnit.parse_of_whole {u : FramerUnit} {t : Byte} {p : Word} {n : Vector Byte 16} {rest : List Byte}
    (asmCap : Nat) (hfailed : u.failed = false) (hlen : 0 ≤ p.toInt) (hasm : u.asm = (hdrEncode t p n).toList ++ rest)
    (hwhole : p.toNat ≤ rest.length) :
    u.parse asmCap =
      { u with
        pktValid := true, hdrValid := true, oversize := false, stg := hdrEncode t p n, stgLen := 25,
        magic := Config.magic, ptype := t, plen := p, nonce := n, total := BitVec.ofNat 32 (25 + p.toNat), need := 0,
        result := .packet } := by
  rw [parse_of_header asmCap hfailed hlen hasm, staged_of_header hasm, finishParse_of_complete asmCap hlen]
  simpa [hasm] using hwhole

/-- A byte of `ASM` read through the window, which is 16384 bytes long (R89). -/
theorem windowByte_eq (s : State) {i : Nat} (hi : i < 0x4000) : windowByte s i = s.f.asm.getD i 0 := by
  rw [windowByte, regAt_fWinWord (by omega), readValue, FramerUnit.windowWord,
    lane_ofLanes_seq (s.f.asm.getD · 0) (4 * (i / 4)) (Nat.mod_lt i (by decide)), Nat.div_add_mod]

/-- The payload read through the window, from byte 25 on (R221). -/
theorem windowBytes_payload {s : State} {h : Vector Byte 25} {payload rest : List Byte}
    (hasm : s.f.asm = h.toList ++ (payload ++ rest)) (hwindow : 25 + payload.length ≤ 0x4000) :
    (List.range payload.length).map (fun j => windowByte s (25 + j)) = payload := by
  apply List.ext_getElem
  · simp
  · intro j _ hj
    rw [List.getElem_map, List.getElem_range, windowByte_eq s (by omega), hasm,
      List.getD_append_right _ _ _ _ (by simp), Vector.length_toList, Nat.add_sub_cancel_left,
      List.getD_append _ _ _ _ hj, List.getD_eq_getElem _ _ hj]

/-- Settles O54: the announced length is 100, against 40 and then 100 bytes after the header. -/
theorem partialPayloadWaits : Obligations.PartialPayloadWaits := by
  intro s n payload hidle hfailed hlength
  rw [exec_fParse hidle]
  constructor
  · intro hasm
    rw [FramerUnit.parse_of_partial _ hfailed (by decide) hasm (by simp [hlength])]
    exact ⟨_, rfl, rfl, rfl, by simp [hlength], rfl⟩
  · intro hasm
    rw [FramerUnit.parse_of_whole _ hfailed (by decide) hasm (by simp [hlength])]
    refine ⟨_, rfl, rfl, rfl, rfl, rfl, ?_⟩
    rw [← hlength]
    exact windowBytes_payload (rest := []) (by simpa using hasm) (by omega)

/-! ### Reassembly (43_framer.md R221, R238) -/

theorem Packet.length_bytes (p : Packet) : p.bytes.length = 25 + p.payload.length := by simp [bytes]

/-- The length field of a packet that is valid holds the length of its payload, and is not negative (R116). -/
theorem Packet.toNat_plen {p : Packet} (hp : p.valid = true) :
    (BitVec.ofNat 32 p.payload.length).toNat = p.payload.length := by
  have hlt : p.payload.length < 2 ^ 31 := by simpa [valid] using hp
  exact (BitVec.toNat_ofNat ..).trans (Nat.mod_eq_of_lt (by omega))

theorem Packet.plen_nonneg {p : Packet} (hp : p.valid = true) : 0 ≤ (BitVec.ofNat 32 p.payload.length).toInt := by
  have hlt : p.payload.length < 2 ^ 31 := by simpa [valid] using hp
  rw [BitVec.toInt_pos_iff, toNat_plen hp]
  omega

/-- The framer has the packets `ps` to yield: it is idle and not failed, and what `ASM` holds, followed by the bytes `b`
still to be pushed, which fit, is the packets' bytes. -/
structure Receives (s : State) (ps : List Packet) (b : List Byte) : Prop where
  takes : TakesBytes s b.length
  window : s.params.asmCap ≤ 0x4000
  valid : ∀ p ∈ ps, p.valid = true
  bytes : s.f.asm ++ b = (ps.map Packet.bytes).flatten

/-- The first of the packets `ps` is not all in `ASM`. -/
def HoldsNoPacket (s : State) (ps : List Packet) : Prop := ∀ p ∈ ps.head?, s.f.asm.length < p.bytes.length

/-- Where the first of the packets is all in `ASM`, there is a first. -/
theorem exists_of_not_holdsNoPacket {s : State} {ps : List Packet} (h : ¬HoldsNoPacket s ps) :
    ∃ p qs, ps = p :: qs ∧ p.bytes.length ≤ s.f.asm.length := by
  cases ps with
  | nil => exact absurd nofun h
  | cons p qs => exact ⟨p, qs, rfl, by simpa [HoldsNoPacket] using h⟩

/-- F.PARSE while the next packet is incomplete: no packet, no failure, and `ASM` as it was (R226). -/
theorem FramerUnit.parse_of_incomplete {u : FramerUnit} {p : Packet} {b tail : List Byte} (asmCap : Nat)
    (hfailed : u.failed = false) (hp : p.valid = true) (hbytes : u.asm ++ b = p.bytes ++ tail)
    (hpart : u.asm.length < p.bytes.length) :
    (u.parse asmCap).result ≠ .packet ∧ (u.parse asmCap).failed = false := by
  rcases Nat.lt_or_ge u.asm.length 25 with hshort | hfull
  · rw [parse_of_short _ hfailed hshort]
    exact ⟨nofun, hfailed⟩
  · rw [Packet.bytes, List.append_assoc] at hbytes
    obtain ⟨rest, hasm⟩ : (hdrEncode p.ptype (BitVec.ofNat 32 p.payload.length) p.nonce).toList <+: u.asm :=
      List.prefix_of_prefix_length_le ⟨_, hbytes.symm⟩ (List.prefix_append ..) (by simpa using hfull)
    have hrest : rest.length < p.payload.length := by
      simpa [← hasm, Packet.length_bytes] using hpart
    rw [parse_of_partial asmCap hfailed (Packet.plen_nonneg hp) hasm.symm (by rwa [Packet.toNat_plen hp])]
    exact ⟨nofun, hfailed⟩

/-- F.PARSE on a packet at the head of `ASM`: the result is PACKET and `F_TOTAL` its length (R226). -/
theorem FramerUnit.parse_of_packet {u : FramerUnit} {p : Packet} {rest : List Byte} (asmCap : Nat)
    (hfailed : u.failed = false) (hp : p.valid = true) (hasm : u.asm = p.bytes ++ rest) :
    u.parse asmCap =
      { u with
        pktValid := true, hdrValid := true, oversize := false,
        stg := hdrEncode p.ptype (BitVec.ofNat 32 p.payload.length) p.nonce, stgLen := 25, magic := Config.magic,
        ptype := p.ptype, plen := BitVec.ofNat 32 p.payload.length, nonce := p.nonce,
        total := BitVec.ofNat 32 p.bytes.length, need := 0, result := .packet } := by
  rw [Packet.bytes, List.append_assoc] at hasm
  rw [parse_of_whole asmCap hfailed (Packet.plen_nonneg hp) hasm] <;> rw [Packet.toNat_plen hp]
  · rw [Packet.length_bytes]
  · simp

/-- F.PARSE has reported the packet `p`, which is at the head of `ASM` (R226). -/
structure Reports (s : State) (p : Packet) : Prop where
  result : s.f.result = .packet
  pktValid : s.f.pktValid = true
  ptype : s.f.ptype = p.ptype
  nonce : s.f.nonce = p.nonce
  plen : s.f.plen.toNat = p.payload.length
  total : s.f.total.toNat = p.bytes.length
  asm : p.bytes <+: s.f.asm

/-- What the host reads of a reported packet is the packet, where it fits the window (R221). -/
theorem Reports.readPacket_eq {s : State} {p : Packet} (h : Reports s p) (hwindow : p.bytes.length ≤ 0x4000) :
    readPacket s = p := by
  obtain ⟨rest, hasm⟩ := h.asm
  rw [Packet.bytes, List.append_assoc] at hasm
  rw [p.length_bytes] at hwindow
  rw [readPacket, h.ptype, h.nonce, h.plen, windowBytes_payload hasm.symm hwindow]

/-- F.POP of a reported packet removes its bytes (R227). -/
theorem Reports.pop_asm {s : State} {p : Packet} (h : Reports s p) (hfailed : s.f.failed = false) :
    p.bytes ++ s.f.pop.asm = s.f.asm := by
  obtain ⟨rest, hasm⟩ := h.asm
  have hpop : s.f.pop.asm = s.f.asm.drop p.bytes.length := by
    rw [FramerUnit.pop_of_packet hfailed h.pktValid, ← h.total]
  rw [hpop, ← hasm, List.drop_left]

namespace Receives

/-- A framer that holds less than the next packet parses to no packet, and has the same packets to yield. -/
theorem parse_incomplete {s : State} {ps : List Packet} {b : List Byte} (h : Receives s ps b) (hno : HoldsNoPacket s ps) :
    ∃ t, exec .fParse s = .next t ∧ t.f.result ≠ .packet ∧ Receives t ps b ∧ HoldsNoPacket t ps := by
  obtain ⟨⟨hidle, hfailed, hfits⟩, hwindow, hvalid, hbytes⟩ := h
  have hparse : (s.f.parse s.params.asmCap).result ≠ .packet ∧ (s.f.parse s.params.asmCap).failed = false := by
    cases ps with
    | nil =>
      have hempty : s.f.asm = [] := (List.append_eq_nil_iff.1 hbytes).1
      rw [FramerUnit.parse_of_short _ hfailed (by simp [hempty])]
      exact ⟨nofun, hfailed⟩
    | cons p ps =>
      exact FramerUnit.parse_of_incomplete _ hfailed (hvalid p (.head _)) hbytes (hno p rfl)
  obtain ⟨hresult, hfailed'⟩ := hparse
  have hasm := s.f.parse_asm s.params.asmCap
  have hidle' := (FramerStep.parse (p := s.params) s.f).busy.trans hidle
  refine ⟨_, exec_fParse hidle, hresult, ⟨⟨hidle', hfailed', ?_⟩, hwindow, hvalid, ?_⟩, ?_⟩
  · rwa [hasm]
  · rwa [hasm]
  · rwa [HoldsNoPacket, hasm]

/-- A framer that holds the next packet: F.PARSE reports it, and the packets to yield are the same. -/
theorem parse_reports {s : State} {p : Packet} {ps : List Packet} {b : List Byte} (h : Receives s (p :: ps) b)
    (hwhole : p.bytes.length ≤ s.f.asm.length) :
    ∃ t, exec .fParse s = .next t ∧ Reports t p ∧ Receives t (p :: ps) b ∧ t.f.asm = s.f.asm := by
  obtain ⟨⟨hidle, hfailed, hfits⟩, hwindow, hvalid, hbytes⟩ := h
  have hp : p.valid = true := hvalid p (.head _)
  obtain ⟨rest, hasm⟩ : p.bytes <+: s.f.asm :=
    List.prefix_of_prefix_length_le ⟨_, hbytes.symm⟩ (List.prefix_append ..) hwhole
  have htotal : (BitVec.ofNat 32 p.bytes.length).toNat = p.bytes.length := by
    rw [BitVec.toNat_ofNat, Nat.mod_eq_of_lt (by omega)]
  rw [exec_fParse hidle, FramerUnit.parse_of_packet _ hfailed hp hasm.symm]
  exact ⟨_, rfl, ⟨rfl, rfl, rfl, rfl, Packet.toNat_plen hp, htotal, ⟨rest, hasm⟩⟩,
    ⟨⟨hidle, hfailed, hfits⟩, hwindow, hvalid, hbytes⟩, rfl⟩

/-- F.POP of the reported packet leaves the packets after it to yield. -/
theorem pop_reported {s : State} {p : Packet} {ps : List Packet} {b : List Byte} (h : Receives s (p :: ps) b)
    (hreports : Reports s p) :
    ∃ t, exec .fPop s = .next t ∧ Receives t ps b ∧ t.f.asm.length < s.f.asm.length := by
  obtain ⟨⟨hidle, hfailed, hfits⟩, hwindow, hvalid, hbytes⟩ := h
  have hasm := hreports.pop_asm hfailed
  have hlength : s.f.asm.length = 25 + p.payload.length + s.f.pop.asm.length := by
    rw [← hasm, List.length_append, p.length_bytes]
  have hidle' : s.f.pop.busy = false := (FramerStep.pop (p := s.params) s.f).busy.trans hidle
  have hfailed' : s.f.pop.failed = false := s.f.pop_failed.trans hfailed
  have hbytes' : s.f.pop.asm ++ b = (ps.map Packet.bytes).flatten := by
    rw [← hasm, List.append_assoc] at hbytes
    exact List.append_cancel_left hbytes
  refine ⟨_, exec_fPop hidle, ⟨⟨hidle', hfailed', ?_⟩, hwindow, fun q hq => hvalid q (.tail _ hq), hbytes'⟩, ?_⟩
  · change s.f.pop.asm.length + b.length ≤ s.params.asmCap
    omega
  · change s.f.pop.asm.length < s.f.asm.length
    omega

/-- A push of the next bytes leaves the same packets to yield. -/
theorem push {s : State} {ps : List Packet} {i : Instr} {b c : List Byte} (h : Receives s ps (b ++ c))
    (hi : pushedBytes i = some b) : ∃ t, exec i s = .next t ∧ Receives t ps c := by
  refine ⟨{ s.appendAsm b with response := .written }, ?_, ⟨?_, h.window, h.valid, ?_⟩⟩
  · rw [exec_push hi h.takes.idle, FramerUnit.push_of_fits h.takes.notFailed h.takes.left.fits]
    rfl
  · exact ⟨h.takes.idle, h.takes.notFailed, h.takes.appendAsm.fits⟩
  · change s.f.asm ++ b ++ c = _
    rw [List.append_assoc, h.bytes]

/-- The loop of R221 reads the packets that are all in `ASM`, and is done with none of the rest there. -/
theorem parseLoop_reads {n : Nat} {s : State} {ps : List Packet} {b : List Byte} (h : Receives s ps b)
    (hn : s.f.asm.length < n) :
    ∃ read rest t, parseLoop n s = some (read, t) ∧ ps = read ++ rest ∧ Receives t rest b ∧ HoldsNoPacket t rest := by
  induction n generalizing s ps with
  | zero => exact absurd hn (Nat.not_lt_zero _)
  | succ n ih =>
    by_cases hno : HoldsNoPacket s ps
    · obtain ⟨t, hparse, hresult, ht, hno'⟩ := h.parse_incomplete hno
      exact ⟨[], ps, t, by simp [parseLoop, hparse, hresult], rfl, ht, hno'⟩
    · obtain ⟨p, ps, rfl, hwhole⟩ := exists_of_not_holdsNoPacket hno
      obtain ⟨t, hparse, hreports, ht, hasm⟩ := h.parse_reports hwhole
      obtain ⟨u, hpop, hu, hlt⟩ := ht.pop_reported hreports
      obtain ⟨read, rest, v, hloop, rfl, hv, hno'⟩ := ih hu (by rw [hasm] at hlt; omega)
      have hread : readPacket t = p := hreports.readPacket_eq <|
        hwhole.trans <| (Nat.le_of_add_right_le h.takes.fits).trans h.window
      exact ⟨p :: read, rest, v, by simp [parseLoop, hparse, hreports.result, hpop, hloop, hread], rfl, hv, hno'⟩

/-- With every byte pushed and no packet left in `ASM`, there is nothing left to yield. -/
theorem nothing_left {s : State} {ps : List Packet} (h : Receives s ps []) (hno : HoldsNoPacket s ps) :
    ps = [] ∧ s.f.asm = [] := by
  have hbytes : s.f.asm = (ps.map Packet.bytes).flatten := by
    rw [← h.bytes, List.append_nil]
  cases ps with
  | nil => exact ⟨rfl, hbytes⟩
  | cons p ps =>
    have hshort := hno p rfl
    simp [hbytes] at hshort

/-- The pushes of all the bytes, with the loop after each, read all the packets. -/
theorem feed_reads {s : State} {ps : List Packet} {pushes : List Instr} {chunks : List (List Byte)}
    (h : Receives s ps chunks.flatten) (hno : HoldsNoPacket s ps) (hpushes : pushes.map pushedBytes = chunks.map some) :
    ∃ t, feed pushes s = some (ps, t) ∧ t.f.asm = [] ∧ t.f.failed = false := by
  induction pushes generalizing s ps chunks with
  | nil =>
    obtain rfl : chunks = [] := by simpa using hpushes.symm
    obtain ⟨rfl, hempty⟩ := h.nothing_left hno
    exact ⟨s, rfl, hempty, h.takes.notFailed⟩
  | cons i pushes ih =>
    cases chunks with
    | nil => cases hpushes
    | cons c chunks =>
      obtain ⟨hi, hrest⟩ := List.cons.inj hpushes
      obtain ⟨t, hpush, ht⟩ := h.push hi
      obtain ⟨read, rest, u, hloop, rfl, hu, hno'⟩ := ht.parseLoop_reads (Nat.lt_succ_self _)
      obtain ⟨v, hfeed, hv⟩ := ih hu hno' hrest
      exact ⟨v, by simp [feed, hpush, runLoop, FramerUnit.asmLen, hloop, hfeed], hv⟩

end Receives

/-- Settles O55: an empty framer has all the packets to yield, and the pushes read them. -/
theorem reassemblyYieldsThePackets : Obligations.ReassemblyYieldsThePackets := by
  intro s ps pushes chunks hlegal hidle hfailed hempty hvalid hpushes hbytes hfits
  have hwindow : s.params.asmCap ≤ 0x4000 := by
    simp only [Params.legal, Bool.and_eq_true, decide_eq_true_eq] at hlegal
    omega
  have hreceives : Receives s ps chunks.flatten :=
    ⟨⟨hidle, hfailed, by simpa [hempty] using hfits⟩, hwindow, hvalid, by simpa [hempty] using hbytes⟩
  have hno : HoldsNoPacket s ps := fun p _ => by simp [hempty, p.length_bytes]
  exact hreceives.feed_reads hno hpushes

end Sys2Proof.Machine

namespace Sys2Proof.Machine

/-! ### Plain writes that name an instruction (44_system.md R261) -/

/-- A write of a legal word to `C_CMD` is the command it names (R170). -/
theorem writeCipherCommand_of_cipherOp {w : Word} {op : COp} (s : State) (h : cipherOp w = some op) :
    writeCipherCommand w s = exec op.instr s := by
  rw [writeCipherCommand, h]
  cases op <;> rfl

/-- A write of a legal word to `F_CMD` is the command it names (R222). -/
theorem writeFramerCommand_of_framerOp {w : Word} {op : FOp} (s : State) (h : framerOp w = some op) :
    writeFramerCommand w s = exec op.instr s := by
  rw [writeFramerCommand, h]
  cases op <;> rfl

/-- HOST.WR dispatches an accepted write to the meaning of the instruction the decoder reads from it. -/
theorem exec_hostWr_eq_exec_decodeWrite {off : Nat} (w : Word) (s : State) (ha : accepted off = true) :
    exec (.hostWr off w) s = exec (decodeWrite off w) s := by
  unfold decodeWrite
  split
  · next hr =>
    cases hop : cipherOp w with
    | none => rfl
    | some op =>
      have hwrite : exec (.hostWr off w) s = writeCipherCommand w s := by simp [exec, execHostWr, ha, hr]
      exact hwrite.trans (writeCipherCommand_of_cipherOp s hop)
  · next hr =>
    cases hop : framerOp w with
    | none => rfl
    | some op =>
      have hwrite : exec (.hostWr off w) s = writeFramerCommand w s := by simp [exec, execHostWr, ha, hr]
      exact hwrite.trans (writeFramerCommand_of_framerOp s hop)
  · next hr => simp [exec, execHostWr, ha, hr]
  · next hr => simp [exec, execHostWr, ha, hr]
  · next hr =>
    split
    · next hw => simp [exec, execHostWr, ha, hr, hw]
    · rfl
  · next hr => simp [exec, execHostWr, ha, hr]
  · rfl

/-- Settles O7: the decoder reads the instruction back from its encoding, and HOST.WR dispatches as the decoder does. -/
theorem hostWritePerformsTheCommand : Obligations.HostWritePerformsTheCommand := by
  intro i off w s hwf hencode
  have hdecode : decode (.write 32 off w) = .ok i := hencode ▸ decodeOfEncode i hwf
  obtain ⟨_, haccepted, ⟨hread, _⟩ | ⟨_, hwrite, rfl⟩⟩ := decode_ok hdecode
  · cases hread
  · cases hwrite
    exact exec_hostWr_eq_exec_decodeWrite w s haccepted

/-! ### The parameters (44_system.md R264) -/

/-- Settles O10: a step waits, answers a bus error, or performs one instruction, and none of them changes a parameter. -/
theorem parametersNeverChange : Obligations.ParametersNeverChange := by
  intro s t hstep
  rcases step_effect hstep with ⟨_, rfl⟩ | ⟨_, rest, i, _, _, _, heffect⟩ | ⟨_, rest, _, rfl⟩
  · rfl
  · exact heffect.params_pending.1
  · rfl

end Sys2Proof.Machine

namespace Sys2Proof.Machine

/-! ### Refused commands (41_cipher.md R177 to R179, 60_exceptions.md R304) -/

/-- `LenOK` fails for a length above the size of `CBUF` (R172). -/
theorem CipherUnit.lenOk_of_gt {u : CipherUnit} {p : Params} (h : p.cbufBytes < u.len.toNat) : u.lenOk p = false :=
  decide_eq_false (Nat.not_le.2 h)

/-- C.APPLY without a key: NO_KEY, whatever the length. -/
theorem exec_cApply_noKey {s : State} (hidle : s.c.busy = false) (hkey : s.c.keyValid = false) :
    exec .cApply s = .next { s with c := s.c.refuse CErrs.setNoKey .noKey, response := .written } := by
  rw [exec, execCApply]
  exact runC_of_some hidle (by simp [CipherUnit.apply, hkey])

theorem exec_cApply_badLen {s : State} (hidle : s.c.busy = false) (hkey : s.c.keyValid = true)
    (hlen : s.params.cbufBytes < s.c.len.toNat) :
    exec .cApply s = .next { s with c := s.c.refuse CErrs.setLen .badLen, response := .written } := by
  rw [exec, execCApply]
  exact runC_of_some hidle (by simp [CipherUnit.apply, hkey, CipherUnit.lenOk_of_gt hlen])

/-- C.CONT without a chaos state: NO_SEED, whatever the length. -/
theorem exec_cCont_noSeed {s : State} (hidle : s.c.busy = false) (hseeded : s.c.seeded = false) :
    exec .cCont s = .next { s with c := s.c.refuse CErrs.setNoSeed .noSeed, response := .written } := by
  rw [exec, execCCont]
  exact runC_of_some hidle (by simp [CipherUnit.continueFrom, hseeded])

theorem exec_cCont_badLen {s : State} (hidle : s.c.busy = false) (hseeded : s.c.seeded = true)
    (hlen : s.params.cbufBytes < s.c.len.toNat) :
    exec .cCont s = .next { s with c := s.c.refuse CErrs.setLen .badLen, response := .written } := by
  rw [exec, execCCont]
  exact runC_of_some hidle (by simp [CipherUnit.continueFrom, hseeded, CipherUnit.lenOk_of_gt hlen])

/-- C.KSSTART from a host seed out of range: BAD_SEED, whatever the length. -/
theorem exec_cKsstart_badSeed {s : State} (hidle : s.c.busy = false) (hseed : seedInRange s.c.seed = false) :
    exec .cKsstart s = .next { s with c := s.c.refuse CErrs.setSeed .badSeed, response := .written } := by
  rw [exec, execCKsstart]
  exact runC_of_some hidle (by simp [CipherUnit.start, hseed])

theorem exec_cKsstart_badLen {s : State} (hidle : s.c.busy = false) (hseed : seedInRange s.c.seed = true)
    (hlen : s.params.cbufBytes < s.c.len.toNat) :
    exec .cKsstart s = .next { s with c := s.c.refuse CErrs.setLen .badLen, response := .written } := by
  rw [exec, execCKsstart]
  exact runC_of_some hidle (by simp [CipherUnit.start, hseed, CipherUnit.lenOk_of_gt hlen])

/-- Settles O34: the two bounds of the statement are the seed check, which a NaN fails. -/
theorem cipherRefusalsInOrder : Obligations.CipherRefusalsInOrder := fun _ hidle =>
  ⟨exec_cApply_noKey hidle, exec_cApply_badLen hidle, exec_cCont_noSeed hidle, exec_cCont_badLen hidle,
    fun hout => exec_cKsstart_badSeed hidle (Bool.eq_false_iff.2 (mt Bool.and_eq_true_iff.1 hout)),
    fun hin => exec_cKsstart_badLen hidle (Bool.and_eq_true_iff.2 hin)⟩

/-! ### No access stops the block (60_exceptions.md R300)

An operation of an idle framer unit always has a result. One of an idle cipher unit has none only where a keystream leaves
`[0, 1)`: C.APPLY and C.KSSTART start it from a seed in `[0, 1]`, C.CONT from `C_X`, which the invariant keeps there. -/

/-- C.APPLY of an idle unit completes, refused or not. -/
theorem exec_cApply_completes {s : State} (hidle : s.c.busy = false) : ∃ t, exec .cApply s = .next t := by
  cases hkey : s.c.keyValid with
  | false => exact ⟨_, exec_cApply_noKey hidle hkey⟩
  | true =>
    rcases Nat.lt_or_ge s.params.cbufBytes s.c.len.toNat with hlong | hlen
    · exact ⟨_, exec_cApply_badLen hidle hkey hlong⟩
    · obtain ⟨_, _, hks⟩ := keystream_applySeed_exists s s.c.len.toNat
      exact ⟨_, exec_cApply hidle hkey hlen hks⟩

/-- C.CONT of an idle unit whose `C_X` is a chaos state while `SEEDED` completes, refused or not. -/
theorem exec_cCont_completes {s : State} (hidle : s.c.busy = false) (hchaos : s.c.chaosOk = true) :
    ∃ t, exec .cCont s = .next t := by
  cases hseeded : s.c.seeded with
  | false => exact ⟨_, exec_cCont_noSeed hidle hseeded⟩
  | true =>
    rcases Nat.lt_or_ge s.params.cbufBytes s.c.len.toNat with hlong | hlen
    · exact ⟨_, exec_cCont_badLen hidle hseeded hlong⟩
    · obtain ⟨_, _, hks⟩ := keystream_exists (fun _ => inUnit_chaosMap)
        (CipherUnit.inClosedUnit_of_chaosOk hchaos hseeded) s.c.len.toNat
      exact ⟨_, exec_cCont hidle hseeded hlen hks⟩

/-- C.KSSTART of an idle unit completes, refused or not. -/
theorem exec_cKsstart_completes {s : State} (hidle : s.c.busy = false) : ∃ t, exec .cKsstart s = .next t := by
  cases hseed : seedInRange s.c.seed with
  | false => exact ⟨_, exec_cKsstart_badSeed hidle hseed⟩
  | true =>
    rcases Nat.lt_or_ge s.params.cbufBytes s.c.len.toNat with hlong | hlen
    · exact ⟨_, exec_cKsstart_badLen hidle hseed hlong⟩
    · obtain ⟨_, _, hks⟩ :=
        keystream_exists (fun _ => inUnit_chaosMap) (inClosedUnit_of_seedInRange hseed) s.c.len.toNat
      exact ⟨_, exec_cKsstart hidle hseed hlen hks⟩

/-- Every word written to `C_CMD` of an idle unit completes, a command or not (R170, R180). -/
theorem writeCipherCommand_completes {s : State} (w : Word) (hidle : s.c.busy = false) (hchaos : s.c.chaosOk = true) :
    ∃ t, writeCipherCommand w s = .next t := by
  unfold writeCipherCommand
  split
  · exact ⟨_, runC_of_some hidle rfl⟩
  · exact ⟨_, exec_cKeyset hidle⟩
  · exact ⟨_, exec_cKeyclr hidle⟩
  · exact ⟨_, exec_cSeed hidle⟩
  · exact exec_cApply_completes hidle
  · exact exec_cCont_completes hidle hchaos
  · exact exec_cKsstart_completes hidle
  · exact ⟨_, runC_of_some hidle rfl⟩

/-- Every word written to `F_CMD` of an idle unit completes, a command or not (R222, R229). -/
theorem writeFramerCommand_completes {s : State} (w : Word) (hidle : s.f.busy = false) :
    ∃ t, writeFramerCommand w s = .next t := by
  unfold writeFramerCommand
  split <;> exact ⟨_, runF_idle _ hidle⟩

/-- Every plain write completes while neither unit is busy. -/
theorem plainWrite_completes {s : State} (r : Reg) (w : Word) (hc : s.c.busy = false) (hf : s.f.busy = false) :
    ∃ t, plainWrite r w s = .next t := by
  unfold plainWrite
  split
  · exact ⟨_, ignoredWrite_eq s⟩
  · exact ⟨_, runC_of_some hc rfl⟩
  · exact ⟨_, runF_idle _ hf⟩

/-- HOST.WR completes at every offset from a state that meets the invariant (R261). -/
theorem exec_hostWr_completes {s : State} (off : Nat) (w : Word) (hinv : s.inv = true) :
    ∃ t, exec (.hostWr off w) s = .next t := by
  obtain ⟨_, hc, hf, _, hchaos, _⟩ := (State.inv_iff s).1 hinv
  rw [exec, execHostWr]
  split
  · exact ⟨_, busError_eq s⟩
  · split
    · exact writeCipherCommand_completes w hc hchaos
    · exact writeFramerCommand_completes w hf
    · exact ⟨_, runF_idle _ hf⟩
    · exact ⟨_, runF_idle _ hf⟩
    · split
      · exact ⟨_, rfl⟩
      · exact ⟨_, ignoredWrite_eq s⟩
    · exact ⟨_, exec_cKeywr hc _ w⟩
    · exact plainWrite_completes _ w hc hf

/-- Settles O58: with no access the block waits, on a rejected one it answers a bus error, and an accepted one is a read of an
idle unit or does what HOST.WR does. -/
theorem blockNeverStops : Obligations.BlockNeverStops := by
  intro s hinv
  cases hpending : s.pending with
  | nil => exact ⟨s, step_nil hpending⟩
  | cons a rest =>
    cases hdecode : decode a with
    | error e => exact ⟨_, step_rejected hpending hdecode⟩
    | ok i =>
      rw [step_cons hpending, hdecode]
      obtain ⟨off, haccepted, ⟨_, rfl⟩ | ⟨w, _, rfl⟩⟩ := decode_ok hdecode
      · obtain ⟨_, hc, hf, _⟩ := (State.inv_iff s).1 hinv
        exact ⟨_, exec_hostRd haccepted (.inl (ownerBusy_idle hc hf _))⟩
      · dsimp only
        rw [← exec_hostWr_eq_exec_decodeWrite w _ haccepted]
        exact exec_hostWr_completes off w hinv

end Sys2Proof.Machine

namespace Sys2Proof.Machine

/-! ### Accesses to a busy unit (70_reset_and_hazards.md R350, 93_implementation_defined.md U2)

Every command, push and key write runs one operation of its unit, and so does every write to a register of the unit: a busy
unit stops them all by `runC_busy` and `runF_busy`. A read runs no operation and checks the owner itself. -/

/-- The status registers are the only ones a host may read while their unit is busy. -/
theorem Reg.readableWhileBusy_iff {r : Reg} : r.readableWhileBusy = true ↔ r = .cStatus ∨ r = .fStatus := by
  cases r <;> simp [Reg.readableWhileBusy]

/-- A read of a busy unit's register faults, unless it is a status register. -/
theorem exec_hostRd_busy {s : State} {off : Nat} (ha : accepted off = true) (hbusy : ownerBusy s (regAt off) = true)
    (hc : regAt off ≠ .cStatus) (hf : regAt off ≠ .fStatus) : exec (.hostRd off) s = .fault .accessWhileBusy := by
  have hread : (regAt off).readableWhileBusy = false :=
    Bool.eq_false_iff.2 fun h => (Reg.readableWhileBusy_iff.1 h).elim hc hf
  simp [exec, execHostRd, ha, hbusy, hread]

/-- Every word written to `C_CMD` of a busy unit faults, a command or not. -/
theorem writeCipherCommand_busy {s : State} (w : Word) (hbusy : s.c.busy = true) :
    writeCipherCommand w s = .fault .accessWhileBusy := by
  unfold writeCipherCommand
  split <;> exact runC_busy _ hbusy

/-- Every word written to `F_CMD` of a busy unit faults, a command or not. -/
theorem writeFramerCommand_busy {s : State} (w : Word) (hbusy : s.f.busy = true) :
    writeFramerCommand w s = .fault .accessWhileBusy := by
  unfold writeFramerCommand
  split <;> exact runF_busy _ hbusy

/-- A plain write to a register of a busy unit faults. -/
theorem plainWrite_busy {s : State} {r : Reg} (w : Word) (hbusy : ownerBusy s r = true) :
    plainWrite r w s = .fault .accessWhileBusy := by
  rw [ownerBusy] at hbusy
  rw [plainWrite]
  cases ho : r.owner with rw [ho] at hbusy
  | system => cases hbusy
  | cipher => exact runC_busy _ hbusy
  | framer => exact runF_busy _ hbusy

/-- Every write to a register of a busy unit faults: the status register's and a read-only register's too. -/
theorem exec_hostWr_busy {s : State} {off : Nat} (w : Word) (ha : accepted off = true)
    (hbusy : ownerBusy s (regAt off) = true) : exec (.hostWr off w) s = .fault .accessWhileBusy := by
  cases hstarts : (regAt off).startsOperation with
  | false => rw [exec_hostWr_plain ha rfl hstarts, plainWrite_busy w hbusy]
  | true =>
    simp only [exec, execHostWr, ha]
    rw [if_neg (by simp)]
    cases hreg : regAt off with rw [hreg] at hbusy hstarts
    | cCmd => exact writeCipherCommand_busy w hbusy
    | fCmd => exact writeFramerCommand_busy w hbusy
    | fPush8 | fPush32 => exact runF_busy _ hbusy
    | cKey => exact runC_busy _ hbusy
    | sysReset => cases hbusy
    | _ => cases hstarts

theorem exec_cipherCommand_busy {i : Instr} {s : State} (hbusy : s.c.busy = true)
    (hi : i ∈ [Instr.cNop, .cKeyset, .cKeyclr, .cSeed, .cApply, .cCont, .cKsstart]) :
    exec i s = .fault .accessWhileBusy := by
  fin_cases hi <;> rw [exec] <;> exact runC_busy _ hbusy

theorem exec_framerCommand_busy {i : Instr} {s : State} (hbusy : s.f.busy = true)
    (hi : i ∈ [Instr.fNop, .fParse, .fPop, .fEncode, .fDecode, .fReset]) : exec i s = .fault .accessWhileBusy := by
  fin_cases hi <;> rw [exec] <;> exact runF_busy _ hbusy

theorem exec_cKeywr_busy {s : State} (k : Fin 8) (w : Word) (hbusy : s.c.busy = true) :
    exec (.cKeywr k w) s = .fault .accessWhileBusy := by
  rw [exec]
  exact runC_busy _ hbusy

theorem exec_fPush8_busy {s : State} (w : Word) (hbusy : s.f.busy = true) :
    exec (.fPush8 w) s = .fault .accessWhileBusy := by
  rw [exec]
  exact runF_busy _ hbusy

theorem exec_fPush32_busy {s : State} (w : Word) (hbusy : s.f.busy = true) :
    exec (.fPush32 w) s = .fault .accessWhileBusy := by
  rw [exec]
  exact runF_busy _ hbusy

theorem ownerBusy_of_cipher {s : State} {r : Reg} (ho : r.owner = .cipher) (hbusy : s.c.busy = true) :
    ownerBusy s r = true := by
  rw [ownerBusy, ho]
  exact hbusy

theorem ownerBusy_of_framer {s : State} {r : Reg} (ho : r.owner = .framer) (hbusy : s.f.busy = true) :
    ownerBusy s r = true := by
  rw [ownerBusy, ho]
  exact hbusy

/-- Settles O23: an instruction of a busy unit runs an operation of it, an access to one of its registers finds the owner
busy, and the other unit's status register is not one of them. -/
theorem accessToBusyUnitFaults : Obligations.AccessToBusyUnitFaults := by
  intro s
  constructor
  · intro hbusy
    refine ⟨fun _ => exec_cipherCommand_busy hbusy, fun k w => exec_cKeywr_busy k w hbusy, fun off ha ho hstatus => ?_,
      fun off w ha ho => exec_hostWr_busy w ha (ownerBusy_of_cipher ho hbusy)⟩
    have hother : regAt off ≠ .fStatus := fun h => by simp [h, Reg.owner] at ho
    exact exec_hostRd_busy ha (ownerBusy_of_cipher ho hbusy) hstatus hother
  · intro hbusy
    refine ⟨fun _ => exec_framerCommand_busy hbusy, fun w => ⟨exec_fPush8_busy w hbusy, exec_fPush32_busy w hbusy⟩,
      fun off ha ho hstatus => ?_, fun off w ha ho => exec_hostWr_busy w ha (ownerBusy_of_framer ho hbusy)⟩
    have hother : regAt off ≠ .cStatus := fun h => by simp [h, Reg.owner] at ho
    exact exec_hostRd_busy ha (ownerBusy_of_framer ho hbusy) hother hstatus

end Sys2Proof.Machine
